-- ==== Sys2Proof/Word.lean ====
section
/-!
DEFINITION. The word of the SWAR lane unit (00_scope.md R9): 64 bits, bit 0 the least significant. `+`, `-` and `*` of
`BitVec 64` are modulo 2^64 and the shifts fill with zeros, as R9 asks. All values are unsigned.
-/

namespace Sys2Proof

/-- A word of the unit: 64 bits (00_scope.md R9). Registers, buckets, command words and results are words. -/
abbrev Word := BitVec 64

/-- A natural number as a word, zero-extended (`zext_64` of 00_scope.md R12). -/
abbrev word (n : Nat) : Word := BitVec.ofNat 64 n

end Sys2Proof
end

