-- ==== Sys2Proof/Syntax.lean ====
section
/-!
DEFINITION. The 23 commands (30_encoding.md R60), one constructor per row of spec/opcode_table.json. The decoded form of a command
is its mnemonic and the fields it uses (R67), each an unsigned number (R56, R59). Operands in the assembler's order: register, lane, value (R63).
-/

namespace Sys2Proof

/-- Which of the two bucket arrays (43_bucketed_set.md R146, R153): `lo` for values with top bit 0, `hi` with top bit 1. -/
inductive Half where
  | lo
  | hi
  deriving DecidableEq, Repr

/-- The commands. `k` is `rk` (a register or bucket index), `i` and `count` are `ln`, `v` is `val`. -/
inductive Instr where
  -- lane storage (40_lane_primitive.md)
  | bcast (k v : Nat)
  | get (k i : Nat)
  | set (k i v : Nat)
  | zmask (k : Nat)
  | rdw (k : Nat)
  -- search (41_search.md)
  | contains (k v : Nat)
  | find (k v : Nat)
  | findz (k : Nat)
  | cnteq (k v : Nat)
  | min (k count : Nat)
  | max (k count : Nat)
  -- generic set (42_generic_set.md)
  | gins (v : Nat)
  | gera (v : Nat)
  | gcon (v : Nat)
  | gsize
  | gcap
  | glen
  -- bucketed set (43_bucketed_set.md)
  | bins (v : Nat)
  | bera (v : Nat)
  | bcon (v : Nat)
  | bsize
  | bcap
  | brdw (h : Half) (k : Nat)
  deriving DecidableEq, Repr

end Sys2Proof
end

