-- ==== Sys2Proof/WellFormed.lean ====
section
/-!
DEFINITION. Which decoded commands an encoding can carry (30_encoding.md R56): `val` is 32 bits, `rk` 16, `ln` 8. The ranges that depend on
the parameters (R66 steps 3 to 5) are not well-formedness: a well-formed command outside them runs and raises its fault.
-/

namespace Sys2Proof

/-- An operand that fits `val = CW[63:32]`. -/
def fitsVal (v : Nat) : Bool := decide (v < 2 ^ 32)

/-- An operand that fits `rk = CW[31:16]`. -/
def fitsRk (k : Nat) : Bool := decide (k < 2 ^ 16)

/-- An operand that fits `ln = CW[15:8]`. -/
def fitsLn (i : Nat) : Bool := decide (i < 2 ^ 8)

/-- Every operand fits its field (30_encoding.md R56, R60). -/
def Instr.wellFormed : Instr → Bool
  | .bcast k v => fitsRk k && fitsVal v
  | .get k i => fitsRk k && fitsLn i
  | .set k i v => fitsRk k && fitsLn i && fitsVal v
  | .zmask k => fitsRk k
  | .rdw k => fitsRk k
  | .contains k v => fitsRk k && fitsVal v
  | .find k v => fitsRk k && fitsVal v
  | .findz k => fitsRk k
  | .cnteq k v => fitsRk k && fitsVal v
  | .min k count => fitsRk k && fitsLn count
  | .max k count => fitsRk k && fitsLn count
  | .gins v => fitsVal v
  | .gera v => fitsVal v
  | .gcon v => fitsVal v
  | .gsize => true
  | .gcap => true
  | .glen => true
  | .bins v => fitsVal v
  | .bera v => fitsVal v
  | .bcon v => fitsVal v
  | .bsize => true
  | .bcap => true
  | .brdw _ k => fitsRk k

end Sys2Proof
end

