-- ==== Sys2Proof/Decode.lean ====
section
/-!
DEFINITION. Decoding a command word, the encoder beside it, and the opcode map (30_encoding.md R55 to R62, R67). The decoder is total: every 64-bit
word is one command or is rejected by name (R61). Assembly text is in Machine/Assembler.lean.
-/

namespace Sys2Proof

/-- `op = CW[7:0]` (30_encoding.md R56). -/
def opField (cw : Word) : Nat := (cw.extractLsb' 0 8).toNat

/-- `ln = CW[15:8]` (30_encoding.md R56). -/
def lnField (cw : Word) : Nat := (cw.extractLsb' 8 8).toNat

/-- `rk = CW[31:16]` (30_encoding.md R56). -/
def rkField (cw : Word) : Nat := (cw.extractLsb' 16 16).toNat

/-- `val = CW[63:32]` (30_encoding.md R56). -/
def valField (cw : Word) : Nat := (cw.extractLsb' 32 32).toNat

/-- Why a word is no command; both reasons raise `IllegalCommand` (60_exceptions.md R172). -/
inductive Reject where
  /-- `op` is not in the table (30_encoding.md R61). -/
  | undefinedOp
  /-- A bit of a field the command does not use is set (30_encoding.md R58). -/
  | mustBeZero
  deriving DecidableEq, Repr

/-- The command `i`, if the fields it does not use are zero (30_encoding.md R58). -/
def ifZero (unused : Bool) (i : Instr) : Except Reject Instr :=
  if unused then .ok i else .error .mustBeZero

/-- The half select of `BRDW`: `ln = 0` is `LO`, otherwise `HI` (43_bucketed_set.md R153; `ln > 1` is rejected before). -/
def halfOf (ln : Nat) : Half := if ln = 0 then .lo else .hi

/-- The opcode map of 30_encoding.md R60: the opcode selects the command, each unused field is tested against zero, each used field
is carried whole. -/
def decodeFields (op ln rk val : Nat) : Except Reject Instr :=
  match op with
  | 0x01 => ifZero (ln == 0) (.bcast rk val)
  | 0x02 => ifZero (val == 0) (.get rk ln)
  | 0x03 => ifZero true (.set rk ln val)
  | 0x04 => ifZero (ln == 0 && val == 0) (.zmask rk)
  | 0x05 => ifZero (ln == 0 && val == 0) (.rdw rk)
  | 0x10 => ifZero (ln == 0) (.contains rk val)
  | 0x11 => ifZero (ln == 0) (.find rk val)
  | 0x12 => ifZero (ln == 0 && val == 0) (.findz rk)
  | 0x13 => ifZero (ln == 0) (.cnteq rk val)
  | 0x14 => ifZero (val == 0) (.min rk ln)
  | 0x15 => ifZero (val == 0) (.max rk ln)
  | 0x20 => ifZero (ln == 0 && rk == 0) (.gins val)
  | 0x21 => ifZero (ln == 0 && rk == 0) (.gera val)
  | 0x22 => ifZero (ln == 0 && rk == 0) (.gcon val)
  | 0x23 => ifZero (ln == 0 && rk == 0 && val == 0) .gsize
  | 0x24 => ifZero (ln == 0 && rk == 0 && val == 0) .gcap
  | 0x25 => ifZero (ln == 0 && rk == 0 && val == 0) .glen
  | 0x30 => ifZero (ln == 0 && rk == 0) (.bins val)
  | 0x31 => ifZero (ln == 0 && rk == 0) (.bera val)
  | 0x32 => ifZero (ln == 0 && rk == 0) (.bcon val)
  | 0x33 => ifZero (ln == 0 && rk == 0 && val == 0) .bsize
  | 0x34 => ifZero (ln == 0 && rk == 0 && val == 0) .bcap
  | 0x35 => ifZero (ln / 2 == 0 && val == 0) (.brdw (halfOf ln) rk)
  | _ => .error .undefinedOp

/-- Decoding a command word (30_encoding.md R55, R66 step 2). -/
def decode (cw : Word) : Except Reject Instr :=
  decodeFields (opField cw) (lnField cw) (rkField cw) (valField cw)

/-- The instruction the decoder reads from a word given as a number, bit 0 the least significant bit of the command word; bits at and
above `nbits` are zero. A command is one 64-bit word, so the word as stored is the number itself (20_memory.md R41). -/
def decodeTableWord (nbits w : Nat) : Option Instr :=
  match decode (word (w % 2 ^ nbits)) with
  | .ok i => some i
  | .error _ => none

/-! ## The encoder -/

/-- `CW = (val << 32) | (rk << 16) | (ln << 8) | op` (30_encoding.md R63), for operands that fit their fields. -/
def packFields (op ln rk val : Nat) : Word :=
  word (val * 2 ^ 32 + rk * 2 ^ 16 + ln * 2 ^ 8 + op)

/-- `ln` of `BRDW` (30_encoding.md R63). -/
def Half.select : Half → Nat
  | .lo => 0
  | .hi => 1

/-- The command word of a command (30_encoding.md R60, R63), every absent operand 0. -/
def encode : Instr → Word
  | .bcast k v => packFields 0x01 0 k v
  | .get k i => packFields 0x02 i k 0
  | .set k i v => packFields 0x03 i k v
  | .zmask k => packFields 0x04 0 k 0
  | .rdw k => packFields 0x05 0 k 0
  | .contains k v => packFields 0x10 0 k v
  | .find k v => packFields 0x11 0 k v
  | .findz k => packFields 0x12 0 k 0
  | .cnteq k v => packFields 0x13 0 k v
  | .min k count => packFields 0x14 count k 0
  | .max k count => packFields 0x15 count k 0
  | .gins v => packFields 0x20 0 0 v
  | .gera v => packFields 0x21 0 0 v
  | .gcon v => packFields 0x22 0 0 v
  | .gsize => packFields 0x23 0 0 0
  | .gcap => packFields 0x24 0 0 0
  | .glen => packFields 0x25 0 0 0
  | .bins v => packFields 0x30 0 0 v
  | .bera v => packFields 0x31 0 0 v
  | .bcon v => packFields 0x32 0 0 v
  | .bsize => packFields 0x33 0 0 0
  | .bcap => packFields 0x34 0 0 0
  | .brdw h k => packFields 0x35 h.select k 0

/-! ## The opcode map as a table -/

/-- The mnemonic of a command (30_encoding.md R60). -/
def Instr.mnemonic : Instr → String
  | .bcast _ _ => "BCAST"
  | .get _ _ => "GET"
  | .set _ _ _ => "SET"
  | .zmask _ => "ZMASK"
  | .rdw _ => "RDW"
  | .contains _ _ => "CONTAINS"
  | .find _ _ => "FIND"
  | .findz _ => "FINDZ"
  | .cnteq _ _ => "CNTEQ"
  | .min _ _ => "MIN"
  | .max _ _ => "MAX"
  | .gins _ => "GINS"
  | .gera _ => "GERA"
  | .gcon _ => "GCON"
  | .gsize => "GSIZE"
  | .gcap => "GCAP"
  | .glen => "GLEN"
  | .bins _ => "BINS"
  | .bera _ => "BERA"
  | .bcon _ => "BCON"
  | .bsize => "BSIZE"
  | .bcap => "BCAP"
  | .brdw _ _ => "BRDW"

/-- One row of the table of 30_encoding.md R60: a word `CW` is the command exactly when `CW & mask = pattern`. -/
structure OpcodeRow where
  mnemonic : String
  mask : Word
  pattern : Word
  deriving DecidableEq, Repr

/-- The columns "mnemonic", "mask" and "match" of 30_encoding.md R60. The decoder does not read this table; that the two agree
is a statement. -/
def opcodeTable : List OpcodeRow := [
  ⟨"BCAST", 0x000000000000FFFF#64, 0x0000000000000001#64⟩,
  ⟨"GET", 0xFFFFFFFF000000FF#64, 0x0000000000000002#64⟩,
  ⟨"SET", 0x00000000000000FF#64, 0x0000000000000003#64⟩,
  ⟨"ZMASK", 0xFFFFFFFF0000FFFF#64, 0x0000000000000004#64⟩,
  ⟨"RDW", 0xFFFFFFFF0000FFFF#64, 0x0000000000000005#64⟩,
  ⟨"CONTAINS", 0x000000000000FFFF#64, 0x0000000000000010#64⟩,
  ⟨"FIND", 0x000000000000FFFF#64, 0x0000000000000011#64⟩,
  ⟨"FINDZ", 0xFFFFFFFF0000FFFF#64, 0x0000000000000012#64⟩,
  ⟨"CNTEQ", 0x000000000000FFFF#64, 0x0000000000000013#64⟩,
  ⟨"MIN", 0xFFFFFFFF000000FF#64, 0x0000000000000014#64⟩,
  ⟨"MAX", 0xFFFFFFFF000000FF#64, 0x0000000000000015#64⟩,
  ⟨"GINS", 0x00000000FFFFFFFF#64, 0x0000000000000020#64⟩,
  ⟨"GERA", 0x00000000FFFFFFFF#64, 0x0000000000000021#64⟩,
  ⟨"GCON", 0x00000000FFFFFFFF#64, 0x0000000000000022#64⟩,
  ⟨"GSIZE", 0xFFFFFFFFFFFFFFFF#64, 0x0000000000000023#64⟩,
  ⟨"GCAP", 0xFFFFFFFFFFFFFFFF#64, 0x0000000000000024#64⟩,
  ⟨"GLEN", 0xFFFFFFFFFFFFFFFF#64, 0x0000000000000025#64⟩,
  ⟨"BINS", 0x00000000FFFFFFFF#64, 0x0000000000000030#64⟩,
  ⟨"BERA", 0x00000000FFFFFFFF#64, 0x0000000000000031#64⟩,
  ⟨"BCON", 0x00000000FFFFFFFF#64, 0x0000000000000032#64⟩,
  ⟨"BSIZE", 0xFFFFFFFFFFFFFFFF#64, 0x0000000000000033#64⟩,
  ⟨"BCAP", 0xFFFFFFFFFFFFFFFF#64, 0x0000000000000034#64⟩,
  ⟨"BRDW", 0xFFFFFFFF0000FEFF#64, 0x0000000000000035#64⟩]

end Sys2Proof
end

