-- ==== Sys2Proof/Config.lean ====
section
/-!
DEFINITION. The static parameters of an instance (00_scope.md R5, R7, R8; 92_eei_decisions.md D6 leaves them open). The
constants that follow from them are in Machine/Params.lean. There is no free value: 93_implementation_defined.md gives every
behaviour a defined treatment, and none of them is "any value".
-/

namespace Sys2Proof

/-- `GMODE` with the one parameter each mode takes (00_scope.md R7). -/
inductive Storage where
  /-- `FIXED`: the source's Fixed Set, of capacity `GC`. -/
  | fixed (gc : Nat)
  /-- `GROW`: the source's Growable Set, bounded by `RMAX` physical registers. -/
  | grow (rmax : Nat)
  deriving DecidableEq, Repr

/-- The parameters of one instance: the lane width `N` (R5), the storage mode of the generic set (R7), the capacity `BC`
of the bucketed set (R8). No command and no reset changes them. -/
structure Config where
  n : Nat
  storage : Storage
  bc : Nat
  deriving DecidableEq, Repr

/-- DESIGN CHOICE, unsafe (notes/assumptions/2.md): the instance `State.reset` describes. The spec fixes no instance; these are the
parameters of most fault vectors of 95_test_vectors.md section B6. No statement rests on them. -/
def Config.reference : Config := { n := 8, storage := .fixed 16, bc := 6 }

end Sys2Proof
end

