-- ==== Sys2Proof/Machine/Params.lean ====
section
/-!
DEFINITION. The constants that follow from the parameters (00_scope.md R5 to R8) and the bounds the parameters must keep.
-/

namespace Sys2Proof

/-- `ceil(a / b) = (a + b - 1) div b` (00_scope.md R9). -/
def ceilDiv (a b : Nat) : Nat := (a + b - 1) / b

/-- `L = 64 div N`, the lane count of a register (00_scope.md R6). -/
def Config.lanes (c : Config) : Nat := 64 / c.n

/-- `USED = L * N`, the number of low bits of a register that belong to lanes (00_scope.md R6). -/
def Config.used (c : Config) : Nat := c.lanes * c.n

/-- `LMASK = 2^N - 1`, the largest lane value (00_scope.md R6). -/
def Config.lmask (c : Config) : Nat := 2 ^ c.n - 1

/-- `MAXSAFE = 2^(N-1) - 1`, the largest value a search command takes (00_scope.md R6). -/
def Config.maxSafe (c : Config) : Nat := 2 ^ (c.n - 1) - 1

/-- `ONES`: a 1 at the lowest bit of every lane, the sum of `2^(i*N)` over `i < L` (00_scope.md R6). -/
def Config.ones (c : Config) : Word :=
  word (((List.range c.lanes).map fun i => 2 ^ (i * c.n)).sum)

/-- `HIGH = ONES << (N-1)`: the guard bit of every lane (00_scope.md R6). -/
def Config.high (c : Config) : Word := c.ones <<< (c.n - 1)

/-- `RMAX`, the number of registers: `ceil(GC / L)` in `FIXED` mode, the parameter itself in `GROW` mode (00_scope.md R7). -/
def Config.rmax (c : Config) : Nat :=
  match c.storage with
  | .fixed gc => ceilDiv gc c.lanes
  | .grow rmax => rmax

/-- `NB = ceil(BC / 3)`, the number of buckets of a half-array (00_scope.md R8). -/
def Config.nb (c : Config) : Nat := ceilDiv c.bc 3

/-- `GLEN` after reset: `RMAX` in `FIXED` mode, 0 in `GROW` mode (10_state.md R35). -/
def Config.resetGlen (c : Config) : Nat :=
  match c.storage with
  | .fixed _ => c.rmax
  | .grow _ => 0

/-- The bounds of 00_scope.md R7 on the storage parameter, given the lane count. -/
def Storage.ok (lanes : Nat) : Storage → Bool
  | .fixed gc => decide (1 ≤ gc) && decide (ceilDiv gc lanes ≤ 65536)
  | .grow rmax => decide (1 ≤ rmax) && decide (rmax ≤ 65536)

/-- The parameters are those of an instance: `1 <= N <= 32` (00_scope.md R5), the storage bounds (R7), `1 <= BC <= 196608` (R8). -/
def Config.ok (c : Config) : Bool :=
  decide (1 ≤ c.n) && decide (c.n ≤ 32) && c.storage.ok c.lanes && decide (1 ≤ c.bc) && decide (c.bc ≤ 196608)

/-! ## The bucket's constants, which take no parameter (00_scope.md R8) -/

/-- `B_LMASK = 0x7FF`: the 11 bits of one bucket lane. -/
def bLaneMask : Word := 0x7FF#64

/-- `B_ONES = 2^0 + 2^11 + 2^22`. -/
def bOnes : Word := 0x0000000000400801#64

/-- `B_HIGH = 2^10 + 2^21 + 2^32`: the guard bits of the three lanes. -/
def bHigh : Word := 0x0000000100200400#64

end Sys2Proof
end

