-- ==== Sys2Proof/Machine/State.lean ====
section
/-!
DEFINITION. The state of the unit (10_state.md R20 to R37), its reset value (R35, 70_reset_and_hazards.md R195), and the reasons a step can stop.
A fault of the SPEC is no stop of the model: it is a next state (Machine/Ops.lean, `State.raise`).
-/

namespace Sys2Proof.Machine

/-- One of the three word arrays `R`, `LO`, `HI` (20_memory.md R40): a list of (index, word) pairs, indexes strictly rising, no entry equal to
`unlistedWord` (Machine/Ops.lean, `Memory.wf`). The smallest addressable unit is the 64-bit word; there are no bytes (R41). notes/assumptions/6.md. -/
abbrev Memory := List (Nat × Word)

/-- What an index that is not listed reads as: 0, the reset contents of every register and bucket (10_state.md R35). -/
def unlistedWord : Word := 0#64

/-- What the host can do between two commands: present a command word (30_encoding.md R55) or assert reset (70_reset_and_hazards.md R195). -/
inductive HostEvent where
  | command (cw : Word)
  | reset
  deriving DecidableEq, Repr

/-- The response to a command (30_encoding.md R57): `ST`, 8 bits, and `RES`, 64 bits. -/
structure Response where
  st : BitVec 8
  res : Word
  deriving DecidableEq, Repr

/-- The unit's state (10_state.md R20), with three fields of the model's own: `cfg`, the instance's parameters, which no step writes
(notes/assumptions/1.md); `pending`, the inputs the host will present, first one first (notes/assumptions/3.md); `responses`, the responses given so far, oldest
first (notes/assumptions/4.md). -/
structure State where
  cfg : Config
  /-- `R[0..RMAX-1]` (10_state.md R21). -/
  r : Memory
  /-- `GLEN`, the number of registers in the generic set (R24). -/
  glen : BitVec 17
  /-- `GCNT`, the member count of the generic set (R25). -/
  gcnt : BitVec 32
  /-- `LO[0..NB-1]` (R26). -/
  lo : Memory
  /-- `HI[0..NB-1]` (R26). -/
  hi : Memory
  /-- `FLT`: a fault was taken and the unit is halted (R31). -/
  flt : Bool
  /-- `FCAUSE`, the cause code of the fault taken (R31). -/
  fcause : BitVec 8
  /-- `FCMD`, the command word that faulted (R31). -/
  fcmd : Word
  pending : List HostEvent
  responses : List Response
  deriving DecidableEq, Repr

/-- Why a run of the MODEL stops. None of the spec's nine faults is one: each has an entry the spec describes and is a next state. -/
inductive Fault where
  /-- Raised by `step`, and by no meaning, in a state whose parameters break the bounds of 00_scope.md R5, R7 or R8: that is no instance of
  the hardware. Safe: the model stops where the spec describes no machine (notes/assumptions/5.md). -/
  | noSuchUnit
  deriving DecidableEq, Repr

/-- Why the model gives an instruction no meaning. -/
inductive Refusal where
  /-- Raised by an arm of `exec` for an instruction that has no meaning yet; no arm does. Safe: the model stops. -/
  | notModelled (mnemonic : String)
  deriving DecidableEq, Repr

/-- The state right after reset of an instance with parameters `c`, before the host presents anything (10_state.md R35, 70_reset_and_hazards.md R195). -/
def State.resetWith (c : Config) : State where
  cfg := c
  r := []
  glen := BitVec.ofNat 17 c.resetGlen
  gcnt := 0#32
  lo := []
  hi := []
  flt := false
  fcause := 0#8
  fcmd := 0#64
  pending := []
  responses := []

/-- The machine right after reset: the reset state of the reference instance (DESIGN CHOICE of the parameters, notes/assumptions/2.md; every
reset value is the spec's, 10_state.md R35). -/
def State.reset : State := State.resetWith Config.reference

end Sys2Proof.Machine
end

