-- ==== Sys2Proof/Machine/Ops.lean ====
section
/-!
DEFINITION. The named operations over the word arrays and the state that every meaning shares: reading and writing a word, the ascending scan,
answering a command, taking a fault, the halted answer, reset, and the one order in which a command is checked (30_encoding.md R66).
-/

namespace Sys2Proof.Machine

/-! ## The word arrays (20_memory.md R40 to R44) -/

/-- The word at index `k`; an unlisted index reads the reset contents. -/
def Memory.read : Memory → Nat → Word
  | [], _ => unlistedWord
  | (a, w) :: rest, k => if a = k then w else Memory.read rest k

/-- The array without its entry for `k`. -/
def Memory.erase (m : Memory) (k : Nat) : Memory := m.filter fun cell => cell.1 != k

/-- The array with an entry for `k` put in order; `k` must not be listed yet. -/
def Memory.insert : Memory → Nat → Word → Memory
  | [], k, w => [(k, w)]
  | (a, x) :: rest, k, w => if k < a then (k, w) :: (a, x) :: rest else (a, x) :: Memory.insert rest k w

/-- Writing one whole word (20_memory.md R43). Writing what an unlisted index reads as removes the entry, so that equal arrays are equal data. -/
def Memory.write (m : Memory) (k : Nat) (w : Word) : Memory :=
  if w = unlistedWord then m.erase k else (m.erase k).insert k w

/-- The canonical form: indexes strictly rising, no entry equal to `unlistedWord`. -/
def Memory.wf : Memory → Bool
  | [] => true
  | (a, w) :: rest => (w != unlistedWord) && rest.all (fun cell => decide (a < cell.1)) && Memory.wf rest

/-- Every listed index is below `n`: the indexes `0..n-1` exist (20_memory.md R44). -/
def Memory.within (n : Nat) (m : Memory) : Bool := m.all fun cell => decide (cell.1 < n)

/-! ## The ascending scan -/

/-- `for k in 0..n-1 ascending` (00_scope.md R12), stopped at the first `k` with `p k`: the least such `k`, or `none`. -/
def scan (p : Nat → Bool) (n : Nat) : Option Nat := (List.range n).find? p

/-! ## Answering, faulting, reset -/

/-- The response `(ST, RES)` (30_encoding.md R57) goes to the host; nothing else changes. -/
def State.respond (s : State) (st : BitVec 8) (res : Word) : State :=
  { s with responses := s.responses ++ [⟨st, res⟩] }

/-- `return (0, RES)`: the command completed (30_encoding.md R57). -/
def State.complete (s : State) (res : Word) : State := s.respond 0x00#8 res

/-- The halted answer `(0xFF, 0)`; nothing else changes, `FCAUSE` and `FCMD` included (60_exceptions.md R183). -/
def State.respondHalted (s : State) : State := s.respond 0xFF#8 0#64

/-- The nine fault causes (60_exceptions.md R171). -/
inductive Cause where
  | illegalCommand
  | regIndexRange
  | bucketIndexRange
  | laneIndexRange
  | countRange
  | valueRange
  | searchValueRange
  | setValueRange
  | storageExhausted
  deriving DecidableEq, Repr

/-- The cause code (60_exceptions.md R171). -/
def Cause.code : Cause → BitVec 8
  | .illegalCommand => 1#8
  | .regIndexRange => 2#8
  | .bucketIndexRange => 3#8
  | .laneIndexRange => 4#8
  | .countRange => 5#8
  | .valueRange => 6#8
  | .searchValueRange => 7#8
  | .setValueRange => 8#8
  | .storageExhausted => 9#8

/-- Fault entry (60_exceptions.md R181): `FLT <- 1`, `FCAUSE <- c`, `FCMD <- CW`, the response is `(c, 0)`, and nothing else changes. -/
def State.raise (s : State) (c : Cause) (cw : Word) : State :=
  State.respond { s with flt := true, fcause := c.code, fcmd := cw } c.code 0#64

/-- Reset (70_reset_and_hazards.md R195), the only way out of the halted state (60_exceptions.md R184): every piece of state at its reset
value. The parameters are not touched, and neither are the host's own lists. -/
def State.applyReset (s : State) : State :=
  { State.resetWith s.cfg with pending := s.pending, responses := s.responses }

/-- The three status outputs, driven continuously with `FLT`, `FCAUSE`, `FCMD` (30_encoding.md R57). -/
def State.statusOutputs (s : State) : Bool × BitVec 8 × Word := (s.flt, s.fcause, s.fcmd)

/-! ## Registers and buckets by name -/

/-- `R[k]`. -/
def State.reg (s : State) (k : Nat) : Word := s.r.read k

/-- `R[k] <- w`. -/
def State.setReg (s : State) (k : Nat) (w : Word) : State := { s with r := s.r.write k w }

/-- `LO[k]` or `HI[k]`. -/
def State.bucket (s : State) (h : Half) (k : Nat) : Word :=
  match h with
  | .lo => s.lo.read k
  | .hi => s.hi.read k

/-- `LO[k] <- b` or `HI[k] <- b`. -/
def State.setBucket (s : State) (h : Half) (k : Nat) (b : Word) : State :=
  match h with
  | .lo => { s with lo := s.lo.write k b }
  | .hi => { s with hi := s.hi.write k b }

/-! ## The check order -/

/-- One check of a command: the condition that must hold and the fault raised when it does not. -/
structure Check where
  holds : Bool
  cause : Cause
  deriving DecidableEq, Repr

/-- The fault of the first check that fails: the unit stops at the first step that applies (30_encoding.md R66, 60_exceptions.md R178). -/
def firstFault : List Check → Option Cause
  | [] => none
  | c :: rest => if c.holds then firstFault rest else some c.cause

/-- A decoded command with word `cw` in state `s` (30_encoding.md R66): the halt test, then the command's checks in order, then `run`, the state that
executing it leaves. A fault is taken before any state changes (60_exceptions.md R170). -/
def command (s : State) (cw : Word) (checks : List Check) (run : State) : Host.Outcome State Fault Refusal :=
  .next <|
    if s.flt then s.respondHalted
    else
      match firstFault checks with
      | some c => s.raise c cw
      | none => run

/-- A word that is no command (30_encoding.md R66 steps 1 and 2): the halt test, then `IllegalCommand` (60_exceptions.md R172). -/
def rejectWord (s : State) (cw : Word) : Host.Outcome State Fault Refusal :=
  command s cw [⟨false, .illegalCommand⟩] s

end Sys2Proof.Machine
end

