-- ==== Sys2Proof/Machine/Operands.lean ====
section
/-!
DEFINITION. The operand ranges (30_encoding.md R59, R66 steps 3 to 5; 60_exceptions.md R171 to R175) and the pure functions of words: bit counting and bit search
(00_scope.md R9), the packed register's (R10, 41_search.md R100) and the bucket's (R11, 43_bucketed_set.md R146, R147).
-/

namespace Sys2Proof.Machine

/-! ## Operand checks -/

/-- `k < RMAX`, else `RegIndexRange` (60_exceptions.md R173). -/
def checkReg (c : Config) (k : Nat) : Check := ⟨decide (k < c.rmax), .regIndexRange⟩

/-- `k < NB`, else `BucketIndexRange` (60_exceptions.md R173). -/
def checkBucket (c : Config) (k : Nat) : Check := ⟨decide (k < c.nb), .bucketIndexRange⟩

/-- `i < L`, else `LaneIndexRange` (60_exceptions.md R174). -/
def checkLane (c : Config) (i : Nat) : Check := ⟨decide (i < c.lanes), .laneIndexRange⟩

/-- `1 <= count <= L`, else `CountRange` (60_exceptions.md R174). -/
def checkCount (c : Config) (count : Nat) : Check := ⟨decide (1 ≤ count) && decide (count ≤ c.lanes), .countRange⟩

/-- Storage commands take `v <= LMASK`, else `ValueRange` (60_exceptions.md R175). -/
def checkValue (c : Config) (v : Nat) : Check := ⟨decide (v ≤ c.lmask), .valueRange⟩

/-- Search commands take `v <= MAXSAFE`, else `SearchValueRange` (41_search.md R109). -/
def checkSearchValue (c : Config) (v : Nat) : Check := ⟨decide (v ≤ c.maxSafe), .searchValueRange⟩

/-- Generic set commands take `1 <= v <= MAXSAFE`, else `SetValueRange` (42_generic_set.md R120). -/
def checkSetValue (c : Config) (v : Nat) : Check := ⟨decide (1 ≤ v) && decide (v ≤ c.maxSafe), .setValueRange⟩

/-- Bucketed set commands take `1 <= v <= 2047`, else `SetValueRange` (43_bucketed_set.md R145). -/
def checkBucketValue (v : Nat) : Check := ⟨decide (1 ≤ v) && decide (v ≤ 2047), .setValueRange⟩

/-! ## Bits of a word (00_scope.md R9) -/

/-- `popcount(w)`, the number of 1 bits. -/
def popcount (w : Word) : Nat := (List.range 64).countP fun b => w.getLsbD b

/-- `ctz(w)`, the index of the lowest 1 bit; `none` for the word 0, for which the spec does not use it. -/
def ctz (w : Word) : Option Nat := scan (fun b => w.getLsbD b) 64

/-! ## The packed register (00_scope.md R10) -/

/-- `lane(w, i) = (w >> (i*N)) & LMASK`. -/
def lane (c : Config) (w : Word) (i : Nat) : Word := (w >>> (i * c.n)) &&& word c.lmask

/-- `setlane(w, i, v) = (w & ~(LMASK << (i*N))) | (v << (i*N))`. -/
def setLane (c : Config) (w : Word) (i : Nat) (v : Word) : Word :=
  (w &&& ~~~(word c.lmask <<< (i * c.n))) ||| (v <<< (i * c.n))

/-- `bcast(v) = (v * ONES) mod 2^64`. -/
def bcast (c : Config) (v : Word) : Word := v * c.ones

/-- `zm(w) = (w - ONES) & ~w & HIGH`, the zero-lanes mask; it is not lane-exact (90_conflicts.md C1). -/
def zeroMask (c : Config) (w : Word) : Word := (w - c.ones) &&& ~~~w &&& c.high

/-- `mm(w, v) = zm(w ^ bcast(v))`, the match mask (41_search.md R100). -/
def matchMask (c : Config) (w v : Word) : Word := zeroMask c (w ^^^ bcast c v)

/-- `ctz(m) div N` of a mask `m`, the lane of its lowest flag; `none` when `m = 0`. -/
def flaggedLane (c : Config) (m : Word) : Option Nat := (ctz m).map (· / c.n)

/-- The minimum of `f 0, …, f m`. -/
def minUpTo (f : Nat → Nat) : Nat → Nat
  | 0 => f 0
  | m + 1 => Nat.min (minUpTo f m) (f (m + 1))

/-- The maximum of `f 0, …, f m`. -/
def maxUpTo (f : Nat → Nat) : Nat → Nat
  | 0 => f 0
  | m + 1 => Nat.max (maxUpTo f m) (f (m + 1))

/-! ## The bucket (00_scope.md R11) -/

/-- `bcount(b) = b[34:33]`. -/
def bcount (b : Word) : Nat := (b.extractLsb' 33 2).toNat

/-- `blane(b, i) = (b >> (11*i)) & 0x7FF`. -/
def blane (b : Word) (i : Nat) : Word := (b >>> (11 * i)) &&& bLaneMask

/-- `bsetlane(b, i, v) = (b & ~(0x7FF << (11*i))) | (v << (11*i))`. -/
def bsetLane (b : Word) (i : Nat) (v : Word) : Word := (b &&& ~~~(bLaneMask <<< (11 * i))) ||| (v <<< (11 * i))

/-- `bsetcount(b, c) = (b & ~(3 << 33)) | (c << 33)`. -/
def bsetCount (b : Word) (c : Nat) : Word := (b &&& ~~~(3#64 <<< 33)) ||| (word c <<< 33)

/-- `CM(c)`: the guard bits of the first `c` lanes (00_scope.md R11; two of them for `c = 2`, 90_conflicts.md C3). -/
def countMask : Nat → Word
  | 0 => 0x0000000000000000#64
  | 1 => 0x0000000000000400#64
  | 2 => 0x0000000000200400#64
  | _ => bHigh

/-- `bmask(b, r) = (x - B_ONES) & ~x & CM(bcount(b))` where `x = b ^ (r * B_ONES)` (43_bucketed_set.md R147). -/
def bmask (b r : Word) : Word :=
  let x := b ^^^ (r * bOnes)
  (x - bOnes) &&& ~~~x &&& countMask (bcount b)

/-- `bmatch(b, r)`: the lane of the lowest flag of `bmask(b, r)`, `none` for `NONE` (43_bucketed_set.md R147). -/
def bmatch (b r : Word) : Option Nat := (ctz (bmask b r)).map (· / 11)

/-- `half(v)`: `HI` if `v[10] = 1`, else `LO` (43_bucketed_set.md R146). -/
def half (v : Nat) : Half := if v.testBit 10 then .hi else .lo

/-- `rem(v) = v[9:0]` (43_bucketed_set.md R146). -/
def rem (v : Nat) : Word := word (v % 1024)

end Sys2Proof.Machine
end

