-- ==== Sys2Proof/Machine/Flags.lean ====
section
/-!
DEFINITION. The unit has no condition codes and no flags (10_state.md R30): every outcome is in the response word. This file holds that encoding
of outcomes in `RES` (30_encoding.md R65), which stands where a flag computation would.
-/

namespace Sys2Proof.Machine

/-- The result of a command that has none (30_encoding.md R65). -/
def resNone : Word := 0#64

/-- A boolean: 1 for true, 0 for false (30_encoding.md R65). -/
def resBool (b : Bool) : Word := if b then 1#64 else 0#64

/-- `NOTFOUND = 0xFFFFFFFFFFFFFFFF` (30_encoding.md R65). -/
def notFound : Word := 0xFFFFFFFFFFFFFFFF#64

/-- A lane index zero-extended, or `NOTFOUND` (30_encoding.md R65). -/
def resIndex : Option Nat → Word
  | some i => word i
  | none => notFound

/-- The insert result "inserted" (30_encoding.md R65). -/
def resInserted : Word := 1#64

/-- The insert result "not inserted because the value is already present" (30_encoding.md R65). -/
def resDuplicate : Word := 2#64

/-- The insert result "not inserted because the container is full" (30_encoding.md R65). -/
def resFull : Word := 4#64

end Sys2Proof.Machine
end

