-- ==== Sys2Proof/Machine/BucketedSet.lean ====
section
/-!
DEFINITION. The bucketed set BINS, BERA, BCON, BSIZE, BCAP, BRDW over `LO` and `HI` (43_bucketed_set.md R145 to R153).
-/

namespace Sys2Proof.Machine

/-- The first bucket of half `h`, in ascending order, with a match for the remainder `r` (the scans of 43_bucketed_set.md R148 phase 1, R149, R150). -/
def holdingBucket (s : State) (h : Half) (r : Word) : Option Nat :=
  scan (fun k => (bmatch (s.bucket h k) r).isSome) s.cfg.nb

/-- The bucket and the lane of the first match (43_bucketed_set.md R149). -/
def matchSite (s : State) (h : Half) (r : Word) : Option (Nat × Nat) :=
  (holdingBucket s h r).bind fun k => (bmatch (s.bucket h k) r).map fun i => (k, i)

/-- The first bucket of half `h`, in ascending order, with count below 3 (43_bucketed_set.md R148 phase 2). -/
def roomyBucket (s : State) (h : Half) : Option Nat :=
  scan (fun k => decide (bcount (s.bucket h k) < 3)) s.cfg.nb

/-- A bucket with remainder `r` added: lane `count` written, the count raised (43_bucketed_set.md R148). -/
def bucketAdd (b r : Word) : Word := bsetCount (bsetLane b (bcount b) r) (bcount b + 1)

/-- A bucket with the value of lane `i` removed by swap-compaction: the last occupied lane moves into lane `i`, its own lane becomes 0, the count
drops (43_bucketed_set.md R149). -/
def bucketRemove (b : Word) (i : Nat) : Word :=
  let last := bcount b - 1
  bsetCount (bsetLane (bsetLane b i (blane b last)) last 0#64) last

/-- `BINS v` (43_bucketed_set.md R148); "full" means the selected half is full, and is no test against `BC` (R156). -/
def execBins (v : Nat) (s : State) : Host.Outcome State Fault Refusal :=
  command s (encode (.bins v)) [checkBucketValue v] <|
    match holdingBucket s (half v) (rem v) with
    | some _ => s.complete resDuplicate
    | none =>
      match roomyBucket s (half v) with
      | none => s.complete resFull
      | some k => (s.setBucket (half v) k (bucketAdd (s.bucket (half v) k) (rem v))).complete resInserted

/-- `BERA v`: the first match in bucket order is removed (43_bucketed_set.md R149). -/
def execBera (v : Nat) (s : State) : Host.Outcome State Fault Refusal :=
  command s (encode (.bera v)) [checkBucketValue v] <|
    match matchSite s (half v) (rem v) with
    | none => s.complete (resBool false)
    | some (k, i) => (s.setBucket (half v) k (bucketRemove (s.bucket (half v) k) i)).complete (resBool true)

/-- `BCON v` (43_bucketed_set.md R150). -/
def execBcon (v : Nat) (s : State) : Host.Outcome State Fault Refusal :=
  command s (encode (.bcon v)) [checkBucketValue v]
    (s.complete (resBool (holdingBucket s (half v) (rem v)).isSome))

/-- The sum of all count fields of both halves (43_bucketed_set.md R151). -/
def bucketTotal (s : State) : Nat :=
  ((List.range s.cfg.nb).map fun k => bcount (s.bucket .lo k) + bcount (s.bucket .hi k)).sum

/-- `BSIZE` (43_bucketed_set.md R151). -/
def execBsize (s : State) : Host.Outcome State Fault Refusal :=
  command s (encode .bsize) [] (s.complete (word (bucketTotal s)))

/-- `BCAP`: the declared capacity `BC` (43_bucketed_set.md R152). -/
def execBcap (s : State) : Host.Outcome State Fault Refusal :=
  command s (encode .bcap) [] (s.complete (word s.cfg.bc))

/-- `BRDW lo|hi, k`: the raw bucket (43_bucketed_set.md R153). -/
def execBrdw (h : Half) (k : Nat) (s : State) : Host.Outcome State Fault Refusal :=
  command s (encode (.brdw h k)) [checkBucket s.cfg k] (s.complete (s.bucket h k))

end Sys2Proof.Machine
end

