-- ==== Sys2Proof/Machine/GenericSet.lean ====
section
/-!
DEFINITION. The generic set sequencer GINS, GERA, GCON, GSIZE, GCAP, GLEN over `R[0..GLEN-1]` (42_generic_set.md R120 to R131).
-/

namespace Sys2Proof.Machine

/-- `usable(k, i)`: every lane in `GROW` mode, the lanes with global index below `GC` in `FIXED` mode (42_generic_set.md R121). -/
def usable (c : Config) (k i : Nat) : Bool :=
  match c.storage with
  | .fixed gc => decide (k * c.lanes + i < gc)
  | .grow _ => true

/-- The first register of the set, in ascending order, whose match mask for `v` is non-zero (the scans of 42_generic_set.md R122 phase 1, R123 and R124). -/
def holdingReg (s : State) (v : Word) : Option Nat :=
  scan (fun k => matchMask s.cfg (s.reg k) v != 0#64) s.glen.toNat

/-- The lowest empty lane of `R[k]`, if there is one and it is usable (42_generic_set.md R122 phase 2: only the lowest empty lane is tested). -/
def freeLaneOf (s : State) (k : Nat) : Option Nat :=
  (flaggedLane s.cfg (zeroMask s.cfg (s.reg k))).filter fun z => usable s.cfg k z

/-- Where phase 2 of `GINS` places a value (42_generic_set.md R122): the first register of the set, in ascending order, that has a free usable lane, and that lane. -/
def insertSite (s : State) : Option (Nat × Nat) :=
  (scan (fun k => (freeLaneOf s k).isSome) s.glen.toNat).bind fun k => (freeLaneOf s k).map fun z => (k, z)

/-- Growth (42_generic_set.md R131): the appended register is written whole with `v` in lane 0, or `StorageExhausted` when all `RMAX` registers
are in the set. -/
def appendReg (s : State) (cw v : Word) : State :=
  if s.glen.toNat = s.cfg.rmax then s.raise .storageExhausted cw
  else
    { (s.setReg s.glen.toNat (setLane s.cfg 0#64 0 v)) with
      glen := s.glen + 1#17
      gcnt := s.gcnt + 1#32 }.complete resInserted

/-- Phase 3 of `GINS`, no free usable lane: full in `FIXED` mode, growth in `GROW` mode (42_generic_set.md R122). -/
def insertOverflow (s : State) (cw v : Word) : State :=
  match s.cfg.storage with
  | .fixed _ => s.complete resFull
  | .grow _ => appendReg s cw v

/-- Phases 2 and 3 of `GINS`: the value goes to the first free usable lane, or phase 3 applies (42_generic_set.md R122). -/
def insertNew (s : State) (cw v : Word) : State :=
  match insertSite s with
  | none => insertOverflow s cw v
  | some (k, z) =>
    { (s.setReg k (setLane s.cfg (s.reg k) z v)) with gcnt := s.gcnt + 1#32 }.complete resInserted

/-- `GINS v`: the duplicate scan over every register of the set, then the insertion (42_generic_set.md R122, R131). -/
def execGins (v : Nat) (s : State) : Host.Outcome State Fault Refusal :=
  command s (encode (.gins v)) [checkSetValue s.cfg v] <|
    match holdingReg s (word v) with
    | some _ => s.complete resDuplicate
    | none => insertNew s (encode (.gins v)) (word v)

/-- Which lane `GERA` clears (42_generic_set.md R123): in the first register of the set that matches, the lowest matching lane. -/
def eraseSite (s : State) (v : Word) : Option (Nat × Nat) :=
  (holdingReg s v).bind fun k => (flaggedLane s.cfg (matchMask s.cfg (s.reg k) v)).map fun f => (k, f)

/-- `GERA v`: the first match in scan order is cleared and the count drops by 1 modulo 2^32; nothing moves (42_generic_set.md R123, R130). -/
def execGera (v : Nat) (s : State) : Host.Outcome State Fault Refusal :=
  command s (encode (.gera v)) [checkSetValue s.cfg v] <|
    match eraseSite s (word v) with
    | none => s.complete (resBool false)
    | some (k, f) =>
      { (s.setReg k (setLane s.cfg (s.reg k) f 0#64)) with gcnt := s.gcnt - 1#32 }.complete (resBool true)

/-- `GCON v`: does some register of the set match (42_generic_set.md R124). -/
def execGcon (v : Nat) (s : State) : Host.Outcome State Fault Refusal :=
  command s (encode (.gcon v)) [checkSetValue s.cfg v]
    (s.complete (resBool (holdingReg s (word v)).isSome))

/-- `GSIZE`: `GCNT`, zero-extended (42_generic_set.md R125). -/
def execGsize (s : State) : Host.Outcome State Fault Refusal :=
  command s (encode .gsize) [] (s.complete (s.gcnt.setWidth 64))

/-- The capacity of the generic set: `GC` in `FIXED` mode, `GLEN * L` in `GROW` mode (42_generic_set.md R126). -/
def setCapacity (s : State) : Nat :=
  match s.cfg.storage with
  | .fixed gc => gc
  | .grow _ => s.glen.toNat * s.cfg.lanes

/-- `GCAP` (42_generic_set.md R126). -/
def execGcap (s : State) : Host.Outcome State Fault Refusal :=
  command s (encode .gcap) [] (s.complete (word (setCapacity s)))

/-- `GLEN`: the register count, zero-extended (42_generic_set.md R127). -/
def execGlen (s : State) : Host.Outcome State Fault Refusal :=
  command s (encode .glen) [] (s.complete (s.glen.setWidth 64))

end Sys2Proof.Machine
end

