-- ==== Sys2Proof/Machine/Lane.lean ====
section
/-!
DEFINITION. The lane storage commands BCAST, GET, SET, ZMASK, RDW (40_lane_primitive.md R80 to R84). None writes a flag (10_state.md R30).
-/

namespace Sys2Proof.Machine

/-- `BCAST r<k>, v`: every lane of `R[k]` becomes `v`, the bits above the lanes 0 (40_lane_primitive.md R80). -/
def execBcast (k v : Nat) (s : State) : Host.Outcome State Fault Refusal :=
  command s (encode (.bcast k v)) [checkReg s.cfg k, checkValue s.cfg v]
    ((s.setReg k (bcast s.cfg (word v))).complete resNone)

/-- `GET r<k>, i`: lane `i` of `R[k]`, zero-extended (40_lane_primitive.md R81). -/
def execGet (k i : Nat) (s : State) : Host.Outcome State Fault Refusal :=
  command s (encode (.get k i)) [checkReg s.cfg k, checkLane s.cfg i]
    (s.complete (lane s.cfg (s.reg k) i))

/-- `SET r<k>, i, v`: lane `i` of `R[k]` becomes `v`, every other bit stays (40_lane_primitive.md R82). -/
def execSet (k i v : Nat) (s : State) : Host.Outcome State Fault Refusal :=
  command s (encode (.set k i v)) [checkReg s.cfg k, checkLane s.cfg i, checkValue s.cfg v]
    ((s.setReg k (setLane s.cfg (s.reg k) i (word v))).complete resNone)

/-- `ZMASK r<k>`: the zero-lanes mask of `R[k]`, as the formula gives it (40_lane_primitive.md R83). -/
def execZmask (k : Nat) (s : State) : Host.Outcome State Fault Refusal :=
  command s (encode (.zmask k)) [checkReg s.cfg k] (s.complete (zeroMask s.cfg (s.reg k)))

/-- `RDW r<k>`: the raw word `R[k]` (40_lane_primitive.md R84). -/
def execRdw (k : Nat) (s : State) : Host.Outcome State Fault Refusal :=
  command s (encode (.rdw k)) [checkReg s.cfg k] (s.complete (s.reg k))

end Sys2Proof.Machine
end

