-- ==== Sys2Proof/Machine/Search.lean ====
section
/-!
DEFINITION. The search commands CONTAINS, FIND, FINDZ, CNTEQ, MIN, MAX (41_search.md R101 to R106). None changes the register it reads.
-/

namespace Sys2Proof.Machine

/-- `CONTAINS r<k>, v`: is the match mask non-zero (41_search.md R101). -/
def execContains (k v : Nat) (s : State) : Host.Outcome State Fault Refusal :=
  command s (encode (.contains k v)) [checkReg s.cfg k, checkSearchValue s.cfg v]
    (s.complete (resBool (matchMask s.cfg (s.reg k) (word v) != 0#64)))

/-- `FIND r<k>, v`: the lane of the lowest flag of the match mask, or `NOTFOUND` (41_search.md R102). -/
def execFind (k v : Nat) (s : State) : Host.Outcome State Fault Refusal :=
  command s (encode (.find k v)) [checkReg s.cfg k, checkSearchValue s.cfg v]
    (s.complete (resIndex (flaggedLane s.cfg (matchMask s.cfg (s.reg k) (word v)))))

/-- `FINDZ r<k>`: the lane of the lowest flag of the zero-lanes mask, or `NOTFOUND` (41_search.md R103). -/
def execFindz (k : Nat) (s : State) : Host.Outcome State Fault Refusal :=
  command s (encode (.findz k)) [checkReg s.cfg k]
    (s.complete (resIndex (flaggedLane s.cfg (zeroMask s.cfg (s.reg k)))))

/-- `CNTEQ r<k>, v`: how many flags the match mask has, extra flags included (41_search.md R104, 90_conflicts.md C2). -/
def execCnteq (k v : Nat) (s : State) : Host.Outcome State Fault Refusal :=
  command s (encode (.cnteq k v)) [checkReg s.cfg k, checkSearchValue s.cfg v]
    (s.complete (word (popcount (matchMask s.cfg (s.reg k) (word v)))))

/-- `MIN r<k>, count`: the least of the first `count` lane values, guard bits and empty lanes included (41_search.md R105). The count is
at least 1 when this runs, so lanes `0..count-1` are lanes up to `count - 1`. -/
def execMin (k count : Nat) (s : State) : Host.Outcome State Fault Refusal :=
  command s (encode (.min k count)) [checkReg s.cfg k, checkCount s.cfg count]
    (s.complete (word (minUpTo (fun i => (lane s.cfg (s.reg k) i).toNat) (count - 1))))

/-- `MAX r<k>, count`: the greatest of the first `count` lane values (41_search.md R106). -/
def execMax (k count : Nat) (s : State) : Host.Outcome State Fault Refusal :=
  command s (encode (.max k count)) [checkReg s.cfg k, checkCount s.cfg count]
    (s.complete (word (maxUpTo (fun i => (lane s.cfg (s.reg k) i).toNat) (count - 1))))

end Sys2Proof.Machine
end

