-- ==== Sys2Proof/Machine/Dispatch.lean ====
section
/-!
DEFINITION. The meaning of every command, one arm per constructor of `Instr` (30_encoding.md R60).
-/

namespace Sys2Proof.Machine

def exec (i : Instr) (s : State) : Host.Outcome State Fault Refusal :=
  match i with
  | .bcast k v => Sys2Proof.Machine.execBcast k v s
  | .get k ln => Sys2Proof.Machine.execGet k ln s
  | .set k ln v => Sys2Proof.Machine.execSet k ln v s
  | .zmask k => Sys2Proof.Machine.execZmask k s
  | .rdw k => Sys2Proof.Machine.execRdw k s
  | .contains k v => Sys2Proof.Machine.execContains k v s
  | .find k v => Sys2Proof.Machine.execFind k v s
  | .findz k => Sys2Proof.Machine.execFindz k s
  | .cnteq k v => Sys2Proof.Machine.execCnteq k v s
  | .min k count => Sys2Proof.Machine.execMin k count s
  | .max k count => Sys2Proof.Machine.execMax k count s
  | .gins v => Sys2Proof.Machine.execGins v s
  | .gera v => Sys2Proof.Machine.execGera v s
  | .gcon v => Sys2Proof.Machine.execGcon v s
  | .gsize => Sys2Proof.Machine.execGsize s
  | .gcap => Sys2Proof.Machine.execGcap s
  | .glen => Sys2Proof.Machine.execGlen s
  | .bins v => Sys2Proof.Machine.execBins v s
  | .bera v => Sys2Proof.Machine.execBera v s
  | .bcon v => Sys2Proof.Machine.execBcon v s
  | .bsize => Sys2Proof.Machine.execBsize s
  | .bcap => Sys2Proof.Machine.execBcap s
  | .brdw h k => Sys2Proof.Machine.execBrdw h k s

end Sys2Proof.Machine
end

