-- ==== Sys2Proof/Machine/Port.lean ====
section
/-!
DEFINITION. The host's side of the command port (30_encoding.md R55, R57; 70_reset_and_hazards.md R200): presenting command words and asserting reset.
-/

namespace Sys2Proof.Machine

/-- The host presents the command word `cw` next. -/
def State.present (s : State) (cw : Word) : State := { s with pending := .command cw :: s.pending }

/-- The host asserts reset next. -/
def State.assertReset (s : State) : State := { s with pending := .reset :: s.pending }

/-- The start of a run (70_reset_and_hazards.md R206): the reset state of an instance whose host will present the given commands in order. -/
def startOf (c : Config) (program : List Word) : State :=
  { State.resetWith c with pending := program.map .command }

end Sys2Proof.Machine
end

