-- ==== Sys2Proof/Machine/Step.lean ====
section
/-!
DEFINITION. One step: the unit takes the first input the host has pending (00_scope.md R13, 70_reset_and_hazards.md R200). notes/assumptions/3.md says how a program
comes to run from reset.
-/

namespace Sys2Proof.Machine

/-- One step of the unit. A command word is taken whole and answered (20_memory.md R43, 30_encoding.md R66); a reset assertion puts the state at its reset
values (70_reset_and_hazards.md R195); with nothing pending the unit is idle and keeps all state (60_exceptions.md R188). -/
def step (s : State) : Host.Outcome State Fault Refusal :=
  if s.cfg.ok then
    match s.pending with
    | [] => .next s
    | .reset :: rest => .next { s with pending := rest }.applyReset
    | .command cw :: rest =>
      match decode cw with
      | .ok i => exec i { s with pending := rest }
      | .error _ => rejectWord { s with pending := rest } cw
  else .fault .noSuchUnit

/-- `s` with the command word made of the low `nbits` bits of `w` presented by the host as the next input, so that the very next step runs exactly it. -/
def State.withFetchWord (s : State) (nbits w : Nat) : State := s.present (word (w % 2 ^ nbits))

end Sys2Proof.Machine
end

