-- ==== Sys2Proof/Machine/Assembler.lean ====
section
/-!
DEFINITION. The assembler's view of a command: its text (30_encoding.md R63) and the two pseudo-instructions, `MIN` and `MAX` with the count
omitted (R64). Values are printed in decimal, one of the two forms R63 allows (notes/assumptions/11.md).
-/

namespace Sys2Proof

/-- A line of assembly: a command, or one of the two pseudo-instructions (30_encoding.md R63, R64). -/
inductive AsmLine where
  | command (i : Instr)
  /-- `MIN r<k>`. -/
  | minAll (k : Nat)
  /-- `MAX r<k>`. -/
  | maxAll (k : Nat)
  deriving DecidableEq, Repr

/-- The command a line stands for: an omitted count is `L` (30_encoding.md R64). -/
def assembleLine (c : Config) : AsmLine → Instr
  | .command i => i
  | .minAll k => .min k c.lanes
  | .maxAll k => .max k c.lanes

/-- The command words of a program (30_encoding.md R63). -/
def assemble (c : Config) (lines : List AsmLine) : List Word := lines.map fun l => encode (assembleLine c l)

/-- `r<k>`. -/
def regText (k : Nat) : String := "r" ++ toString k

/-- `lo` or `hi`. -/
def Half.text : Half → String
  | .lo => "lo"
  | .hi => "hi"

/-- The operands of a command, in the order register, lane, value (30_encoding.md R63). -/
def Instr.operandTexts : Instr → List String
  | .bcast k v => [regText k, toString v]
  | .get k i => [regText k, toString i]
  | .set k i v => [regText k, toString i, toString v]
  | .zmask k => [regText k]
  | .rdw k => [regText k]
  | .contains k v => [regText k, toString v]
  | .find k v => [regText k, toString v]
  | .findz k => [regText k]
  | .cnteq k v => [regText k, toString v]
  | .min k count => [regText k, toString count]
  | .max k count => [regText k, toString count]
  | .gins v => [toString v]
  | .gera v => [toString v]
  | .gcon v => [toString v]
  | .gsize => []
  | .gcap => []
  | .glen => []
  | .bins v => [toString v]
  | .bera v => [toString v]
  | .bcon v => [toString v]
  | .bsize => []
  | .bcap => []
  | .brdw h k => [h.text, toString k]

/-- A mnemonic followed by its operands separated by commas (30_encoding.md R63). -/
def lineText (mnemonic : String) (operands : List String) : String :=
  match operands with
  | [] => mnemonic
  | _ => mnemonic ++ " " ++ String.intercalate ", " operands

/-- The text of a line (30_encoding.md R63, R64). -/
def AsmLine.text : AsmLine → String
  | .command i => lineText i.mnemonic i.operandTexts
  | .minAll k => lineText "MIN" [regText k]
  | .maxAll k => lineText "MAX" [regText k]

end Sys2Proof
end

