-- ==== Sys2Proof/Machine/Invariants.lean ====
section
/-!
DEFINITION. The predicates the spec states over the state (10_state.md R23, R24, R31 to R33) and the notions its laws use: membership (42_generic_set.md R120,
43_bucketed_set.md R146), member counts, the borrow sequence (40_lane_primitive.md R87). The machine does not read them.
-/

namespace Sys2Proof.Machine

/-! ## The machine as a whole -/

/-- The three arrays are in canonical form and list only indexes that exist (20_memory.md R44). -/
def State.arraysOk (s : State) : Prop :=
  (s.r.wf = true ∧ s.r.within s.cfg.rmax = true) ∧ (s.lo.wf = true ∧ s.lo.within s.cfg.nb = true) ∧
    (s.hi.wf = true ∧ s.hi.within s.cfg.nb = true)

/-- `0 <= GLEN <= RMAX`, and `GLEN = RMAX` in `FIXED` mode (10_state.md R24). -/
def State.glenOk (s : State) : Prop :=
  s.glen.toNat ≤ s.cfg.rmax ∧ ∀ gc, s.cfg.storage = .fixed gc → s.glen.toNat = s.cfg.rmax

/-- The fault status has its legal values (10_state.md R31): cause and command are 0 while no fault was taken, a cause of a fault taken is in 1..9. -/
def State.faultStatusOk (s : State) : Prop :=
  (s.flt = false → s.fcause = 0#8 ∧ s.fcmd = 0#64) ∧ (s.flt = true → 1 ≤ s.fcause.toNat ∧ s.fcause.toNat ≤ 9)

/-- Bits `USED..63` of every register are 0 (10_state.md R23). -/
def State.unusedBitsOk (s : State) : Prop := ∀ k, s.reg k >>> s.cfg.used = 0#64

/-- The invariants every step keeps, whatever the commands. -/
def State.machineOk (s : State) : Prop :=
  s.cfg.ok = true ∧ s.arraysOk ∧ s.glenOk ∧ s.faultStatusOk ∧ s.unusedBitsOk

/-! ## The generic set (10_state.md R32) -/

/-- `lane(R[k], i)`. -/
def State.laneAt (s : State) (k i : Nat) : Word := lane s.cfg (s.reg k) i

/-- Position `(k, i)` is a lane of the set: `k < GLEN`, `i < L`. -/
def State.setPos (s : State) (k i : Nat) : Prop := k < s.glen.toNat ∧ i < s.cfg.lanes

/-- Some lane of the set holds `v` (42_generic_set.md R120; `v` is a member when it is not 0). -/
def State.holds (s : State) (v : Nat) : Prop := ∃ k i, s.setPos k i ∧ s.laneAt k i = word v

/-- The number of non-zero lanes of `R[0..GLEN-1]` (10_state.md R32, `GI5`). -/
def State.memberLanes (s : State) : Nat :=
  ((List.range s.glen.toNat).map fun k => (List.range s.cfg.lanes).countP fun i => s.laneAt k i != 0#64).sum

/-- `GI1`: no two positions hold the same non-zero value. -/
def State.gi1 (s : State) : Prop :=
  ∀ k i k' i', s.setPos k i → s.setPos k' i' → s.laneAt k i = s.laneAt k' i' → s.laneAt k i ≠ 0#64 → k = k' ∧ i = i'

/-- `GI2`: every lane holds 0 or a member in `1..MAXSAFE`. -/
def State.gi2 (s : State) : Prop := ∀ k i, s.setPos k i → (s.laneAt k i).toNat ≤ s.cfg.maxSafe

/-- `GI4`: the guard bit of every lane is 0. -/
def State.gi4 (s : State) : Prop := ∀ k i, s.setPos k i → (s.laneAt k i).getLsbD (s.cfg.n - 1) = false

/-- `GI5`: `GCNT` is the number of non-zero lanes. -/
def State.gi5 (s : State) : Prop := s.gcnt.toNat = s.memberLanes

/-- `GI6`: in `FIXED` mode every lane with global index at or above `GC` is 0. -/
def State.gi6 (s : State) : Prop :=
  ∀ gc, s.cfg.storage = .fixed gc → ∀ k i, s.setPos k i → gc ≤ k * s.cfg.lanes + i → s.laneAt k i = 0#64

/-- The generic set invariants of 10_state.md R32. -/
def State.genericOk (s : State) : Prop := s.gi1 ∧ s.gi2 ∧ s.gi4 ∧ s.gi5 ∧ s.gi6

/-- A raw write into the set's storage: `SET` or `BCAST` on a register below `GLEN` (10_state.md R34). -/
def rawSetWrite (i : Instr) (s : State) : Prop :=
  (∃ k v, i = .bcast k v ∧ k < s.glen.toNat) ∨ ∃ k j v, i = .set k j v ∧ k < s.glen.toNat

/-! ## The bucketed set (10_state.md R33) -/

/-- `BI0`, `BI3`, `BI4` of one bucket: bits 63:35 are 0, the lanes at and beyond the count are 0, every guard bit is 0. -/
def bucketOk (b : Word) : Prop :=
  b >>> 35 = 0#64 ∧ (∀ i, i < 3 → bcount b ≤ i → blane b i = 0#64) ∧ ∀ i, i < 3 → (blane b i).getLsbD 10 = false

/-- Position `(k, i)` of half `h` is an occupied lane. -/
def State.occupied (s : State) (h : Half) (k i : Nat) : Prop := k < s.cfg.nb ∧ i < bcount (s.bucket h k)

/-- `BI1`: within one half no two occupied lanes hold the same remainder. -/
def State.bi1 (s : State) : Prop :=
  ∀ h k i k' i', s.occupied h k i → s.occupied h k' i' → blane (s.bucket h k) i = blane (s.bucket h k') i' → k = k' ∧ i = i'

/-- In `LO` the remainders are 1..1023 (43_bucketed_set.md R146). -/
def State.loNonzero (s : State) : Prop := ∀ k i, s.occupied .lo k i → blane (s.bucket .lo k) i ≠ 0#64

/-- The bucket invariants of 10_state.md R33, for every bucket of both halves. -/
def State.bucketsOk (s : State) : Prop := (∀ h k, k < s.cfg.nb → bucketOk (s.bucket h k)) ∧ s.bi1 ∧ s.loNonzero

/-- `v` is a member of the bucketed set: an occupied lane of its half holds its remainder (43_bucketed_set.md R146). -/
def State.bucketHolds (s : State) (v : Nat) : Prop := ∃ k i, s.occupied (half v) k i ∧ blane (s.bucket (half v) k) i = rem v

/-! ## The zero-lanes mask -/

/-- The borrow `b_j` into lane `j` (40_lane_primitive.md R87). -/
def borrowIn (c : Config) (w : Word) : Nat → Bool
  | 0 => false
  | j + 1 => lane c w j == 0#64 || (lane c w j == 1#64 && borrowIn c w j)

/-- The guard bit position of lane `j` (00_scope.md R6). -/
def guardBit (c : Config) (j : Nat) : Nat := j * c.n + c.n - 1

/-! ## Classes of commands, for statements about several at once -/

/-- The register operand of a packed-register command. -/
def regOperand : Instr → Option Nat
  | .bcast k _ => some k
  | .get k _ => some k
  | .set k _ _ => some k
  | .zmask k => some k
  | .rdw k => some k
  | .contains k _ => some k
  | .find k _ => some k
  | .findz k => some k
  | .cnteq k _ => some k
  | .min k _ => some k
  | .max k _ => some k
  | .gins _ => none
  | .gera _ => none
  | .gcon _ => none
  | .gsize => none
  | .gcap => none
  | .glen => none
  | .bins _ => none
  | .bera _ => none
  | .bcon _ => none
  | .bsize => none
  | .bcap => none
  | .brdw _ _ => none

/-- R181: fault entry with cause code `code` for the command `i`: the fault status and the response, nothing else. -/
def faulted (i : Instr) (code : BitVec 8) (s : State) : State :=
  { s with flt := true, fcause := code, fcmd := encode i, responses := s.responses ++ [⟨code, 0#64⟩] }

/-- The commands that only read (20_memory.md R43). -/
def onlyReads : Instr → Bool
  | .bcast _ _ => false
  | .get _ _ => true
  | .set _ _ _ => false
  | .zmask _ => true
  | .rdw _ => true
  | .contains _ _ => true
  | .find _ _ => true
  | .findz _ => true
  | .cnteq _ _ => true
  | .min _ _ => true
  | .max _ _ => true
  | .gins _ => false
  | .gera _ => false
  | .gcon _ => true
  | .gsize => true
  | .gcap => true
  | .glen => true
  | .bins _ => false
  | .bera _ => false
  | .bcon _ => true
  | .bsize => true
  | .bcap => true
  | .brdw _ _ => true

/-- The commands of the bucketed set. -/
def ofBucketedSet : Instr → Bool
  | .bcast _ _ => false
  | .get _ _ => false
  | .set _ _ _ => false
  | .zmask _ => false
  | .rdw _ => false
  | .contains _ _ => false
  | .find _ _ => false
  | .findz _ => false
  | .cnteq _ _ => false
  | .min _ _ => false
  | .max _ _ => false
  | .gins _ => false
  | .gera _ => false
  | .gcon _ => false
  | .gsize => false
  | .gcap => false
  | .glen => false
  | .bins _ => true
  | .bera _ => true
  | .bcon _ => true
  | .bsize => true
  | .bcap => true
  | .brdw _ _ => true

end Sys2Proof.Machine
end

