-- ==== Sys2Proof/Machine/Run.lean ====
section
/-!
DEFINITION. A run and its observation (70_reset_and_hazards.md R206): a finite list of commands issued from the reset state, ended by the last response or by
the first fault, and seen through its responses together with the unit's final state. `startOf` (Machine/Port.lean) is its start.
-/

namespace Sys2Proof.Machine

/-- The complete state of the unit, no more and no less (10_state.md R20): `State` without the parameters, the command stream and the responses, which
R28 says are not state. -/
structure UnitState where
  r : Memory
  glen : BitVec 17
  gcnt : BitVec 32
  lo : Memory
  hi : Memory
  flt : Bool
  fcause : BitVec 8
  fcmd : Word
  deriving DecidableEq, Repr

/-- The unit's own part of the state (10_state.md R20). -/
def State.unit (s : State) : UnitState where
  r := s.r
  glen := s.glen
  gcnt := s.gcnt
  lo := s.lo
  hi := s.hi
  flt := s.flt
  fcause := s.fcause
  fcmd := s.fcmd

/-- What a run shows (70_reset_and_hazards.md R206): the list of its responses, in order, together with the final state. -/
structure Observation where
  responses : List Response
  final : UnitState
  deriving DecidableEq, Repr

/-- The observation of the run that is over in `s` (70_reset_and_hazards.md R206). -/
def State.observation (s : State) : Observation where
  responses := s.responses
  final := s.unit

/-- The last command has responded: the host has nothing more to present (70_reset_and_hazards.md R206). -/
def State.drained (s : State) : Bool := s.pending.isEmpty

/-- The run is over: the last command has responded, or a fault was taken (70_reset_and_hazards.md R206). -/
def State.ended (s : State) : Bool := s.drained || s.flt

/-- At most `n` steps from `s`, none after the run is over: commands listed after the first fault are not part of the run (70_reset_and_hazards.md R206). -/
def runFrom : Nat → State → Host.Outcome State Fault Refusal
  | 0, s => .next s
  | n + 1, s =>
    if s.ended then .next s
    else
      match step s with
      | .next t => runFrom n t
      | .fault f => .fault f
      | .refused e => .refused e

/-- The run of a list of commands on an instance, from its reset state to its end (70_reset_and_hazards.md R206): a step takes one command, so the length of the
list bounds the number of steps. -/
def run (c : Config) (program : List Word) : Host.Outcome State Fault Refusal := runFrom program.length (startOf c program)

/-- The observation of a run (70_reset_and_hazards.md R206); `none` only where the parameters are those of no instance. -/
def runObservation (c : Config) (program : List Word) : Option Observation :=
  match run c program with
  | .next t => some t.observation
  | .fault _ => none
  | .refused _ => none

end Sys2Proof.Machine
end

