-- ==== Sys2Proof/Safety.lean ====
section
/-!
DEFINITION. What counts as a safe run (60_exceptions.md R183, 70_reset_and_hazards.md R206): a run that ends halted has gone wrong, so a claim about a run
takes `FLT = 0` at its end. What a run is, when it ends and what it shows stand in Machine/Run.lean.
-/

namespace Sys2Proof.Machine

/-- No fault was taken (60_exceptions.md R183). -/
def State.safe (s : State) : Bool := !s.flt

/-- A good end of a run: the run is over and no fault was taken, so every command was answered (70_reset_and_hazards.md R206). -/
def State.goodEnd (s : State) : Bool := s.ended && s.safe

/-- A run that ends halted has gone wrong (70_reset_and_hazards.md R206). -/
def State.wrongEnd (s : State) : Bool := s.ended && !s.safe

end Sys2Proof.Machine
end

