-- ==== Sys2Proof/Certificates/Slice0/Obligations.lean ====
section
/-!
DEFINITION. The statements for the provers, one `def Obligations.<Name> : Prop` each. OBLIGATIONS.json lists them with the rules they cite. A statement
about a command's effect names, in its conclusion, the whole next state or what every part of it holds, so that the frame is in it.
-/

open Sys2Proof Sys2Proof.Machine

/-! ## Encoding (30_encoding.md) -/

/-- R67: encoding then decoding, and decoding then encoding, are the identity on legal words. -/
def Obligations.DecodeAndEncodeAgree : Prop :=
  (∀ i : Instr, i.wellFormed = true → decode (encode i) = .ok i) ∧
    ∀ (cw : Word) (i : Instr), decode cw = .ok i → i.wellFormed = true ∧ encode i = cw

/-- R60: a word is the command of a row of the opcode table exactly when `CW & mask = match`. -/
def Obligations.MaskAndMatchDecideTheCommand : Prop :=
  ∀ row ∈ opcodeTable, ∀ cw : Word,
    (∃ i, decode cw = .ok i ∧ i.mnemonic = row.mnemonic) ↔ cw &&& row.mask = row.pattern

/-- R61: every 64-bit word is either exactly one command of the table or illegal, and an `op` outside the table is illegal. -/
def Obligations.EveryWordIsOneCommandOrIllegal : Prop :=
  (∀ cw : Word, (∃ e, decode cw = .error e) ↔ ∀ row ∈ opcodeTable, cw &&& row.mask ≠ row.pattern) ∧
    (∀ (cw : Word), ∀ row ∈ opcodeTable, ∀ row' ∈ opcodeTable,
      cw &&& row.mask = row.pattern → cw &&& row'.mask = row'.pattern → row = row') ∧
    ∀ cw : Word,
      (opField cw = 0x00 ∨ (0x06 ≤ opField cw ∧ opField cw ≤ 0x0F) ∨ (0x16 ≤ opField cw ∧ opField cw ≤ 0x1F) ∨
        (0x26 ≤ opField cw ∧ opField cw ≤ 0x2F) ∨ 0x36 ≤ opField cw) ↔ decode cw = .error .undefinedOp

/-- The three words written out in section 4 of 30_encoding.md, and three of its table's other families, decode to the commands they stand for. -/
def Obligations.WrittenWordsDecode : Prop :=
  decode 0x000000C800000003#64 = .ok (.set 0 0 200) ∧ decode 0x0000000500000020#64 = .ok (.gins 5) ∧
    decode 0x0000000000000135#64 = .ok (.brdw .hi 0) ∧ decode 0x0000000000010C15#64 = .ok (.max 1 12) ∧
    decode 0x7FFFFFFF00000011#64 = .ok (.find 0 2147483647) ∧ decode 0x0000000000000034#64 = .ok .bcap

/-! ## The step, the host's inputs, reset -/

/-- A step on a word that decodes runs the decoded command, on the state with that input taken. -/
def Obligations.StepRunsTheDecodedCommand : Prop :=
  ∀ (s : State) (cw : Word) (rest : List HostEvent) (i : Instr),
    s.cfg.ok = true → s.pending = .command cw :: rest → decode cw = .ok i →
      step s = exec i { s with pending := rest }

/-- R172: a word that is none of the 23 commands raises `IllegalCommand` and does nothing else. -/
def Obligations.IllegalWordFaults : Prop :=
  ∀ (s : State) (cw : Word) (rest : List HostEvent),
    s.cfg.ok = true → s.flt = false → s.pending = .command cw :: rest →
    (∀ row ∈ opcodeTable, cw &&& row.mask ≠ row.pattern) →
      step s = .next { s with
        pending := rest, flt := true, fcause := 1#8, fcmd := cw, responses := s.responses ++ [⟨1#8, 0#64⟩] }

/-- R57 and R181: every command word gets one response. A halted unit answers `(0xFF, 0)`; otherwise the command completes with `ST = 0`, or raises a fault with its
cause code in 1..9, records it and changes nothing else. -/
def Obligations.EveryCommandIsAnsweredOnce : Prop :=
  ∀ (s : State) (cw : Word) (rest : List HostEvent), s.cfg.ok = true → s.pending = .command cw :: rest →
    ∃ t, step s = .next t ∧ t.pending = rest ∧
      ((s.flt = true ∧ t = { s with pending := rest, responses := s.responses ++ [⟨0xFF#8, 0#64⟩] }) ∨
        (s.flt = false ∧ t.flt = false ∧ t.fcause = s.fcause ∧ t.fcmd = s.fcmd ∧
          ∃ res, t.responses = s.responses ++ [⟨0#8, res⟩]) ∨
        (s.flt = false ∧ ∃ code : BitVec 8, 1 ≤ code.toNat ∧ code.toNat ≤ 9 ∧
          t = { s with
            pending := rest, flt := true, fcause := code, fcmd := cw, responses := s.responses ++ [⟨code, 0#64⟩] }))

/-- R183: while halted every command word, legal or not, is answered `(0xFF, 0)` and changes nothing, `FCAUSE` and `FCMD` included; the frozen
state is lost at reset. -/
def Obligations.HaltedUnitIgnoresEveryWord : Prop :=
  ∀ (s : State) (rest : List HostEvent), s.cfg.ok = true → s.flt = true →
    (∀ cw : Word, s.pending = .command cw :: rest →
        step s = .next { s with pending := rest, responses := s.responses ++ [⟨0xFF#8, 0#64⟩] }) ∧
      (s.pending = .reset :: rest →
        step s = .next { State.resetWith s.cfg with pending := rest, responses := s.responses })

/-- R184: the only way out of a fault is reset, which clears everything; no command clears `FLT`, and a halted unit executes nothing and raises nothing. -/
def Obligations.OnlyResetLeavesTheHaltedState : Prop :=
  ∀ s t : State, s.flt = true → step s = .next t →
    (∀ rest, s.pending = .reset :: rest →
        t.flt = false ∧ t = { State.resetWith s.cfg with pending := rest, responses := s.responses }) ∧
      ((∀ rest, s.pending ≠ .reset :: rest) →
        t.flt = true ∧ t = { s with pending := t.pending, responses := t.responses })

/-- R195: reset puts every piece of state at its reset value, from any state, and leaves the parameters. -/
def Obligations.ResetEventResetsEverything : Prop :=
  ∀ (s : State) (rest : List HostEvent), s.cfg.ok = true → s.pending = .reset :: rest →
    ∃ t, step s = .next t ∧ t.cfg = s.cfg ∧ (∀ k, t.reg k = 0#64) ∧ (∀ h k, t.bucket h k = 0#64) ∧ t.gcnt = 0#32 ∧
      (∀ gc, s.cfg.storage = .fixed gc → t.glen.toNat = s.cfg.rmax) ∧
      (∀ n, s.cfg.storage = .grow n → t.glen.toNat = 0) ∧
      t.flt = false ∧ t.fcause = 0#8 ∧ t.fcmd = 0#64 ∧ t.pending = rest ∧ t.responses = s.responses

/-- R35: the reset state of an instance, for every legal choice of parameters. -/
def Obligations.ResetStateValues : Prop :=
  ∀ c : Config, c.ok = true →
    (∀ k, (State.resetWith c).reg k = 0#64) ∧ (∀ h k, (State.resetWith c).bucket h k = 0#64) ∧
      (State.resetWith c).gcnt = 0#32 ∧
      (∀ gc, c.storage = .fixed gc → (State.resetWith c).glen.toNat = c.rmax) ∧
      (∀ n, c.storage = .grow n → (State.resetWith c).glen.toNat = 0) ∧
      (State.resetWith c).flt = false ∧ (State.resetWith c).fcause = 0#8 ∧ (State.resetWith c).fcmd = 0#64

/-- The model's choice (notes/assumptions/3.md): with nothing pending a step changes nothing. -/
def Obligations.IdleUnitKeepsItsState : Prop :=
  ∀ s : State, s.cfg.ok = true → s.pending = [] → step s = .next s

/-- The model's choice (notes/assumptions/5.md): the model stops exactly in a state whose parameters are no instance's. -/
def Obligations.StepStopsOnlyWithoutAnInstance : Prop :=
  ∀ s : State, (s.cfg.ok = false ∧ step s = .fault .noSuchUnit) ∨ (s.cfg.ok = true ∧ ∃ t, step s = .next t)

/-- The parameters are static: no step changes them. -/
def Obligations.NoStepChangesTheParameters : Prop :=
  ∀ s t : State, step s = .next t → t.cfg = s.cfg

/-! ## Faults (60_exceptions.md) -/

/-- R173: an explicit register index `>= RMAX` raises `RegIndexRange` (2), a bucket index `>= NB` of BRDW `BucketIndexRange` (3), whatever the other
operands. An index below the bound, at or above `GLEN` too, raises neither. -/
def Obligations.IndexOutOfItsArrayFaults : Prop :=
  (∀ (s : State) (i : Instr) (k : Nat), s.flt = false → regOperand i = some k →
      (s.cfg.rmax ≤ k → exec i s = .next (faulted i 2#8 s)) ∧
        (k < s.cfg.rmax → ∃ t, exec i s = .next t ∧ ¬ (t.flt = true ∧ t.fcause = 2#8))) ∧
    ∀ (s : State) (h : Half) (k : Nat), s.flt = false →
      (s.cfg.nb ≤ k → exec (.brdw h k) s = .next (faulted (.brdw h k) 3#8 s)) ∧
        (k < s.cfg.nb → ∃ t, exec (.brdw h k) s = .next t ∧ t.flt = false)

/-- R174: `GET` and `SET` require `i < L`, `MIN` and `MAX` require `1 <= count <= L`; the faults are 4 and 5, whatever the value. -/
def Obligations.LaneAndCountRangeFaults : Prop :=
  ∀ (s : State) (k : Nat), s.flt = false → k < s.cfg.rmax →
    (∀ i, s.cfg.lanes ≤ i → exec (.get k i) s = .next (faulted (.get k i) 4#8 s)) ∧
      (∀ i v, s.cfg.lanes ≤ i → exec (.set k i v) s = .next (faulted (.set k i v) 4#8 s)) ∧
      (∀ count, count = 0 ∨ s.cfg.lanes < count → exec (.min k count) s = .next (faulted (.min k count) 5#8 s)) ∧
      ∀ count, count = 0 ∨ s.cfg.lanes < count → exec (.max k count) s = .next (faulted (.max k count) 5#8 s)

/-- R175: the three bounds on `val`: storage commands `0..LMASK` (6), search commands `0..MAXSAFE` (7), generic set commands `1..MAXSAFE` (8), bucketed set commands
`1..2047` (8). With `N = 32` no 32-bit value is above `LMASK`; with `N = 1`, `MAXSAFE = 0`. -/
def Obligations.ValueRangeFaults : Prop :=
  ∀ s : State, s.flt = false →
    (∀ k, k < s.cfg.rmax →
      (∀ v, s.cfg.lmask < v → exec (.bcast k v) s = .next (faulted (.bcast k v) 6#8 s) ∧
        ∀ i, i < s.cfg.lanes → exec (.set k i v) s = .next (faulted (.set k i v) 6#8 s)) ∧
      ∀ v, s.cfg.maxSafe < v →
        exec (.contains k v) s = .next (faulted (.contains k v) 7#8 s) ∧
          exec (.find k v) s = .next (faulted (.find k v) 7#8 s) ∧
          exec (.cnteq k v) s = .next (faulted (.cnteq k v) 7#8 s)) ∧
    (∀ v, v = 0 ∨ s.cfg.maxSafe < v →
      exec (.gins v) s = .next (faulted (.gins v) 8#8 s) ∧ exec (.gera v) s = .next (faulted (.gera v) 8#8 s) ∧
        exec (.gcon v) s = .next (faulted (.gcon v) 8#8 s)) ∧
    (∀ v, v = 0 ∨ 2047 < v →
      exec (.bins v) s = .next (faulted (.bins v) 8#8 s) ∧ exec (.bera v) s = .next (faulted (.bera v) 8#8 s) ∧
        exec (.bcon v) s = .next (faulted (.bcon v) 8#8 s)) ∧
    (s.cfg.n = 32 → ∀ v, v < 2 ^ 32 → v ≤ s.cfg.lmask) ∧ (s.cfg.n = 1 → s.cfg.maxSafe = 0)

/-- R131, R176: in `GROW` mode a `GINS` of a value no lane of the set holds, with no empty lane and `GLEN = RMAX`, raises `StorageExhausted` (9) and changes nothing else. -/
def Obligations.GinsWithoutStorageFaults : Prop :=
  ∀ (s : State) (v n : Nat), s.cfg.ok = true → s.flt = false → s.cfg.storage = .grow n → 1 ≤ v → v ≤ s.cfg.maxSafe →
    ¬ s.holds v → ¬ s.holds 0 → s.glen.toNat = s.cfg.rmax →
      exec (.gins v) s = .next (faulted (.gins v) 9#8 s)

/-- R178: a `SET` that violates several conditions reports the first in the check order: index, lane, value. -/
def Obligations.SetReportsItsFirstViolation : Prop :=
  ∀ (s : State) (k i v : Nat), s.flt = false →
    ∃ t, exec (.set k i v) s = .next t ∧
      (t.flt = true ↔ s.cfg.rmax ≤ k ∨ s.cfg.lanes ≤ i ∨ s.cfg.lmask < v) ∧
      (s.cfg.rmax ≤ k → t = faulted (.set k i v) 2#8 s) ∧
      (k < s.cfg.rmax → s.cfg.lanes ≤ i → t = faulted (.set k i v) 4#8 s) ∧
      (k < s.cfg.rmax → i < s.cfg.lanes → s.cfg.lmask < v → t = faulted (.set k i v) 6#8 s)

/-! ## Lane storage (40_lane_primitive.md) -/

/-- R80, R86: `BCAST` puts `v` in every lane, clears the bits above the lanes, and changes no other register and nothing else. -/
def Obligations.BcastFillsEveryLane : Prop :=
  ∀ (s : State) (k v : Nat), s.cfg.ok = true → s.flt = false → k < s.cfg.rmax → v ≤ s.cfg.lmask →
    ∃ t, exec (.bcast k v) s = .next t ∧ t.reg k = word (v * s.cfg.ones.toNat) ∧
      (∀ i, i < s.cfg.lanes → lane s.cfg (t.reg k) i = word v) ∧ t.reg k >>> s.cfg.used = 0#64 ∧
      (∀ j, j ≠ k → t.reg j = s.reg j) ∧
      t = { s with r := t.r, responses := s.responses ++ [⟨0#8, 0#64⟩] }

/-- R81, R22: `GET` answers the number made of bits `i*N` to `i*N + N - 1` of the register, and changes nothing. -/
def Obligations.GetAnswersTheLane : Prop :=
  ∀ (s : State) (k i : Nat), s.cfg.ok = true → s.flt = false → k < s.cfg.rmax → i < s.cfg.lanes →
    exec (.get k i) s = .next { s with responses :=
      s.responses ++ [⟨0#8, word ((s.reg k).toNat / 2 ^ (i * s.cfg.n) % 2 ^ s.cfg.n)⟩] }

/-- R82, R85: `SET` puts `v` in lane `i` without disturbing any other lane, the bits above the lanes, another register, or anything else. -/
def Obligations.SetWritesOneLane : Prop :=
  ∀ (s : State) (k i v : Nat), s.cfg.ok = true → s.flt = false → k < s.cfg.rmax → i < s.cfg.lanes → v ≤ s.cfg.lmask →
    ∃ t, exec (.set k i v) s = .next t ∧ lane s.cfg (t.reg k) i = word v ∧
      (∀ j, j < s.cfg.lanes → j ≠ i → lane s.cfg (t.reg k) j = lane s.cfg (s.reg k) j) ∧
      t.reg k >>> s.cfg.used = s.reg k >>> s.cfg.used ∧
      (∀ j, j ≠ k → t.reg j = s.reg j) ∧
      t = { s with r := t.r, responses := s.responses ++ [⟨0#8, 0#64⟩] }

/-- R85: the law of `lane` and `setlane`, and in command terms: `SET` then `GET` of the same lane answers `v`; a `GET` of another lane answers what it
answered before. -/
def Obligations.GetAfterSetAnswersTheValue : Prop :=
  (∀ (c : Config) (w : Word) (i v : Nat), c.ok = true → i < c.lanes → v ≤ c.lmask →
    lane c (setLane c w i (word v)) i = word v ∧
      (∀ j, j < c.lanes → j ≠ i → lane c (setLane c w i (word v)) j = lane c w j) ∧
      ∀ b, c.used ≤ b → (setLane c w i (word v)).getLsbD b = w.getLsbD b) ∧
  ∀ (s t : State) (k i v : Nat), s.cfg.ok = true → s.flt = false → k < s.cfg.rmax → i < s.cfg.lanes → v ≤ s.cfg.lmask →
    exec (.set k i v) s = .next t →
      (∃ u, exec (.get k i) t = .next u ∧ u.responses = t.responses ++ [⟨0#8, word v⟩]) ∧
        ∀ j, j < s.cfg.lanes → j ≠ i → ∃ u u' res, exec (.get k j) s = .next u ∧ exec (.get k j) t = .next u' ∧
          u.responses = s.responses ++ [⟨0#8, res⟩] ∧ u'.responses = t.responses ++ [⟨0#8, res⟩]

/-- R83, R84: `ZMASK` answers the formula, `RDW` the raw word; neither changes anything. -/
def Obligations.ZmaskAndRdwAnswer : Prop :=
  ∀ (s : State) (k : Nat), s.flt = false → k < s.cfg.rmax →
    exec (.zmask k) s = .next { s with responses :=
        s.responses ++ [⟨0#8, (s.reg k - s.cfg.ones) &&& ~~~(s.reg k) &&& s.cfg.high⟩] } ∧
      exec (.rdw k) s = .next { s with responses := s.responses ++ [⟨0#8, s.reg k⟩] }

/-- R87: the exact content of the zero-lanes mask, by the borrow sequence. -/
def Obligations.ZeroMaskFlagsFollowTheBorrow : Prop :=
  ∀ (c : Config) (w : Word), c.ok = true →
    (∀ b, (zeroMask c w).getLsbD b = true → ∃ j, j < c.lanes ∧ b = guardBit c j) ∧
      (2 ≤ c.n → ∀ j, j < c.lanes →
        ((zeroMask c w).getLsbD (guardBit c j) = true ↔
          lane c w j = 0#64 ∨ (lane c w j = 1#64 ∧ borrowIn c w j = true))) ∧
      (c.n = 1 → ∀ j, j < c.lanes →
        ((zeroMask c w).getLsbD (guardBit c j) = true ↔ lane c w j = 0#64 ∧ borrowIn c w j = false))

/-- R88: the mask is non-zero exactly when some lane is 0, and its lowest flag is in the lowest zero lane. -/
def Obligations.ZeroMaskFindsTheLowestZeroLane : Prop :=
  ∀ (c : Config) (w : Word), c.ok = true →
    (zeroMask c w ≠ 0#64 ↔ ∃ j, j < c.lanes ∧ lane c w j = 0#64) ∧
      ∀ j, flaggedLane c (zeroMask c w) = some j ↔
        j < c.lanes ∧ lane c w j = 0#64 ∧ ∀ i, i < j → lane c w i ≠ 0#64

/-- R89: lanes and the zero-lanes mask do not depend on the bits above the lanes. -/
def Obligations.UnusedBitsDoNotMatter : Prop :=
  ∀ (c : Config) (w w' : Word), c.ok = true → (∀ b, b < c.used → w.getLsbD b = w'.getLsbD b) →
    zeroMask c w = zeroMask c w' ∧ ∀ i, i < c.lanes → lane c w i = lane c w' i

/-- R90: with `N = 1` the mask is `(w + 1) & ~w`, `CNTEQ` answers 0 or 1, and every `GINS`, `GERA`, `GCON` raises `SetValueRange`. -/
def Obligations.LaneWidthOne : Prop :=
  ∀ s : State, s.cfg.n = 1 → s.flt = false →
    (∀ w : Word, zeroMask s.cfg w = (w + 1#64) &&& ~~~w) ∧
      (∀ k, k < s.cfg.rmax → ∃ res : Word, exec (.cnteq k 0) s = .next { s with responses := s.responses ++ [⟨0#8, res⟩] } ∧
        (res = 0#64 ∨ res = 1#64)) ∧
      ∀ v, exec (.gins v) s = .next (faulted (.gins v) 8#8 s) ∧ exec (.gera v) s = .next (faulted (.gera v) 8#8 s) ∧
        exec (.gcon v) s = .next (faulted (.gcon v) 8#8 s)

/-! ## Search (41_search.md) -/

/-- R107, R101: the match mask is non-zero exactly when some lane holds `v`, its lowest flag is in the lowest such lane, and `CONTAINS` answers 1
exactly when some lane holds `v`. -/
def Obligations.ContainsIsExact : Prop :=
  (∀ (c : Config) (w : Word) (v : Nat), c.ok = true → v ≤ c.maxSafe →
    (matchMask c w (word v) ≠ 0#64 ↔ ∃ j, j < c.lanes ∧ lane c w j = word v) ∧
      ∀ j, flaggedLane c (matchMask c w (word v)) = some j ↔
        j < c.lanes ∧ lane c w j = word v ∧ ∀ i, i < j → lane c w i ≠ word v) ∧
  ∀ (s : State) (k v : Nat), s.cfg.ok = true → s.flt = false → k < s.cfg.rmax → v ≤ s.cfg.maxSafe →
    ∃ res : Word, exec (.contains k v) s = .next { s with responses := s.responses ++ [⟨0#8, res⟩] } ∧
      ((∃ j, j < s.cfg.lanes ∧ s.laneAt k j = word v) → res = 1#64) ∧
      ((∀ j, j < s.cfg.lanes → s.laneAt k j ≠ word v) → res = 0#64)

/-- R102, R107: `FIND` answers the lowest lane that holds `v`, or `NOTFOUND`. -/
def Obligations.FindAnswersTheLowestLane : Prop :=
  ∀ (s : State) (k v : Nat), s.cfg.ok = true → s.flt = false → k < s.cfg.rmax → v ≤ s.cfg.maxSafe →
    ∃ res : Word, exec (.find k v) s = .next { s with responses := s.responses ++ [⟨0#8, res⟩] } ∧
      (∀ j, j < s.cfg.lanes → s.laneAt k j = word v → (∀ i, i < j → s.laneAt k i ≠ word v) → res = word j) ∧
      ((∀ j, j < s.cfg.lanes → s.laneAt k j ≠ word v) → res = 0xFFFFFFFFFFFFFFFF#64)

/-- R103: `FINDZ` answers the lowest empty lane, or `NOTFOUND`, and is identical to `FIND r<k>, 0`. -/
def Obligations.FindzAnswersTheLowestEmptyLane : Prop :=
  ∀ (s : State) (k : Nat), s.cfg.ok = true → s.flt = false → k < s.cfg.rmax →
    exec (.findz k) s = exec (.find k 0) s ∧
      ∃ res : Word, exec (.findz k) s = .next { s with responses := s.responses ++ [⟨0#8, res⟩] } ∧
        (∀ j, j < s.cfg.lanes → s.laneAt k j = 0#64 → (∀ i, i < j → s.laneAt k i ≠ 0#64) → res = word j) ∧
        ((∀ j, j < s.cfg.lanes → s.laneAt k j ≠ 0#64) → res = 0xFFFFFFFFFFFFFFFF#64)

/-- R108: for `N >= 2` `CNTEQ` answers the number of lanes holding `v` plus the number of lanes holding `v ^ 1` that a borrow enters; the borrow sequence is that of the
lanes XORed with `v`. -/
def Obligations.CnteqCountsMatchesAndBorrowedNeighbours : Prop :=
  ∀ (s : State) (k v : Nat), s.cfg.ok = true → 2 ≤ s.cfg.n → s.flt = false → k < s.cfg.rmax → v ≤ s.cfg.maxSafe →
    exec (.cnteq k v) s = .next { s with responses := s.responses ++ [⟨0#8, word
      (((List.range s.cfg.lanes).countP fun j => s.laneAt k j == word v) +
        (List.range s.cfg.lanes).countP fun j =>
          s.laneAt k j == word v ^^^ 1#64 && borrowIn s.cfg (s.reg k ^^^ bcast s.cfg (word v)) j)⟩] }

/-- R104: `CNTEQ` answers the population count of the match mask, a number in `0..L` that is 0 exactly when no lane holds `v`. -/
def Obligations.CnteqAnswersThePopulationCount : Prop :=
  ∀ (s : State) (k v : Nat), s.cfg.ok = true → s.flt = false → k < s.cfg.rmax → v ≤ s.cfg.maxSafe →
    ∃ n : Nat, exec (.cnteq k v) s = .next { s with responses := s.responses ++ [⟨0#8, word n⟩] } ∧
      n = ((List.range 64).filter fun b => (matchMask s.cfg (s.reg k) (word v)).getLsbD b).length ∧
      n ≤ s.cfg.lanes ∧ (n = 0 ↔ ∀ j, j < s.cfg.lanes → s.laneAt k j ≠ word v)

/-- R105, R106: `MIN` and `MAX` answer the least and the greatest of the first `count` lane values. -/
def Obligations.MinAndMaxScanTheFirstLanes : Prop :=
  ∀ (s : State) (k count : Nat), s.cfg.ok = true → s.flt = false → k < s.cfg.rmax → 1 ≤ count → count ≤ s.cfg.lanes →
    (∃ res : Word, exec (.min k count) s = .next { s with responses := s.responses ++ [⟨0#8, res⟩] } ∧
        (∃ i, i < count ∧ s.laneAt k i = res) ∧ ∀ i, i < count → res.toNat ≤ (s.laneAt k i).toNat) ∧
      ∃ res : Word, exec (.max k count) s = .next { s with responses := s.responses ++ [⟨0#8, res⟩] } ∧
        (∃ i, i < count ∧ s.laneAt k i = res) ∧ ∀ i, i < count → (s.laneAt k i).toNat ≤ res.toNat

/-- R64: `MIN` and `MAX` with the count omitted assemble to the commands with count `L`, whose range check always passes. -/
def Obligations.OmittedCountMeansAllLanes : Prop :=
  ∀ (s : State) (k : Nat), s.cfg.ok = true → s.flt = false → k < s.cfg.rmax →
    assembleLine s.cfg (.minAll k) = .min k (64 / s.cfg.n) ∧ assembleLine s.cfg (.maxAll k) = .max k (64 / s.cfg.n) ∧
      (∃ t, exec (assembleLine s.cfg (.minAll k)) s = .next t ∧ t.flt = false) ∧
      ∃ t, exec (assembleLine s.cfg (.maxAll k)) s = .next t ∧ t.flt = false

/-! ## The generic set (42_generic_set.md) -/

/-- R124: `GCON` answers 1 exactly when some lane of the set holds `v`. -/
def Obligations.GconIsExact : Prop :=
  ∀ (s : State) (v : Nat), s.cfg.ok = true → s.flt = false → 1 ≤ v → v ≤ s.cfg.maxSafe →
    (s.holds v → exec (.gcon v) s = .next { s with responses := s.responses ++ [⟨0#8, 1#64⟩] }) ∧
      (¬ s.holds v → exec (.gcon v) s = .next { s with responses := s.responses ++ [⟨0#8, 0#64⟩] })

/-- R122 phase 1, R133: a value the set holds is a duplicate, full or not; `GINS` answers 2 and changes nothing. -/
def Obligations.GinsOfAMemberIsADuplicate : Prop :=
  ∀ (s : State) (v : Nat), s.cfg.ok = true → s.flt = false → 1 ≤ v → v ≤ s.cfg.maxSafe → s.holds v →
    exec (.gins v) s = .next { s with responses := s.responses ++ [⟨0#8, 2#64⟩] }

/-- R122 phase 2, R128: a value the set does not hold goes to the first empty usable lane in (register, lane) order; `GINS` answers 1, `GCNT` rises by 1 modulo 2^32, and nothing else changes. -/
def Obligations.GinsFillsTheFirstFreeLane : Prop :=
  ∀ (s : State) (v k z : Nat), s.cfg.ok = true → s.flt = false → 1 ≤ v → v ≤ s.cfg.maxSafe → ¬ s.holds v →
    s.setPos k z → usable s.cfg k z = true → s.laneAt k z = 0#64 →
    (∀ k' z', s.setPos k' z' → usable s.cfg k' z' = true → (k' < k ∨ (k' = k ∧ z' < z)) → s.laneAt k' z' ≠ 0#64) →
    ∃ t, exec (.gins v) s = .next t ∧ t.laneAt k z = word v ∧
      (∀ j, j < s.cfg.lanes → j ≠ z → t.laneAt k j = s.laneAt k j) ∧ t.reg k >>> s.cfg.used = s.reg k >>> s.cfg.used ∧
      (∀ j, j ≠ k → t.reg j = s.reg j) ∧
      t = { s with r := t.r, gcnt := s.gcnt + 1#32, responses := s.responses ++ [⟨0#8, 1#64⟩] }

/-- R122 phase 3: in `FIXED` mode, with no empty usable lane, `GINS` of a value the set does not hold answers 4 and changes nothing. -/
def Obligations.GinsOnAFullFixedSetAnswersFull : Prop :=
  ∀ (s : State) (v gc : Nat), s.cfg.ok = true → s.flt = false → s.cfg.storage = .fixed gc → 1 ≤ v → v ≤ s.cfg.maxSafe →
    ¬ s.holds v → (∀ k z, s.setPos k z → usable s.cfg k z = true → s.laneAt k z ≠ 0#64) →
      exec (.gins v) s = .next { s with responses := s.responses ++ [⟨0#8, 4#64⟩] }

/-- R131: in `GROW` mode, with no empty lane and `GLEN < RMAX`, `GINS` appends register `GLEN` written whole with `v` in lane 0; `GLEN` and `GCNT` rise by 1, the answer is 1. -/
def Obligations.GinsGrowsTheSet : Prop :=
  ∀ (s : State) (v n : Nat), s.cfg.ok = true → s.flt = false → s.cfg.storage = .grow n → 1 ≤ v → v ≤ s.cfg.maxSafe →
    ¬ s.holds v → ¬ s.holds 0 → s.glen.toNat < s.cfg.rmax →
      ∃ t, exec (.gins v) s = .next t ∧ t.reg s.glen.toNat = word v ∧ t.glen.toNat = s.glen.toNat + 1 ∧
        (∀ j, j ≠ s.glen.toNat → t.reg j = s.reg j) ∧
        t = { s with
          r := t.r, glen := t.glen, gcnt := s.gcnt + 1#32, responses := s.responses ++ [⟨0#8, 1#64⟩] }

/-- R123, R130: `GERA` clears the first lane in (register, lane) order that holds `v`, answers 1, lowers `GCNT` by 1 modulo 2^32 and moves nothing; when no lane holds `v` it answers 0 and changes nothing. -/
def Obligations.GeraClearsTheFirstMatch : Prop :=
  ∀ (s : State) (v : Nat), s.cfg.ok = true → s.flt = false → 1 ≤ v → v ≤ s.cfg.maxSafe →
    (¬ s.holds v → exec (.gera v) s = .next { s with responses := s.responses ++ [⟨0#8, 0#64⟩] }) ∧
      ∀ k f, s.setPos k f → s.laneAt k f = word v →
        (∀ k' f', s.setPos k' f' → (k' < k ∨ (k' = k ∧ f' < f)) → s.laneAt k' f' ≠ word v) →
        ∃ t, exec (.gera v) s = .next t ∧ t.laneAt k f = 0#64 ∧
          (∀ j, j < s.cfg.lanes → j ≠ f → t.laneAt k j = s.laneAt k j) ∧
          t.reg k >>> s.cfg.used = s.reg k >>> s.cfg.used ∧ (∀ j, j ≠ k → t.reg j = s.reg j) ∧
          t = { s with r := t.r, gcnt := s.gcnt - 1#32, responses := s.responses ++ [⟨0#8, 1#64⟩] }

/-- R125, R126, R127: `GSIZE` answers `GCNT`, `GCAP` answers `GC` in `FIXED` mode and `GLEN * L` in `GROW` mode, `GLEN` answers `GLEN`; none changes anything. -/
def Obligations.GenericSetQueriesAnswer : Prop :=
  ∀ s : State, s.flt = false →
    exec .gsize s = .next { s with responses := s.responses ++ [⟨0#8, word s.gcnt.toNat⟩] } ∧
      (∀ gc, s.cfg.storage = .fixed gc → exec .gcap s = .next { s with responses := s.responses ++ [⟨0#8, word gc⟩] }) ∧
      (∀ n, s.cfg.storage = .grow n → exec .gcap s =
        .next { s with responses := s.responses ++ [⟨0#8, word (s.glen.toNat * s.cfg.lanes)⟩] }) ∧
      exec .glen s = .next { s with responses := s.responses ++ [⟨0#8, word s.glen.toNat⟩] }

/-- R34: every command but a raw write into the set's registers keeps the generic set invariants of R32. -/
def Obligations.CommandsKeepTheGenericSetInvariants : Prop :=
  ∀ (i : Instr) (s t : State), s.cfg.ok = true → s.glenOk → s.genericOk → ¬ rawSetWrite i s →
    exec i s = .next t → t.genericOk

/-- R129: the set laws of the generic set. Under the invariants, what `GINS` and `GERA` answer says whether the value was a member, and afterwards exactly the membership of that value may have changed. -/
def Obligations.GenericSetLaws : Prop :=
  ∀ (s t : State) (v : Nat), s.cfg.ok = true → s.glenOk → s.genericOk → s.flt = false → 1 ≤ v → v ≤ s.cfg.maxSafe →
    (exec (.gins v) s = .next t → t.flt = false →
      (t.responses = s.responses ++ [⟨0#8, 1#64⟩] ∧ ¬ s.holds v ∧
          ∀ u, 1 ≤ u → u ≤ s.cfg.maxSafe → (t.holds u ↔ u = v ∨ s.holds u)) ∨
        (t.responses = s.responses ++ [⟨0#8, 2#64⟩] ∧ s.holds v ∧ t = { s with responses := t.responses }) ∨
        (t.responses = s.responses ++ [⟨0#8, 4#64⟩] ∧ ¬ s.holds v ∧ t = { s with responses := t.responses })) ∧
      (exec (.gera v) s = .next t →
        (t.responses = s.responses ++ [⟨0#8, 1#64⟩] ∧ s.holds v ∧
            ∀ u, 1 ≤ u → u ≤ s.cfg.maxSafe → (t.holds u ↔ u ≠ v ∧ s.holds u)) ∨
          (t.responses = s.responses ++ [⟨0#8, 0#64⟩] ∧ ¬ s.holds v ∧ t = { s with responses := t.responses }))

/-- R129 (c): under the invariants `GSIZE` answers the number of values for which `GCON` answers 1. -/
def Obligations.GsizeCountsTheMembers : Prop :=
  ∀ s : State, s.cfg.ok = true → s.flt = false → s.genericOk →
    exec .gsize s = .next { s with responses := s.responses ++ [⟨0#8, word
      (Set.ncard { v : Nat | 1 ≤ v ∧ v ≤ s.cfg.maxSafe ∧
        exec (.gcon v) s = .next { s with responses := s.responses ++ [⟨0#8, 1#64⟩] } })⟩] }

/-- R132: in `FIXED` mode, under the invariants, `GCNT <= GC`, and a `GINS` of a non-member answers 4 exactly when `GCNT = GC`. -/
def Obligations.FixedSetIsFullAtItsCapacity : Prop :=
  ∀ (s : State) (gc : Nat), s.cfg.ok = true → s.glenOk → s.genericOk → s.flt = false → s.cfg.storage = .fixed gc →
    s.gcnt.toNat ≤ gc ∧
      ∀ v, 1 ≤ v → v ≤ s.cfg.maxSafe → ¬ s.holds v →
        (exec (.gins v) s = .next { s with responses := s.responses ++ [⟨0#8, 4#64⟩] } ↔ s.gcnt.toNat = gc)

/-- R24: `GLEN` never falls but by reset, rises by at most one, and is constant in `FIXED` mode. -/
def Obligations.GlenOnlyGrows : Prop :=
  ∀ (i : Instr) (s t : State), s.cfg.ok = true → s.glenOk → exec i s = .next t →
    (t.glen.toNat = s.glen.toNat ∨ (t.glen.toNat = s.glen.toNat + 1 ∧ ∃ v, i = .gins v)) ∧
      ∀ gc, s.cfg.storage = .fixed gc → t.glen = s.glen

/-! ## The bucketed set (43_bucketed_set.md) -/

/-- R158: on a bucket whose guard bits are 0 the masked match is the lowest occupied lane holding `r`, or `NONE`. -/
def Obligations.MaskedMatchIsExact : Prop :=
  ∀ (b : Word) (r : Nat), r < 1024 → (∀ i, i < 3 → (blane b i).getLsbD 10 = false) →
    (∀ i, bmatch b (word r) = some i ↔
        i < bcount b ∧ blane b i = word r ∧ ∀ j, j < i → blane b j ≠ word r) ∧
      (bmatch b (word r) = none ↔ ∀ i, i < bcount b → blane b i ≠ word r) ∧
      ∀ b' : Word, (∀ i, i < 3 → (blane b' i).getLsbD 10 = false) → bcount b' = bcount b →
        (∀ i, i < bcount b → blane b' i = blane b i) → bmatch b' (word r) = bmatch b (word r)

/-- R150: `BCON` answers 1 exactly when an occupied lane of the selected half holds the remainder. -/
def Obligations.BconIsExact : Prop :=
  ∀ (s : State) (v : Nat), s.flt = false → s.bucketsOk → 1 ≤ v → v ≤ 2047 →
    (s.bucketHolds v → exec (.bcon v) s = .next { s with responses := s.responses ++ [⟨0#8, 1#64⟩] }) ∧
      (¬ s.bucketHolds v → exec (.bcon v) s = .next { s with responses := s.responses ++ [⟨0#8, 0#64⟩] })

/-- R148: `BINS` answers 2 for a member; otherwise it writes the remainder into lane `count` of the first bucket of the selected half with room, raises that count and answers 1; otherwise it answers 4. -/
def Obligations.BinsFillsTheFirstBucketWithRoom : Prop :=
  ∀ (s : State) (v : Nat), s.flt = false → s.bucketsOk → 1 ≤ v → v ≤ 2047 →
    (s.bucketHolds v → exec (.bins v) s = .next { s with responses := s.responses ++ [⟨0#8, 2#64⟩] }) ∧
      (¬ s.bucketHolds v → (∀ k, k < s.cfg.nb → bcount (s.bucket (half v) k) = 3) →
        exec (.bins v) s = .next { s with responses := s.responses ++ [⟨0#8, 4#64⟩] }) ∧
      ∀ k, ¬ s.bucketHolds v → k < s.cfg.nb → bcount (s.bucket (half v) k) < 3 →
        (∀ j, j < k → bcount (s.bucket (half v) j) = 3) →
        ∃ t, exec (.bins v) s = .next t ∧ bcount (t.bucket (half v) k) = bcount (s.bucket (half v) k) + 1 ∧
          blane (t.bucket (half v) k) (bcount (s.bucket (half v) k)) = rem v ∧
          (∀ i, i < 3 → i ≠ bcount (s.bucket (half v) k) →
            blane (t.bucket (half v) k) i = blane (s.bucket (half v) k) i) ∧
          t.bucket (half v) k >>> 35 = 0#64 ∧
          (∀ h j, ¬ (h = half v ∧ j = k) → t.bucket h j = s.bucket h j) ∧
          t = { s with lo := t.lo, hi := t.hi, responses := s.responses ++ [⟨0#8, 1#64⟩] }

/-- R149: `BERA` of a member answers 1, moves the last occupied lane of its bucket into the lane of the value, clears that last lane and lowers the count; of a non-member it answers 0 and changes nothing. -/
def Obligations.BeraCompactsTheBucket : Prop :=
  ∀ (s : State) (v : Nat), s.flt = false → s.bucketsOk → 1 ≤ v → v ≤ 2047 →
    (¬ s.bucketHolds v → exec (.bera v) s = .next { s with responses := s.responses ++ [⟨0#8, 0#64⟩] }) ∧
      ∀ k i, s.occupied (half v) k i → blane (s.bucket (half v) k) i = rem v →
        ∃ t, exec (.bera v) s = .next t ∧ bcount (t.bucket (half v) k) + 1 = bcount (s.bucket (half v) k) ∧
          (∀ j, j < 3 → blane (t.bucket (half v) k) j =
            if j = bcount (s.bucket (half v) k) - 1 then 0#64
            else if j = i then blane (s.bucket (half v) k) (bcount (s.bucket (half v) k) - 1)
            else blane (s.bucket (half v) k) j) ∧
          t.bucket (half v) k >>> 35 = 0#64 ∧
          (∀ h j, ¬ (h = half v ∧ j = k) → t.bucket h j = s.bucket h j) ∧
          t = { s with lo := t.lo, hi := t.hi, responses := s.responses ++ [⟨0#8, 1#64⟩] }

/-- R151, R152, R153: `BSIZE` answers the sum of all count fields, `BCAP` the declared capacity, `BRDW` the raw bucket; none changes anything. -/
def Obligations.BucketedSetQueriesAnswer : Prop :=
  ∀ s : State, s.flt = false →
    exec .bsize s = .next { s with responses := s.responses ++ [⟨0#8, word
        (∑ k ∈ Finset.range s.cfg.nb, (bcount (s.bucket .lo k) + bcount (s.bucket .hi k)))⟩] } ∧
      exec .bcap s = .next { s with responses := s.responses ++ [⟨0#8, word s.cfg.bc⟩] } ∧
      ∀ k, k < s.cfg.nb →
        exec (.brdw .lo k) s = .next { s with responses := s.responses ++ [⟨0#8, s.lo.read k⟩] } ∧
          exec (.brdw .hi k) s = .next { s with responses := s.responses ++ [⟨0#8, s.hi.read k⟩] }

/-- R34, R154: every step keeps the bucket invariants, in every state that has them. -/
def Obligations.EveryStepKeepsTheBucketInvariants : Prop :=
  ∀ s t : State, s.bucketsOk → step s = .next t → t.bucketsOk

/-- R155: the set laws of the bucketed set: what `BINS` and `BERA` answer says whether the value was a member, and afterwards exactly the membership of that value may have changed. -/
def Obligations.BucketedSetLaws : Prop :=
  ∀ (s t : State) (v : Nat), s.flt = false → s.bucketsOk → 1 ≤ v → v ≤ 2047 →
    (exec (.bins v) s = .next t →
      (t.responses = s.responses ++ [⟨0#8, 1#64⟩] ∧ ¬ s.bucketHolds v ∧
          ∀ u, 1 ≤ u → u ≤ 2047 → (t.bucketHolds u ↔ u = v ∨ s.bucketHolds u)) ∨
        (t.responses = s.responses ++ [⟨0#8, 2#64⟩] ∧ s.bucketHolds v ∧ t = { s with responses := t.responses }) ∨
        (t.responses = s.responses ++ [⟨0#8, 4#64⟩] ∧ ¬ s.bucketHolds v ∧ t = { s with responses := t.responses })) ∧
      (exec (.bera v) s = .next t →
        (t.responses = s.responses ++ [⟨0#8, 1#64⟩] ∧ s.bucketHolds v ∧
            ∀ u, 1 ≤ u → u ≤ 2047 → (t.bucketHolds u ↔ u ≠ v ∧ s.bucketHolds u)) ∨
          (t.responses = s.responses ++ [⟨0#8, 0#64⟩] ∧ ¬ s.bucketHolds v ∧ t = { s with responses := t.responses }))

/-- R155 (c): `BSIZE` answers the number of values in `1..2047` for which `BCON` answers 1. -/
def Obligations.BsizeCountsTheMembers : Prop :=
  ∀ s : State, s.flt = false → s.bucketsOk →
    exec .bsize s = .next { s with responses := s.responses ++ [⟨0#8, word
      (Set.ncard { v : Nat | 1 ≤ v ∧ v ≤ 2047 ∧
        exec (.bcon v) s = .next { s with responses := s.responses ++ [⟨0#8, 1#64⟩] } })⟩] }

/-- R156: each half holds at most `3 * NB` values, so `BSIZE <= 6 * NB`, and `NB` is large enough for `BC` values of one half. -/
def Obligations.EachHalfHoldsThreePerBucket : Prop :=
  ∀ s : State, s.cfg.ok = true → s.flt = false →
    s.cfg.bc ≤ 3 * s.cfg.nb ∧
      (∀ h, (∑ k ∈ Finset.range s.cfg.nb, bcount (s.bucket h k)) ≤ 3 * s.cfg.nb) ∧
      ∃ res : Word, exec .bsize s = .next { s with responses := s.responses ++ [⟨0#8, res⟩] } ∧ res.toNat ≤ 6 * s.cfg.nb

/-! ## Frames and invariants of the whole machine -/

/-- R43: reads have no side effects: a command that only reads changes no state, and repeated it answers the same. -/
def Obligations.ReadsHaveNoSideEffects : Prop :=
  ∀ (i : Instr) (s t : State), onlyReads i = true → s.flt = false → exec i s = .next t → t.flt = false →
    t = { s with responses := t.responses } ∧
      ∃ res u, t.responses = s.responses ++ [⟨0#8, res⟩] ∧ exec i t = .next u ∧
        u = { s with responses := s.responses ++ [⟨0#8, res⟩, ⟨0#8, res⟩] }

/-- R26: only the bucketed-set commands write `LO` or `HI`, they touch nothing else but the fault status and the response, and a command for a value touches only the half its top bit selects. -/
def Obligations.TheTwoSetsAreApart : Prop :=
  ∀ (i : Instr) (s t : State), exec i s = .next t →
    (ofBucketedSet i = false → t.lo = s.lo ∧ t.hi = s.hi) ∧
      (ofBucketedSet i = true → t.r = s.r ∧ t.glen = s.glen ∧ t.gcnt = s.gcnt) ∧
      ∀ v, (i = .bins v ∨ i = .bera v) →
        (half v = .lo → t.hi = s.hi) ∧ (half v = .hi → t.lo = s.lo)

/-- Every step keeps the machine's invariants: canonical arrays that list only indexes that exist, `GLEN` in its range, a legal fault status, and the bits above the lanes at 0 (R23, R24, R31, R44). -/
def Obligations.EveryStepKeepsTheMachineInvariants : Prop :=
  ∀ s t : State, s.machineOk → step s = .next t → t.machineOk

/-- R34: the reset state of every instance has every invariant. -/
def Obligations.ResetStateHasEveryInvariant : Prop :=
  ∀ c : Config, c.ok = true →
    (State.resetWith c).machineOk ∧ (State.resetWith c).genericOk ∧ (State.resetWith c).bucketsOk
end

