-- ==== Sys2Proof/Laws/Params.lean ====
section
/-!
SUPPORT. What legal parameters give: the bounds of 00_scope.md R5 to R8 and the sizes that follow from them.
-/

namespace Sys2Proof

theorem Config.ok_iff (c : Config) :
    c.ok = true ↔ 1 ≤ c.n ∧ c.n ≤ 32 ∧ c.storage.ok c.lanes = true ∧ 1 ≤ c.bc ∧ c.bc ≤ 196608 := by
  simp [Config.ok, and_assoc]

variable {c : Config}

theorem Config.n_pos (h : c.ok = true) : 1 ≤ c.n := ((Config.ok_iff c).1 h).1

theorem Config.n_le (h : c.ok = true) : c.n ≤ 32 := ((Config.ok_iff c).1 h).2.1

/-- The lanes fit the word (20_memory.md R42). -/
theorem Config.used_le : c.lanes * c.n ≤ 64 := Nat.div_mul_le_self 64 c.n

/-- A lane of a register ends inside the word. -/
theorem Config.lane_end {i : Nat} (hi : i < c.lanes) : i * c.n + c.n ≤ 64 := by
  have h : (i + 1) * c.n ≤ c.lanes * c.n := Nat.mul_le_mul_right _ hi
  have := c.used_le
  rw [Nat.add_mul, one_mul] at h
  omega

theorem Config.two_le_lanes (h : c.ok = true) : 2 ≤ c.lanes := by
  have := c.n_pos h
  have := c.n_le h
  exact (Nat.le_div_iff_mul_le (by omega)).2 (by omega)

theorem Config.lanes_le : c.lanes ≤ 64 := Nat.div_le_self 64 c.n

theorem Config.rmax_pos (h : c.ok = true) : 1 ≤ c.rmax := by
  have hs := ((Config.ok_iff c).1 h).2.2.1
  have := c.two_le_lanes h
  unfold Config.rmax
  cases hst : c.storage with
  | fixed gc =>
    simp [hst, Storage.ok] at hs
    exact (Nat.le_div_iff_mul_le (by omega)).2 (by omega)
  | grow n =>
    simp [hst, Storage.ok] at hs
    exact hs.1

theorem Config.rmax_le (h : c.ok = true) : c.rmax ≤ 65536 := by
  have hs := ((Config.ok_iff c).1 h).2.2.1
  unfold Config.rmax
  cases hst : c.storage <;> simp_all [Storage.ok]

theorem Config.nb_pos (h : c.ok = true) : 1 ≤ c.nb := by
  have := ((Config.ok_iff c).1 h).2.2.2
  unfold Config.nb ceilDiv
  omega

theorem Config.nb_le (h : c.ok = true) : c.nb ≤ 65536 := by
  have := ((Config.ok_iff c).1 h).2.2.2
  unfold Config.nb ceilDiv
  omega

theorem Config.resetGlen_le : c.resetGlen ≤ c.rmax := by
  unfold Config.resetGlen
  cases c.storage <;> simp

end Sys2Proof
end

