-- ==== Sys2Proof/Laws/Lanes.lean ====
section
/-!
SUPPORT. The packed register bit by bit (00_scope.md R6, R9, R10): one lemma per word function, so that no later proof unfolds a mask or a shift.
-/

namespace Sys2Proof.Machine

/-! ## Words and bit search -/

theorem word_bit (n b : Nat) : (word n).getLsbD b = (decide (b < 64) && n.testBit b) := by
  simp [word, BitVec.getLsbD_ofNat]

theorem word_toNat {n : Nat} (h : n < 18446744073709551616) : (word n).toNat = n := by
  rw [word, BitVec.toNat_ofNat, Nat.mod_eq_of_lt h]

/-- The shifted word is 0 exactly when every bit from the shift on is 0. -/
theorem shiftRight_eq_zero_iff (w : Word) (u : Nat) : w >>> u = 0#64 ↔ ∀ b, u ≤ b → w.getLsbD b = false := by
  constructor
  · intro h b hb
    have := congrArg (fun x => x.getLsbD (b - u)) h
    simpa [BitVec.getLsbD_ushiftRight, show u + (b - u) = b by omega] using this
  · intro h
    apply BitVec.eq_of_getLsbD_eq
    intro i _
    simp [h (u + i) (by omega)]

/-- `ctz` answers the lowest 1 bit. -/
theorem ctz_eq_some {w : Word} {b : Nat} : ctz w = some b ↔ b < 64 ∧ w.getLsbD b = true ∧ ∀ j, j < b → w.getLsbD j = false := by
  simp only [ctz, scan, List.find?_range_eq_some, List.mem_range, Bool.not_eq_true']
  tauto

/-- `ctz` answers nothing exactly for the word 0. -/
theorem ctz_eq_none {w : Word} : ctz w = none ↔ w = 0#64 := by
  constructor
  · intro h
    apply BitVec.eq_of_getLsbD_eq
    intro i hi
    have : ∀ b, b < 64 → w.getLsbD b = false := by simpa [ctz, scan] using h
    simp [this i hi]
  · rintro rfl
    simp [ctz, scan]

/-- `popcount` is 0 exactly for the word 0. -/
theorem popcount_eq_zero {w : Word} : popcount w = 0 ↔ w = 0#64 := by
  rw [popcount, List.countP_eq_zero]
  constructor
  · intro h
    apply BitVec.eq_of_getLsbD_eq
    intro i hi
    simpa using h i (by simpa using hi)
  · rintro rfl
    simp

theorem flaggedLane_eq_none {c : Config} {m : Word} : flaggedLane c m = none ↔ m = 0#64 := by
  simp [flaggedLane, ctz_eq_none]

/-! ## Lanes -/

variable {c : Config}

theorem lmask_bit (b : Nat) : (word c.lmask).getLsbD b = (decide (b < 64) && decide (b < c.n)) := by
  rw [word_bit, Config.lmask, Nat.testBit_two_pow_sub_one]

/-- Bit `b` of lane `i` is bit `i*N + b` of the register. -/
theorem lane_bit (h : c.n ≤ 64) (w : Word) (i b : Nat) :
    (lane c w i).getLsbD b = (decide (b < c.n) && w.getLsbD (i * c.n + b)) := by
  rw [lane, BitVec.getLsbD_and, BitVec.getLsbD_ushiftRight, lmask_bit]
  by_cases hb : b < c.n
  · simp [hb, show b < 64 by omega]
  · simp [hb]

/-- A lane as a number. -/
theorem lane_toNat (h : c.n ≤ 64) (w : Word) (i : Nat) : (lane c w i).toNat = w.toNat / 2 ^ (i * c.n) % 2 ^ c.n := by
  apply Nat.eq_of_testBit_eq
  intro b
  rw [BitVec.testBit_toNat, lane_bit h, Nat.testBit_mod_two_pow, Nat.testBit_div_two_pow, ← BitVec.testBit_toNat, Nat.add_comm]

theorem lane_lt (h : c.n ≤ 64) (w : Word) (i : Nat) : (lane c w i).toNat < 2 ^ c.n := by
  rw [lane_toNat h]
  exact Nat.mod_lt _ (by positivity)

@[simp] theorem lane_zero (i : Nat) : lane c 0#64 i = 0#64 := by simp [lane]

/-- What `setLane` does to every bit of the register. -/
theorem setLane_bit (w : Word) (i : Nat) (v : Word) (b : Nat) (hv : v.toNat < 2 ^ c.n) (hi : i * c.n + c.n ≤ 64) :
    (setLane c w i v).getLsbD b =
      if i * c.n ≤ b ∧ b < i * c.n + c.n then v.getLsbD (b - i * c.n) else w.getLsbD b := by
  rw [setLane, BitVec.getLsbD_or, BitVec.getLsbD_and, BitVec.getLsbD_not, BitVec.getLsbD_shiftLeft,
    BitVec.getLsbD_shiftLeft, lmask_bit]
  have hvb : ∀ j, c.n ≤ j → v.getLsbD j = false := by
    intro j hj
    rw [← BitVec.testBit_toNat]
    exact Nat.testBit_lt_two_pow (lt_of_lt_of_le hv (Nat.pow_le_pow_right (by omega) hj))
  by_cases h64 : b < 64
  · by_cases h1 : i * c.n ≤ b
    · by_cases h2 : b < i * c.n + c.n
      · simp [h64, h1, h2, show ¬ b < i * c.n by omega, show b - i * c.n < 64 by omega, show b - i * c.n < c.n by omega]
      · simp [h64, h1, h2, show ¬ b < i * c.n by omega, show ¬ b - i * c.n < c.n by omega,
          hvb _ (show c.n ≤ b - i * c.n by omega)]
    · simp [h64, h1, show b < i * c.n by omega]
  · have : ¬ (i * c.n ≤ b ∧ b < i * c.n + c.n) := by omega
    simp [h64, this, BitVec.getLsbD_of_ge w b (by omega)]

/-! ## The constants -/

/-- The sum `2^0 + 2^n + … + 2^((l-1)*n)`, which `ONES` is for `l = L` (00_scope.md R6). -/
def onesNat (n l : Nat) : Nat := ((List.range l).map fun i => 2 ^ (i * n)).sum

@[simp] theorem onesNat_zero (n : Nat) : onesNat n 0 = 0 := rfl

theorem onesNat_succ (n l : Nat) : onesNat n (l + 1) = onesNat n l + 2 ^ (l * n) := by
  simp [onesNat, List.range_succ]

/-- `v` repeated in `l` lanes fits `l` lanes. -/
theorem mul_onesNat_lt (n v l : Nat) (hv : v < 2 ^ n) : v * onesNat n l < 2 ^ (l * n) := by
  induction l with
  | zero => simp
  | succ l ih =>
    have : v + 1 ≤ 2 ^ n := hv
    rw [onesNat_succ, Nat.mul_add, Nat.succ_mul, pow_add]
    calc v * onesNat n l + v * 2 ^ (l * n) < 2 ^ (l * n) + v * 2 ^ (l * n) := by omega
      _ = (v + 1) * 2 ^ (l * n) := by ring
      _ ≤ 2 ^ n * 2 ^ (l * n) := Nat.mul_le_mul_right _ this
      _ = _ := by ring

/-- `v` repeated in `l` lanes, bit by bit. -/
theorem mul_onesNat_bit (n v l b : Nat) (hn : 0 < n) (hv : v < 2 ^ n) :
    (v * onesNat n l).testBit b = (decide (b < l * n) && v.testBit (b % n)) := by
  induction l with
  | zero => simp
  | succ l ih =>
    rw [onesNat_succ, Nat.mul_add, Nat.add_comm, Nat.mul_comm v (2 ^ _),
      Nat.testBit_two_pow_mul_add _ (mul_onesNat_lt n v l hv), ih, Nat.succ_mul]
    by_cases h : b < l * n
    · simp [h, show b < l * n + n by omega]
    · simp only [h, if_false]
      by_cases h2 : b < l * n + n
      · have : b % n = b - l * n := by
          obtain ⟨r, rfl⟩ : ∃ r, b = l * n + r := ⟨b - l * n, by omega⟩
          rw [Nat.add_comm, Nat.add_mul_mod_self_right, Nat.mod_eq_of_lt (by omega)]
          omega
        simp [h2, this]
      · simp [h2]
        exact Nat.testBit_lt_two_pow (lt_of_lt_of_le hv (Nat.pow_le_pow_right (by omega) (by omega)))

theorem ones_toNat (hn : 1 ≤ c.n) : c.ones.toNat = onesNat c.n c.lanes := by
  have := mul_onesNat_lt c.n 1 c.lanes (Nat.one_lt_two_pow (by omega))
  have h2 : 2 ^ (c.lanes * c.n) ≤ 2 ^ 64 := Nat.pow_le_pow_right (by omega) c.used_le
  rw [Config.ones, word, BitVec.toNat_ofNat]
  exact Nat.mod_eq_of_lt (by unfold onesNat at this; omega)

/-- `bcast` as a number: no carry leaves a lane. -/
theorem bcast_toNat (hn : 1 ≤ c.n) (h64 : c.n ≤ 64) (v : Nat) (hv : v < 2 ^ c.n) :
    (bcast c (word v)).toNat = v * onesNat c.n c.lanes := by
  have := mul_onesNat_lt c.n v c.lanes hv
  have h2 : 2 ^ (c.lanes * c.n) ≤ 2 ^ 64 := Nat.pow_le_pow_right (by omega) c.used_le
  have h3 : 2 ^ c.n ≤ 2 ^ 64 := Nat.pow_le_pow_right (by omega) h64
  rw [bcast, BitVec.toNat_mul, ones_toNat hn, word, BitVec.toNat_ofNat, Nat.mod_eq_of_lt (by omega : v < 2 ^ 64),
    Nat.mod_eq_of_lt (by omega)]

/-- Every bit of `bcast`. -/
theorem bcast_bit (hn : 1 ≤ c.n) (h64 : c.n ≤ 64) (v : Nat) (hv : v < 2 ^ c.n) (b : Nat) :
    (bcast c (word v)).getLsbD b = (decide (b < c.used) && v.testBit (b % c.n)) := by
  rw [← BitVec.testBit_toNat, bcast_toNat hn h64 v hv, mul_onesNat_bit _ _ _ _ (by omega) hv]
  rfl

/-- Every bit of `ONES`. -/
theorem ones_bit (hn : 1 ≤ c.n) (b : Nat) : c.ones.getLsbD b = (decide (b < c.used) && decide (b % c.n = 0)) := by
  have h1 : Nat.testBit 1 (b % c.n) = decide (b % c.n = 0) := by
    by_cases h : b % c.n = 0
    · simp [h]
    · rw [decide_eq_false h]
      exact Nat.testBit_lt_two_pow (Nat.one_lt_two_pow h)
  rw [← BitVec.testBit_toNat, ones_toNat hn, ← Nat.one_mul (onesNat _ _),
    mul_onesNat_bit _ _ _ _ (by omega) (Nat.one_lt_two_pow (by omega)), h1]
  rfl

/-! ## MIN and MAX -/

/-- `minUpTo` is one of the values and no value is below it. -/
theorem minUpTo_spec (f : Nat → Nat) (m : Nat) : (∃ i, i ≤ m ∧ f i = minUpTo f m) ∧ ∀ i, i ≤ m → minUpTo f m ≤ f i := by
  induction m with
  | zero => simp [minUpTo]
  | succ m ih =>
    obtain ⟨⟨i, hi, he⟩, h2⟩ := ih
    have e : minUpTo f (m + 1) = min (minUpTo f m) (f (m + 1)) := rfl
    constructor
    · rcases Nat.le_total (minUpTo f m) (f (m + 1)) with h | h
      · exact ⟨i, by omega, by omega⟩
      · exact ⟨m + 1, le_refl _, by omega⟩
    · intro j hj
      rcases Nat.lt_or_ge j (m + 1) with h | h
      · have := h2 j (by omega)
        omega
      · obtain rfl : j = m + 1 := by omega
        omega

/-- `maxUpTo` is one of the values and no value is above it. -/
theorem maxUpTo_spec (f : Nat → Nat) (m : Nat) : (∃ i, i ≤ m ∧ f i = maxUpTo f m) ∧ ∀ i, i ≤ m → f i ≤ maxUpTo f m := by
  induction m with
  | zero => simp [maxUpTo]
  | succ m ih =>
    obtain ⟨⟨i, hi, he⟩, h2⟩ := ih
    have e : maxUpTo f (m + 1) = max (maxUpTo f m) (f (m + 1)) := rfl
    constructor
    · rcases Nat.le_total (maxUpTo f m) (f (m + 1)) with h | h
      · exact ⟨m + 1, le_refl _, by omega⟩
      · exact ⟨i, by omega, by omega⟩
    · intro j hj
      rcases Nat.lt_or_ge j (m + 1) with h | h
      · have := h2 j (by omega)
        omega
      · obtain rfl : j = m + 1 := by omega
        omega

end Sys2Proof.Machine
end

