-- ==== Sys2Proof/Laws/Buckets.lean ====
section
/-!
SUPPORT. The bucket bit by bit (00_scope.md R11): one lemma per bucket function, and what adding to and removing from a bucket do (43_bucketed_set.md R148, R149).
-/

namespace Sys2Proof.Machine

theorem bLaneMask_bit (b : Nat) : bLaneMask.getLsbD b = decide (b < 11) := by
  rw [show bLaneMask = word (2 ^ 11 - 1) from rfl, word_bit, Nat.testBit_two_pow_sub_one]
  by_cases h : b < 11 <;> simp [h]
  omega

theorem bcount_lt (b : Word) : bcount b < 4 := (b.extractLsb' 33 2).isLt

/-- Bit `p` of the count is bit `33 + p` of the bucket. -/
theorem bcount_bit (b : Word) (p : Nat) : (bcount b).testBit p = (decide (p < 2) && b.getLsbD (33 + p)) := by
  rw [bcount, BitVec.testBit_toNat, BitVec.getLsbD_extractLsb']

/-- Bit `p` of lane `i` is bit `11*i + p` of the bucket. -/
theorem blane_bit (b : Word) (i p : Nat) : (blane b i).getLsbD p = (decide (p < 11) && b.getLsbD (11 * i + p)) := by
  rw [blane, BitVec.getLsbD_and, BitVec.getLsbD_ushiftRight, bLaneMask_bit, Bool.and_comm]

theorem blane_lt (b : Word) (i : Nat) : (blane b i).toNat < 2048 := by
  apply Nat.lt_pow_two_of_testBit (n := 11)
  intro j hj
  rw [BitVec.testBit_toNat, blane_bit]
  simp [show ¬ j < 11 by omega]

theorem blane_toNat (b : Word) (i : Nat) : (blane b i).toNat = b.toNat / 2 ^ (11 * i) % 2048 := by
  apply Nat.eq_of_testBit_eq
  intro p
  rw [BitVec.testBit_toNat, blane_bit, show 2048 = 2 ^ 11 from rfl, Nat.testBit_mod_two_pow, Nat.testBit_div_two_pow,
    BitVec.testBit_toNat, Nat.add_comm]

/-- The guard bits `CM(n)` selects. -/
theorem countMask_bit (n q : Nat) (hn : n < 4) :
    (countMask n).getLsbD q = true ↔ (0 < n ∧ q = 10) ∨ (1 < n ∧ q = 21) ∨ (2 < n ∧ q = 32) := by
  have h : ∀ n, n < 4 → ∀ q, q < 64 →
      ((countMask n).getLsbD q = true ↔ (0 < n ∧ q = 10) ∨ (1 < n ∧ q = 21) ∨ (2 < n ∧ q = 32)) := by decide
  by_cases hq : q < 64
  · exact h n hn q hq
  · rw [BitVec.getLsbD_of_ge _ _ (by omega)]
    simp
    omega

/-! ## Writing a lane -/

theorem bsetLane_bit (b : Word) (i : Nat) (r : Word) (p : Nat) (hi : i < 3) (hr : r.toNat < 2048) :
    (bsetLane b i r).getLsbD p = if 11 * i ≤ p ∧ p < 11 * i + 11 then r.getLsbD (p - 11 * i) else b.getLsbD p := by
  rw [bsetLane, BitVec.getLsbD_or, BitVec.getLsbD_and, BitVec.getLsbD_not, BitVec.getLsbD_shiftLeft,
    BitVec.getLsbD_shiftLeft, bLaneMask_bit]
  have hrb : ∀ j, 11 ≤ j → r.getLsbD j = false := by
    intro j hj
    rw [← BitVec.testBit_toNat]
    exact Nat.testBit_lt_two_pow (lt_of_lt_of_le (show r.toNat < 2 ^ 11 from hr) (Nat.pow_le_pow_right (by omega) hj))
  by_cases h64 : p < 64
  · by_cases h1 : 11 * i ≤ p
    · by_cases h2 : p < 11 * i + 11
      · simp [h64, h1, h2, show ¬ p < 11 * i by omega, show p - 11 * i < 64 by omega, show p - 11 * i < 11 by omega]
      · simp [h64, h1, h2, show ¬ p < 11 * i by omega, show ¬ p - 11 * i < 11 by omega,
          hrb _ (show 11 ≤ p - 11 * i by omega)]
    · simp [h64, h1, show p < 11 * i by omega]
  · have : ¬ (11 * i ≤ p ∧ p < 11 * i + 11) := by omega
    simp [h64, this, BitVec.getLsbD_of_ge b p (by omega)]

theorem blane_bsetLane (b : Word) (i : Nat) (r : Word) (j : Nat) (hi : i < 3) (hr : r.toNat < 2048) :
    blane (bsetLane b i r) j = if j = i then r else blane b j := by
  apply BitVec.eq_of_getLsbD_eq
  intro p hp
  rw [blane_bit, bsetLane_bit _ _ _ _ hi hr]
  by_cases hp11 : p < 11
  · by_cases h : j = i
    · subst h
      simp [hp11]
    · simp [hp11, h, blane_bit, show ¬ (11 * i ≤ 11 * j + p ∧ 11 * j + p < 11 * i + 11) by omega]
  · by_cases h : j = i
    · have : r.getLsbD p = false := by
        rw [← BitVec.testBit_toNat]
        exact Nat.testBit_lt_two_pow
          (lt_of_lt_of_le (show r.toNat < 2 ^ 11 from hr) (Nat.pow_le_pow_right (by omega) (by omega)))
      simp [hp11, h, this]
    · simp [hp11, h, blane_bit]

theorem bcount_bsetLane (b : Word) (i : Nat) (r : Word) (hi : i < 3) (hr : r.toNat < 2048) :
    bcount (bsetLane b i r) = bcount b := by
  apply Nat.eq_of_testBit_eq
  intro p
  rw [bcount_bit, bcount_bit, bsetLane_bit _ _ _ _ hi hr]
  simp [show ¬ (11 * i ≤ 33 + p ∧ 33 + p < 11 * i + 11) by omega]

theorem bsetLane_shiftRight (b : Word) (i : Nat) (r : Word) (hi : i < 3) (hr : r.toNat < 2048) :
    bsetLane b i r >>> 35 = b >>> 35 := by
  apply BitVec.eq_of_getLsbD_eq
  intro p _
  rw [BitVec.getLsbD_ushiftRight, BitVec.getLsbD_ushiftRight, bsetLane_bit _ _ _ _ hi hr]
  simp [show ¬ (11 * i ≤ 35 + p ∧ 35 + p < 11 * i + 11) by omega]

/-! ## Writing the count -/

theorem bsetCount_bit (b : Word) (n p : Nat) (hn : n < 4) :
    (bsetCount b n).getLsbD p = if p = 33 ∨ p = 34 then n.testBit (p - 33) else b.getLsbD p := by
  have three : ∀ q, (3#64).getLsbD q = decide (q < 2) := by
    intro q
    rw [show 3#64 = word (2 ^ 2 - 1) from rfl, word_bit, Nat.testBit_two_pow_sub_one]
    by_cases h : q < 2 <;> simp [h]
    omega
  rw [bsetCount, BitVec.getLsbD_or, BitVec.getLsbD_and, BitVec.getLsbD_not, BitVec.getLsbD_shiftLeft,
    BitVec.getLsbD_shiftLeft, three, word_bit]
  have hrb : ∀ j, 2 ≤ j → n.testBit j = false := by
    intro j hj
    exact Nat.testBit_lt_two_pow (lt_of_lt_of_le (show n < 2 ^ 2 from hn) (Nat.pow_le_pow_right (by omega) hj))
  by_cases h64 : p < 64
  · by_cases h1 : p = 33 ∨ p = 34
    · rcases h1 with rfl | rfl <;> simp
    · by_cases h2 : p < 33
      · simp [h64, h1, h2]
      · simp [h64, h1, h2, show ¬ p - 33 < 2 by omega, hrb _ (show 2 ≤ p - 33 by omega)]
  · have : ¬ (p = 33 ∨ p = 34) := by omega
    simp [h64, this, BitVec.getLsbD_of_ge b p (by omega)]

theorem blane_bsetCount (b : Word) (n j : Nat) (hn : n < 4) (hj : j < 3) : blane (bsetCount b n) j = blane b j := by
  apply BitVec.eq_of_getLsbD_eq
  intro p _
  rw [blane_bit, blane_bit, bsetCount_bit _ _ _ hn]
  by_cases hp11 : p < 11
  · simp [hp11, show ¬ (11 * j + p = 33 ∨ 11 * j + p = 34) by omega]
  · simp [hp11]

theorem bcount_bsetCount (b : Word) (n : Nat) (hn : n < 4) : bcount (bsetCount b n) = n := by
  apply Nat.eq_of_testBit_eq
  intro p
  rw [bcount_bit, bsetCount_bit _ _ _ hn]
  by_cases hp : p < 2
  · rw [if_pos (by omega), Nat.add_sub_cancel_left]
    simp [hp]
  · simp [hp]
    exact Nat.testBit_lt_two_pow (lt_of_lt_of_le (show n < 2 ^ 2 from hn) (Nat.pow_le_pow_right (by omega) (by omega)))

theorem bsetCount_shiftRight (b : Word) (n : Nat) (hn : n < 4) : bsetCount b n >>> 35 = b >>> 35 := by
  apply BitVec.eq_of_getLsbD_eq
  intro p _
  rw [BitVec.getLsbD_ushiftRight, BitVec.getLsbD_ushiftRight, bsetCount_bit _ _ _ hn]
  simp [show ¬ (35 + p = 33 ∨ 35 + p = 34) by omega]

/-! ## Adding and removing -/

/-- Everything `bucketAdd` does to a bucket with room. -/
theorem bucketAdd_spec (b r : Word) (hr : r.toNat < 2048) (hc : bcount b < 3) :
    bcount (bucketAdd b r) = bcount b + 1 ∧ blane (bucketAdd b r) (bcount b) = r ∧
      (∀ i, i < 3 → i ≠ bcount b → blane (bucketAdd b r) i = blane b i) ∧ bucketAdd b r >>> 35 = b >>> 35 := by
  unfold bucketAdd
  refine ⟨bcount_bsetCount _ _ (by omega), ?_, fun i hi hne => ?_, ?_⟩
  · rw [blane_bsetCount _ _ _ (by omega) hc, blane_bsetLane _ _ _ _ hc hr, if_pos rfl]
  · rw [blane_bsetCount _ _ _ (by omega) hi, blane_bsetLane _ _ _ _ hc hr, if_neg hne]
  · rw [bsetCount_shiftRight _ _ (by omega), bsetLane_shiftRight _ _ _ hc hr]

/-- Everything `bucketRemove` does to a bucket with lane `i` occupied. -/
theorem bucketRemove_spec (b : Word) (i : Nat) (hi : i < bcount b) :
    bcount (bucketRemove b i) + 1 = bcount b ∧
      (∀ j, j < 3 → blane (bucketRemove b i) j =
        if j = bcount b - 1 then 0#64 else if j = i then blane b (bcount b - 1) else blane b j) ∧
      bucketRemove b i >>> 35 = b >>> 35 := by
  have hc := bcount_lt b
  have hl := blane_lt b (bcount b - 1)
  unfold bucketRemove
  refine ⟨?_, fun j hj => ?_, ?_⟩
  · rw [bcount_bsetCount _ _ (by omega)]
    omega
  · rw [blane_bsetCount _ _ _ (by omega) hj, blane_bsetLane _ _ _ _ (by omega) (by simp),
      blane_bsetLane _ _ _ _ (by omega) hl]
  · rw [bsetCount_shiftRight _ _ (by omega), bsetLane_shiftRight _ _ _ (by omega) (by simp),
      bsetLane_shiftRight _ _ _ (by omega) hl]

end Sys2Proof.Machine
end

