-- ==== Sys2Proof/Laws/Encoding.lean ====
section
/-!
SUPPORT. The fields of a command word and the packed word as natural numbers, with plain literals, so that arithmetic over them is linear.
-/

namespace Sys2Proof

theorem opField_eq (cw : Word) : opField cw = cw.toNat % 256 := by
  rw [opField, BitVec.extractLsb'_toNat, Nat.shiftRight_zero]

theorem lnField_eq (cw : Word) : lnField cw = cw.toNat / 256 % 256 := by
  rw [lnField, BitVec.extractLsb'_toNat, Nat.shiftRight_eq_div_pow]

theorem rkField_eq (cw : Word) : rkField cw = cw.toNat / 65536 % 65536 := by
  rw [rkField, BitVec.extractLsb'_toNat, Nat.shiftRight_eq_div_pow]

theorem valField_eq (cw : Word) : valField cw = cw.toNat / 4294967296 % 4294967296 := by
  rw [valField, BitVec.extractLsb'_toNat, Nat.shiftRight_eq_div_pow]

/-- The packed word as a number, when every operand fits its field. -/
theorem packFields_toNat {op ln rk val : Nat} (ho : op < 256) (hl : ln < 256) (hr : rk < 65536) (hv : val < 4294967296) :
    (packFields op ln rk val).toNat = val * 4294967296 + rk * 65536 + ln * 256 + op := by
  unfold packFields word
  rw [BitVec.toNat_ofNat]
  norm_num
  omega

end Sys2Proof
end

