-- ==== Sys2Proof/Laws/State.lean ====
section
/-!
SUPPORT. The small lemmas of the state updates: one per field per update, so that no later proof unfolds a record update.
-/

namespace Sys2Proof.Machine

variable (s : State)

/-! ## `respond` -/

@[simp] theorem State.respond_cfg (st : BitVec 8) (res : Word) : (s.respond st res).cfg = s.cfg := rfl

@[simp] theorem State.respond_r (st : BitVec 8) (res : Word) : (s.respond st res).r = s.r := rfl

@[simp] theorem State.respond_glen (st : BitVec 8) (res : Word) : (s.respond st res).glen = s.glen := rfl

@[simp] theorem State.respond_gcnt (st : BitVec 8) (res : Word) : (s.respond st res).gcnt = s.gcnt := rfl

@[simp] theorem State.respond_lo (st : BitVec 8) (res : Word) : (s.respond st res).lo = s.lo := rfl

@[simp] theorem State.respond_hi (st : BitVec 8) (res : Word) : (s.respond st res).hi = s.hi := rfl

@[simp] theorem State.respond_flt (st : BitVec 8) (res : Word) : (s.respond st res).flt = s.flt := rfl

@[simp] theorem State.respond_fcause (st : BitVec 8) (res : Word) : (s.respond st res).fcause = s.fcause := rfl

@[simp] theorem State.respond_fcmd (st : BitVec 8) (res : Word) : (s.respond st res).fcmd = s.fcmd := rfl

@[simp] theorem State.respond_pending (st : BitVec 8) (res : Word) : (s.respond st res).pending = s.pending := rfl

@[simp] theorem State.respond_responses (st : BitVec 8) (res : Word) : (s.respond st res).responses = s.responses ++ [⟨st, res⟩] := rfl

/-! ## `complete` -/

@[simp] theorem State.complete_cfg (res : Word) : (s.complete res).cfg = s.cfg := rfl

@[simp] theorem State.complete_r (res : Word) : (s.complete res).r = s.r := rfl

@[simp] theorem State.complete_glen (res : Word) : (s.complete res).glen = s.glen := rfl

@[simp] theorem State.complete_gcnt (res : Word) : (s.complete res).gcnt = s.gcnt := rfl

@[simp] theorem State.complete_lo (res : Word) : (s.complete res).lo = s.lo := rfl

@[simp] theorem State.complete_hi (res : Word) : (s.complete res).hi = s.hi := rfl

@[simp] theorem State.complete_flt (res : Word) : (s.complete res).flt = s.flt := rfl

@[simp] theorem State.complete_fcause (res : Word) : (s.complete res).fcause = s.fcause := rfl

@[simp] theorem State.complete_fcmd (res : Word) : (s.complete res).fcmd = s.fcmd := rfl

@[simp] theorem State.complete_pending (res : Word) : (s.complete res).pending = s.pending := rfl

@[simp] theorem State.complete_responses (res : Word) : (s.complete res).responses = s.responses ++ [⟨0#8, res⟩] := rfl

/-! ## `respondHalted` -/

@[simp] theorem State.respondHalted_cfg : (s.respondHalted).cfg = s.cfg := rfl

@[simp] theorem State.respondHalted_r : (s.respondHalted).r = s.r := rfl

@[simp] theorem State.respondHalted_glen : (s.respondHalted).glen = s.glen := rfl

@[simp] theorem State.respondHalted_gcnt : (s.respondHalted).gcnt = s.gcnt := rfl

@[simp] theorem State.respondHalted_lo : (s.respondHalted).lo = s.lo := rfl

@[simp] theorem State.respondHalted_hi : (s.respondHalted).hi = s.hi := rfl

@[simp] theorem State.respondHalted_flt : (s.respondHalted).flt = s.flt := rfl

@[simp] theorem State.respondHalted_fcause : (s.respondHalted).fcause = s.fcause := rfl

@[simp] theorem State.respondHalted_fcmd : (s.respondHalted).fcmd = s.fcmd := rfl

@[simp] theorem State.respondHalted_pending : (s.respondHalted).pending = s.pending := rfl

@[simp] theorem State.respondHalted_responses : (s.respondHalted).responses = s.responses ++ [⟨0xFF#8, 0#64⟩] := rfl

/-! ## `raise` -/

@[simp] theorem State.raise_cfg (c : Cause) (cw : Word) : (s.raise c cw).cfg = s.cfg := rfl

@[simp] theorem State.raise_r (c : Cause) (cw : Word) : (s.raise c cw).r = s.r := rfl

@[simp] theorem State.raise_glen (c : Cause) (cw : Word) : (s.raise c cw).glen = s.glen := rfl

@[simp] theorem State.raise_gcnt (c : Cause) (cw : Word) : (s.raise c cw).gcnt = s.gcnt := rfl

@[simp] theorem State.raise_lo (c : Cause) (cw : Word) : (s.raise c cw).lo = s.lo := rfl

@[simp] theorem State.raise_hi (c : Cause) (cw : Word) : (s.raise c cw).hi = s.hi := rfl

@[simp] theorem State.raise_flt (c : Cause) (cw : Word) : (s.raise c cw).flt = true := rfl

@[simp] theorem State.raise_fcause (c : Cause) (cw : Word) : (s.raise c cw).fcause = c.code := rfl

@[simp] theorem State.raise_fcmd (c : Cause) (cw : Word) : (s.raise c cw).fcmd = cw := rfl

@[simp] theorem State.raise_pending (c : Cause) (cw : Word) : (s.raise c cw).pending = s.pending := rfl

@[simp] theorem State.raise_responses (c : Cause) (cw : Word) : (s.raise c cw).responses = s.responses ++ [⟨c.code, 0#64⟩] := rfl

/-! ## `applyReset` -/

@[simp] theorem State.applyReset_cfg : (s.applyReset).cfg = s.cfg := rfl

@[simp] theorem State.applyReset_r : (s.applyReset).r = [] := rfl

@[simp] theorem State.applyReset_glen : (s.applyReset).glen = BitVec.ofNat 17 s.cfg.resetGlen := rfl

@[simp] theorem State.applyReset_gcnt : (s.applyReset).gcnt = 0#32 := rfl

@[simp] theorem State.applyReset_lo : (s.applyReset).lo = [] := rfl

@[simp] theorem State.applyReset_hi : (s.applyReset).hi = [] := rfl

@[simp] theorem State.applyReset_flt : (s.applyReset).flt = false := rfl

@[simp] theorem State.applyReset_fcause : (s.applyReset).fcause = 0#8 := rfl

@[simp] theorem State.applyReset_fcmd : (s.applyReset).fcmd = 0#64 := rfl

@[simp] theorem State.applyReset_pending : (s.applyReset).pending = s.pending := rfl

@[simp] theorem State.applyReset_responses : (s.applyReset).responses = s.responses := rfl

/-! ## `setReg` -/

@[simp] theorem State.setReg_cfg (k : Nat) (w : Word) : (s.setReg k w).cfg = s.cfg := rfl

@[simp] theorem State.setReg_r (k : Nat) (w : Word) : (s.setReg k w).r = s.r.write k w := rfl

@[simp] theorem State.setReg_glen (k : Nat) (w : Word) : (s.setReg k w).glen = s.glen := rfl

@[simp] theorem State.setReg_gcnt (k : Nat) (w : Word) : (s.setReg k w).gcnt = s.gcnt := rfl

@[simp] theorem State.setReg_lo (k : Nat) (w : Word) : (s.setReg k w).lo = s.lo := rfl

@[simp] theorem State.setReg_hi (k : Nat) (w : Word) : (s.setReg k w).hi = s.hi := rfl

@[simp] theorem State.setReg_flt (k : Nat) (w : Word) : (s.setReg k w).flt = s.flt := rfl

@[simp] theorem State.setReg_fcause (k : Nat) (w : Word) : (s.setReg k w).fcause = s.fcause := rfl

@[simp] theorem State.setReg_fcmd (k : Nat) (w : Word) : (s.setReg k w).fcmd = s.fcmd := rfl

@[simp] theorem State.setReg_pending (k : Nat) (w : Word) : (s.setReg k w).pending = s.pending := rfl

@[simp] theorem State.setReg_responses (k : Nat) (w : Word) : (s.setReg k w).responses = s.responses := rfl

/-! ## `setBucket` -/

@[simp] theorem State.setBucket_cfg (h : Half) (k : Nat) (b : Word) : (s.setBucket h k b).cfg = s.cfg := by cases h <;> rfl

@[simp] theorem State.setBucket_r (h : Half) (k : Nat) (b : Word) : (s.setBucket h k b).r = s.r := by cases h <;> rfl

@[simp] theorem State.setBucket_glen (h : Half) (k : Nat) (b : Word) : (s.setBucket h k b).glen = s.glen := by cases h <;> rfl

@[simp] theorem State.setBucket_gcnt (h : Half) (k : Nat) (b : Word) : (s.setBucket h k b).gcnt = s.gcnt := by cases h <;> rfl

@[simp] theorem State.setBucket_flt (h : Half) (k : Nat) (b : Word) : (s.setBucket h k b).flt = s.flt := by cases h <;> rfl

@[simp] theorem State.setBucket_fcause (h : Half) (k : Nat) (b : Word) : (s.setBucket h k b).fcause = s.fcause := by cases h <;> rfl

@[simp] theorem State.setBucket_fcmd (h : Half) (k : Nat) (b : Word) : (s.setBucket h k b).fcmd = s.fcmd := by cases h <;> rfl

@[simp] theorem State.setBucket_pending (h : Half) (k : Nat) (b : Word) : (s.setBucket h k b).pending = s.pending := by cases h <;> rfl

@[simp] theorem State.setBucket_responses (h : Half) (k : Nat) (b : Word) : (s.setBucket h k b).responses = s.responses := by cases h <;> rfl

@[simp] theorem State.setBucket_lo_lo (k : Nat) (b : Word) : (s.setBucket .lo k b).lo = s.lo.write k b := rfl

@[simp] theorem State.setBucket_lo_hi (k : Nat) (b : Word) : (s.setBucket .lo k b).hi = s.hi := rfl

@[simp] theorem State.setBucket_hi_lo (k : Nat) (b : Word) : (s.setBucket .hi k b).lo = s.lo := rfl

@[simp] theorem State.setBucket_hi_hi (k : Nat) (b : Word) : (s.setBucket .hi k b).hi = s.hi.write k b := rfl

/-! ## `present` -/

@[simp] theorem State.present_cfg (cw : Word) : (s.present cw).cfg = s.cfg := rfl

@[simp] theorem State.present_r (cw : Word) : (s.present cw).r = s.r := rfl

@[simp] theorem State.present_glen (cw : Word) : (s.present cw).glen = s.glen := rfl

@[simp] theorem State.present_gcnt (cw : Word) : (s.present cw).gcnt = s.gcnt := rfl

@[simp] theorem State.present_lo (cw : Word) : (s.present cw).lo = s.lo := rfl

@[simp] theorem State.present_hi (cw : Word) : (s.present cw).hi = s.hi := rfl

@[simp] theorem State.present_flt (cw : Word) : (s.present cw).flt = s.flt := rfl

@[simp] theorem State.present_fcause (cw : Word) : (s.present cw).fcause = s.fcause := rfl

@[simp] theorem State.present_fcmd (cw : Word) : (s.present cw).fcmd = s.fcmd := rfl

@[simp] theorem State.present_pending (cw : Word) : (s.present cw).pending = .command cw :: s.pending := rfl

@[simp] theorem State.present_responses (cw : Word) : (s.present cw).responses = s.responses := rfl

/-! ## `resetWith` -/

@[simp] theorem State.resetWith_cfg (c : Config) : (State.resetWith c).cfg = c := rfl

@[simp] theorem State.resetWith_r (c : Config) : (State.resetWith c).r = [] := rfl

@[simp] theorem State.resetWith_glen (c : Config) : (State.resetWith c).glen = BitVec.ofNat 17 c.resetGlen := rfl

@[simp] theorem State.resetWith_gcnt (c : Config) : (State.resetWith c).gcnt = 0#32 := rfl

@[simp] theorem State.resetWith_lo (c : Config) : (State.resetWith c).lo = [] := rfl

@[simp] theorem State.resetWith_hi (c : Config) : (State.resetWith c).hi = [] := rfl

@[simp] theorem State.resetWith_flt (c : Config) : (State.resetWith c).flt = false := rfl

@[simp] theorem State.resetWith_fcause (c : Config) : (State.resetWith c).fcause = 0#8 := rfl

@[simp] theorem State.resetWith_fcmd (c : Config) : (State.resetWith c).fcmd = 0#64 := rfl

@[simp] theorem State.resetWith_pending (c : Config) : (State.resetWith c).pending = [] := rfl

@[simp] theorem State.resetWith_responses (c : Config) : (State.resetWith c).responses = [] := rfl

/-! ## Registers and buckets through an update -/

@[simp] theorem State.reg_respond (st : BitVec 8) (res : Word) (k : Nat) : (s.respond st res).reg k = s.reg k := rfl

@[simp] theorem State.reg_complete (res : Word) (k : Nat) : (s.complete res).reg k = s.reg k := rfl

@[simp] theorem State.reg_raise (c : Cause) (cw : Word) (k : Nat) : (s.raise c cw).reg k = s.reg k := rfl

@[simp] theorem State.reg_setBucket (h : Half) (i : Nat) (b : Word) (k : Nat) : (s.setBucket h i b).reg k = s.reg k := by
  cases h <;> rfl

@[simp] theorem State.bucket_respond (st : BitVec 8) (res : Word) (h : Half) (k : Nat) :
    (s.respond st res).bucket h k = s.bucket h k := rfl

@[simp] theorem State.bucket_complete (res : Word) (h : Half) (k : Nat) : (s.complete res).bucket h k = s.bucket h k := rfl

@[simp] theorem State.bucket_raise (c : Cause) (cw : Word) (h : Half) (k : Nat) : (s.raise c cw).bucket h k = s.bucket h k := rfl

@[simp] theorem State.bucket_setReg (i : Nat) (w : Word) (h : Half) (k : Nat) : (s.setReg i w).bucket h k = s.bucket h k := rfl

@[simp] theorem State.reg_applyReset (k : Nat) : s.applyReset.reg k = 0#64 := rfl

@[simp] theorem State.bucket_applyReset (h : Half) (k : Nat) : s.applyReset.bucket h k = 0#64 := by cases h <;> rfl

@[simp] theorem State.reg_resetWith (c : Config) (k : Nat) : (State.resetWith c).reg k = 0#64 := rfl

@[simp] theorem State.bucket_resetWith (c : Config) (h : Half) (k : Nat) : (State.resetWith c).bucket h k = 0#64 := by cases h <;> rfl

end Sys2Proof.Machine
end

