-- ==== Sys2Proof/Laws/Memory.lean ====
section
/-!
SUPPORT. The laws of the word arrays: a read after a write, and that a write keeps the canonical form and the bounds.
-/

namespace Sys2Proof.Machine

@[simp] theorem Memory.read_nil (k : Nat) : Memory.read [] k = 0#64 := rfl

theorem Memory.read_cons (a : Nat) (w : Word) (rest : Memory) (k : Nat) :
    Memory.read ((a, w) :: rest) k = if a = k then w else Memory.read rest k := rfl

theorem Memory.erase_cons (a : Nat) (w : Word) (rest : Memory) (k : Nat) :
    Memory.erase ((a, w) :: rest) k = if a = k then Memory.erase rest k else (a, w) :: Memory.erase rest k := by
  by_cases h : a = k <;> simp [Memory.erase, h]

theorem Memory.read_erase (m : Memory) (k j : Nat) : (m.erase k).read j = if j = k then 0#64 else m.read j := by
  induction m with
  | nil => simp [Memory.erase]
  | cons cell rest ih =>
    obtain ⟨a, w⟩ := cell
    rw [Memory.erase_cons]
    by_cases hak : a = k <;> by_cases hjk : j = k <;> by_cases haj : a = j <;> simp_all [Memory.read_cons]

theorem Memory.not_mem_erase (m : Memory) (k : Nat) : ∀ cell ∈ m.erase k, cell.1 ≠ k := by
  simp [Memory.erase]

theorem Memory.read_insert (m : Memory) (k : Nat) (w : Word) (j : Nat) (h : ∀ cell ∈ m, cell.1 ≠ k) :
    (m.insert k w).read j = if j = k then w else m.read j := by
  induction m with
  | nil => simp only [Memory.insert, Memory.read_cons, Memory.read_nil, eq_comm (a := k)]
  | cons cell rest ih =>
    obtain ⟨a, x⟩ := cell
    have ha : a ≠ k := h (a, x) (by simp)
    have ih := ih fun c hc => h c (by simp [hc])
    unfold Memory.insert
    split
    · simp only [Memory.read_cons, eq_comm (a := k)]
    · simp only [Memory.read_cons, ih]
      by_cases haj : a = j
      · simp [haj, show j ≠ k from haj ▸ ha]
      · simp [haj]

/-- What a write does to a read: the written index reads the written word, every other index reads as before. -/
theorem Memory.read_write (m : Memory) (k : Nat) (w : Word) (j : Nat) :
    (m.write k w).read j = if j = k then w else m.read j := by
  unfold Memory.write
  split
  · next h => simp only [Memory.read_erase, h, unlistedWord]
  · rw [Memory.read_insert _ _ _ _ (Memory.not_mem_erase m k), Memory.read_erase]
    by_cases h : j = k <;> simp [h]

@[simp] theorem Memory.read_write_same (m : Memory) (k : Nat) (w : Word) : (m.write k w).read k = w := by
  simp [Memory.read_write]

theorem Memory.read_write_other (m : Memory) {k j : Nat} (w : Word) (h : j ≠ k) : (m.write k w).read j = m.read j := by
  simp [Memory.read_write, h]

/-! ## The canonical form and the bounds -/

theorem Memory.wf_cons (a : Nat) (w : Word) (rest : Memory) :
    Memory.wf ((a, w) :: rest) = true ↔ w ≠ 0#64 ∧ (∀ cell ∈ rest, a < cell.1) ∧ Memory.wf rest = true := by
  simp only [Memory.wf, unlistedWord, Bool.and_eq_true, bne_iff_ne, decide_eq_true_eq, List.all_eq_true, and_assoc]

theorem Memory.mem_insert (m : Memory) (k : Nat) (w : Word) (cell : Nat × Word) :
    cell ∈ m.insert k w ↔ cell = (k, w) ∨ cell ∈ m := by
  induction m with
  | nil => simp [Memory.insert]
  | cons c rest ih =>
    obtain ⟨a, x⟩ := c
    by_cases h : k < a <;> simp [Memory.insert, h, ih, or_left_comm]

theorem Memory.mem_erase (m : Memory) (k : Nat) (cell : Nat × Word) : cell ∈ m.erase k ↔ cell ∈ m ∧ cell.1 ≠ k := by
  simp [Memory.erase]

theorem Memory.wf_erase (m : Memory) (k : Nat) (h : m.wf = true) : (m.erase k).wf = true := by
  induction m with
  | nil => rfl
  | cons c rest ih =>
    obtain ⟨a, x⟩ := c
    rw [Memory.wf_cons] at h
    rw [Memory.erase_cons]
    split
    · exact ih h.2.2
    · exact (Memory.wf_cons ..).2 ⟨h.1, fun cell hc => h.2.1 cell ((Memory.mem_erase ..).1 hc).1, ih h.2.2⟩

theorem Memory.wf_insert (m : Memory) (k : Nat) (w : Word) (h : m.wf = true) (hk : ∀ cell ∈ m, cell.1 ≠ k) (hw : w ≠ 0#64) :
    (m.insert k w).wf = true := by
  induction m with
  | nil => exact (Memory.wf_cons ..).2 ⟨hw, by simp, rfl⟩
  | cons c rest ih =>
    obtain ⟨a, x⟩ := c
    have h' := (Memory.wf_cons ..).1 h
    have hak : a ≠ k := hk (a, x) (by simp)
    unfold Memory.insert
    split
    · next hlt =>
      refine (Memory.wf_cons ..).2 ⟨hw, fun cell hc => ?_, h⟩
      rcases List.mem_cons.1 hc with rfl | hc
      · exact hlt
      · exact lt_trans hlt (h'.2.1 cell hc)
    · next hge =>
      refine (Memory.wf_cons ..).2 ⟨h'.1, fun cell hc => ?_, ih h'.2.2 fun cell hc => hk cell (by simp [hc])⟩
      rcases (Memory.mem_insert ..).1 hc with rfl | hc
      · show a < k
        omega
      · exact h'.2.1 cell hc

/-- Every write keeps the canonical form. -/
theorem Memory.wf_write (m : Memory) (k : Nat) (w : Word) (h : m.wf = true) : (m.write k w).wf = true := by
  unfold Memory.write
  split
  · exact Memory.wf_erase m k h
  · next hw => exact Memory.wf_insert _ _ _ (Memory.wf_erase m k h) (Memory.not_mem_erase m k) hw

theorem Memory.within_iff (n : Nat) (m : Memory) : m.within n = true ↔ ∀ cell ∈ m, cell.1 < n := by
  simp [Memory.within]

/-- A write below the bound keeps the bound. -/
theorem Memory.within_write (n : Nat) (m : Memory) (k : Nat) (w : Word) (h : m.within n = true) (hk : k < n) :
    (m.write k w).within n = true := by
  rw [Memory.within_iff] at h ⊢
  unfold Memory.write
  intro cell hc
  split at hc
  · exact h cell ((Memory.mem_erase ..).1 hc).1
  · rcases (Memory.mem_insert ..).1 hc with rfl | hc
    · exact hk
    · exact h cell ((Memory.mem_erase ..).1 hc).1

/-- An index that is not below the bound reads 0. -/
theorem Memory.read_of_within (n : Nat) (m : Memory) (k : Nat) (h : m.within n = true) (hk : n ≤ k) : m.read k = 0#64 := by
  rw [Memory.within_iff] at h
  induction m with
  | nil => rfl
  | cons c rest ih =>
    obtain ⟨a, x⟩ := c
    have ha : a < n := h (a, x) (by simp)
    rw [Memory.read_cons, if_neg (by omega)]
    exact ih fun cell hc => h cell (by simp [hc])

/-- In canonical form equal reads are equal data. -/
theorem Memory.ext_of_wf (m m' : Memory) (h : m.wf = true) (h' : m'.wf = true) (hr : ∀ k, m.read k = m'.read k) : m = m' := by
  have read_low : ∀ (m : Memory) (k : Nat), (∀ cell ∈ m, k < cell.1) → m.read k = 0#64 := by
    intro m k hm
    induction m with
    | nil => rfl
    | cons c rest ih =>
      have := hm c (by simp)
      rw [Memory.read_cons, if_neg (by omega)]
      exact ih fun cell hc => hm cell (by simp [hc])
  induction m generalizing m' with
  | nil =>
    cases m' with
    | nil => rfl
    | cons c rest =>
      obtain ⟨a, x⟩ := c
      have := hr a
      simp [Memory.read_cons] at this
      exact absurd this.symm ((Memory.wf_cons ..).1 h').1
  | cons c rest ih =>
    obtain ⟨a, x⟩ := c
    have hx := (Memory.wf_cons ..).1 h
    cases m' with
    | nil =>
      have := hr a
      simp [Memory.read_cons] at this
      exact absurd this hx.1
    | cons c' rest' =>
      obtain ⟨a', x'⟩ := c'
      have hx' := (Memory.wf_cons ..).1 h'
      have haa : a = a' := by
        rcases lt_trichotomy a a' with hlt | heq | hgt
        · have := hr a
          rw [Memory.read_cons, if_pos rfl, Memory.read_cons, if_neg (by omega),
            read_low rest' a fun cell hc => lt_trans hlt (hx'.2.1 cell hc)] at this
          exact absurd this hx.1
        · exact heq
        · have := hr a'
          rw [Memory.read_cons, if_neg (by omega), Memory.read_cons, if_pos rfl,
            read_low rest a' fun cell hc => lt_trans hgt (hx.2.1 cell hc)] at this
          exact absurd this.symm hx'.1
      subst haa
      have hxx : x = x' := by simpa [Memory.read_cons] using hr a
      subst hxx
      congr 1
      refine ih rest' hx.2.2 hx'.2.2 fun k => ?_
      by_cases hk : a = k
      · subst hk
        rw [read_low rest a hx.2.1, read_low rest' a hx'.2.1]
      · simpa [Memory.read_cons, hk] using hr k

/-! ## Registers and buckets after a write -/

theorem State.reg_setReg (s : State) (k : Nat) (w : Word) (j : Nat) :
    (s.setReg k w).reg j = if j = k then w else s.reg j := Memory.read_write s.r k w j

theorem State.bucket_setBucket (s : State) (h : Half) (k : Nat) (b : Word) (h' : Half) (j : Nat) :
    (s.setBucket h k b).bucket h' j = if h' = h ∧ j = k then b else s.bucket h' j := by
  cases h <;> cases h' <;> simp [State.setBucket, State.bucket, Memory.read_write]

end Sys2Proof.Machine
end

