-- ==== Sys2Proof/Laws/Ops.lean ====
section
/-!
SUPPORT. What each shared operation can do, said once: the scan, the checks, a command, a rejected word, the phases of GINS, a step.
-/

namespace Sys2Proof.Machine

/-! ## The scan -/

theorem scan_eq_some {p : Nat → Bool} {n k : Nat} :
    scan p n = some k ↔ k < n ∧ p k = true ∧ ∀ j, j < k → p j = false := by
  simp only [scan, List.find?_range_eq_some, List.mem_range, Bool.not_eq_true']
  tauto

theorem scan_eq_none {p : Nat → Bool} {n : Nat} : scan p n = none ↔ ∀ k, k < n → p k = false := by
  simp [scan]

theorem scan_isSome {p : Nat → Bool} {n : Nat} : (scan p n).isSome = true ↔ ∃ k, k < n ∧ p k = true := by
  rw [← Option.ne_none_iff_isSome, ne_eq, scan_eq_none]
  simp

/-! ## Checks and commands -/

@[simp] theorem firstFault_nil : firstFault [] = none := rfl

theorem firstFault_cons (c : Check) (rest : List Check) :
    firstFault (c :: rest) = if c.holds then firstFault rest else some c.cause := rfl

theorem firstFault_eq_none {checks : List Check} : firstFault checks = none ↔ ∀ c ∈ checks, c.holds = true := by
  induction checks with
  | nil => simp
  | cons c rest ih => by_cases h : c.holds <;> simp [firstFault_cons, h, ih]

/-- A command in the halted state. -/
theorem command_halted {s : State} (cw : Word) (checks : List Check) (run : State) (h : s.flt = true) :
    command s cw checks run = .next s.respondHalted := by simp [command, h]

/-- A command whose first failing check raises `c`. -/
theorem command_fault {s : State} (cw : Word) {checks : List Check} (run : State) {c : Cause} (h : s.flt = false)
    (hc : firstFault checks = some c) : command s cw checks run = .next (s.raise c cw) := by simp [command, h, hc]

/-- A command whose checks all hold. -/
theorem command_run {s : State} (cw : Word) {checks : List Check} (run : State) (h : s.flt = false)
    (hc : firstFault checks = none) : command s cw checks run = .next run := by simp [command, h, hc]

/-- Everything a command can do. -/
theorem command_cases {s t : State} {cw : Word} {checks : List Check} {run : State} (h : command s cw checks run = .next t) :
    (s.flt = true ∧ t = s.respondHalted) ∨
      (s.flt = false ∧ ∃ c, firstFault checks = some c ∧ t = s.raise c cw) ∨
      (s.flt = false ∧ firstFault checks = none ∧ t = run) := by
  unfold command at h
  cases hf : s.flt <;> cases hc : firstFault checks <;> simp_all

/-- A command always answers a next state. -/
theorem command_next (s : State) (cw : Word) (checks : List Check) (run : State) : ∃ t, command s cw checks run = .next t :=
  ⟨_, rfl⟩

/-- Everything a word that is no command can do. -/
theorem rejectWord_cases {s t : State} {cw : Word} (h : rejectWord s cw = .next t) :
    (s.flt = true ∧ t = s.respondHalted) ∨ (s.flt = false ∧ t = s.raise .illegalCommand cw) := by
  rcases command_cases h with h | ⟨hf, c, hc, ht⟩ | ⟨_, hc, _⟩
  · exact .inl h
  · simp [firstFault_cons] at hc
    exact .inr ⟨hf, hc ▸ ht⟩
  · simp [firstFault_cons] at hc

/-! ## The phases of GINS -/

/-- Everything the append can do. -/
theorem appendReg_cases (s : State) (cw v : Word) :
    (s.glen.toNat = s.cfg.rmax ∧ appendReg s cw v = s.raise .storageExhausted cw) ∨
      (s.glen.toNat ≠ s.cfg.rmax ∧ appendReg s cw v =
        State.complete { (s.setReg s.glen.toNat (setLane s.cfg 0#64 0 v)) with
          glen := s.glen + 1#17, gcnt := s.gcnt + 1#32 } resInserted) := by
  unfold appendReg
  by_cases h : s.glen.toNat = s.cfg.rmax <;> simp [h]

/-- Everything phase 3 can do. -/
theorem insertOverflow_cases (s : State) (cw v : Word) :
    (∃ gc, s.cfg.storage = .fixed gc ∧ insertOverflow s cw v = s.complete resFull) ∨
      (∃ n, s.cfg.storage = .grow n ∧ insertOverflow s cw v = appendReg s cw v) := by
  unfold insertOverflow
  cases h : s.cfg.storage <;> simp

/-- Everything phases 2 and 3 can do. -/
theorem insertNew_cases (s : State) (cw v : Word) :
    (∃ k z, insertSite s = some (k, z) ∧ insertNew s cw v =
        State.complete { (s.setReg k (setLane s.cfg (s.reg k) z v)) with gcnt := s.gcnt + 1#32 } resInserted) ∨
      (insertSite s = none ∧ insertNew s cw v = insertOverflow s cw v) := by
  unfold insertNew
  rcases h : insertSite s with _ | ⟨k, z⟩ <;> simp

/-! ## A step -/

/-- Everything a step can do. -/
theorem step_cases {s t : State} (h : step s = .next t) :
    s.cfg.ok = true ∧
      ((s.pending = [] ∧ t = s) ∨
        (∃ rest, s.pending = .reset :: rest ∧ t = State.applyReset { s with pending := rest }) ∨
        (∃ cw rest i, s.pending = .command cw :: rest ∧ decode cw = .ok i ∧ exec i { s with pending := rest } = .next t) ∨
        (∃ cw rest e, s.pending = .command cw :: rest ∧ decode cw = .error e ∧
          rejectWord { s with pending := rest } cw = .next t)) := by
  unfold step at h
  cases hok : s.cfg.ok
  · simp [hok] at h
  · simp only [hok, if_true] at h
    refine ⟨rfl, ?_⟩
    split at h
    · next hp => exact .inl ⟨hp, by simpa using h.symm⟩
    · next rest hp => exact .inr (.inl ⟨rest, hp, by simpa using h.symm⟩)
    · next cw rest hp =>
      cases hd : decode cw with
      | ok i => exact .inr (.inr (.inl ⟨cw, rest, i, hp, hd, by simpa [hd] using h⟩))
      | error e => exact .inr (.inr (.inr ⟨cw, rest, e, hp, hd, by simpa [hd] using h⟩))

end Sys2Proof.Machine
end

