-- ==== Sys2Proof/Laws/Sites.lean ====
section
/-!
SUPPORT. What the scans of the two sets find, in terms of the masks (42_generic_set.md R122 to R124; 43_bucketed_set.md R148 to R150): one lemma per scan and outcome.
-/

namespace Sys2Proof.Machine

variable {s : State}

/-! ## The generic set -/

theorem holdingReg_eq_some {v : Word} {k : Nat} : holdingReg s v = some k ↔
    k < s.glen.toNat ∧ matchMask s.cfg (s.reg k) v ≠ 0#64 ∧ ∀ j, j < k → matchMask s.cfg (s.reg j) v = 0#64 := by
  simp [holdingReg, scan_eq_some]

theorem holdingReg_eq_none {v : Word} : holdingReg s v = none ↔ ∀ k, k < s.glen.toNat → matchMask s.cfg (s.reg k) v = 0#64 := by
  simp [holdingReg, scan_eq_none]

theorem freeLaneOf_eq_some {k z : Nat} : freeLaneOf s k = some z ↔
    flaggedLane s.cfg (zeroMask s.cfg (s.reg k)) = some z ∧ usable s.cfg k z = true := by
  simp [freeLaneOf, Option.filter_eq_some_iff]

theorem insertSite_eq_some {k z : Nat} : insertSite s = some (k, z) ↔
    k < s.glen.toNat ∧ freeLaneOf s k = some z ∧ ∀ j, j < k → freeLaneOf s j = none := by
  simp only [insertSite, Option.bind_eq_some_iff, Option.map_eq_some_iff, scan_eq_some, Prod.mk.injEq,
    Option.isSome_eq_false_iff, Option.isNone_iff_eq_none]
  constructor
  · rintro ⟨_, ⟨h1, _, h2⟩, _, h3, rfl, rfl⟩
    exact ⟨h1, h3, h2⟩
  · rintro ⟨h1, h3, h2⟩
    exact ⟨k, ⟨h1, by simp [h3], h2⟩, z, h3, rfl, rfl⟩

theorem insertSite_eq_none : insertSite s = none ↔ ∀ k, k < s.glen.toNat → freeLaneOf s k = none := by
  unfold insertSite
  cases h : scan (fun k => (freeLaneOf s k).isSome) s.glen.toNat with
  | none => simpa using scan_eq_none.1 h
  | some k =>
    obtain ⟨h1, h2, _⟩ := scan_eq_some.1 h
    obtain ⟨z, hz⟩ := Option.isSome_iff_exists.1 h2
    simp only [Option.bind_some, Option.map_eq_none_iff, hz, reduceCtorEq, false_iff]
    intro hall
    rw [hall k h1] at hz
    exact absurd hz (by simp)

theorem eraseSite_eq_some {v : Word} {k f : Nat} : eraseSite s v = some (k, f) ↔
    holdingReg s v = some k ∧ flaggedLane s.cfg (matchMask s.cfg (s.reg k) v) = some f := by
  simp only [eraseSite, Option.bind_eq_some_iff, Option.map_eq_some_iff, Prod.mk.injEq]
  constructor
  · rintro ⟨_, h1, _, h2, rfl, rfl⟩
    exact ⟨h1, h2⟩
  · rintro ⟨h1, h2⟩
    exact ⟨k, h1, f, h2, rfl, rfl⟩

theorem eraseSite_eq_none {v : Word} : eraseSite s v = none ↔ holdingReg s v = none := by
  unfold eraseSite
  cases h : holdingReg s v with
  | none => simp
  | some k => simpa [flaggedLane_eq_none] using (holdingReg_eq_some.1 h).2.1

/-! ## The bucketed set -/

variable {h : Half} {r : Word}

theorem holdingBucket_eq_none : holdingBucket s h r = none ↔ ∀ k, k < s.cfg.nb → bmatch (s.bucket h k) r = none := by
  simp [holdingBucket, scan_eq_none]

theorem holdingBucket_eq_some {k : Nat} : holdingBucket s h r = some k ↔
    k < s.cfg.nb ∧ (bmatch (s.bucket h k) r).isSome = true ∧ ∀ j, j < k → bmatch (s.bucket h j) r = none := by
  simp [holdingBucket, scan_eq_some]

theorem matchSite_eq_some {k i : Nat} : matchSite s h r = some (k, i) ↔
    holdingBucket s h r = some k ∧ bmatch (s.bucket h k) r = some i := by
  simp only [matchSite, Option.bind_eq_some_iff, Option.map_eq_some_iff, Prod.mk.injEq]
  constructor
  · rintro ⟨_, h1, _, h2, rfl, rfl⟩
    exact ⟨h1, h2⟩
  · rintro ⟨h1, h2⟩
    exact ⟨k, h1, i, h2, rfl, rfl⟩

theorem matchSite_eq_none : matchSite s h r = none ↔ holdingBucket s h r = none := by
  unfold matchSite
  cases hh : holdingBucket s h r with
  | none => simp
  | some k =>
    have := (holdingBucket_eq_some.1 hh).2.1
    cases hm : bmatch (s.bucket h k) r <;> simp_all

theorem roomyBucket_eq_some {k : Nat} : roomyBucket s h = some k ↔
    k < s.cfg.nb ∧ bcount (s.bucket h k) < 3 ∧ ∀ j, j < k → 3 ≤ bcount (s.bucket h j) := by
  simp [roomyBucket, scan_eq_some]

theorem roomyBucket_eq_none : roomyBucket s h = none ↔ ∀ k, k < s.cfg.nb → 3 ≤ bcount (s.bucket h k) := by
  simp [roomyBucket, scan_eq_none]

end Sys2Proof.Machine
end

