-- ==== Sys2Proof/Laws/Exec.lean ====
section
/-!
SUPPORT. Everything a decoded command can do, said once: the halted answer, a fault, or one of eight effects.
-/

namespace Sys2Proof.Machine

/-- What a command that raises no fault does. Most only answer; the others write one register, one bucket or the set's counters too. -/
inductive Effect (s : State) : Instr → State → Prop where
  | answer (i : Instr) (res : Word) : Effect s i (s.complete res)
  | bcast (k v : Nat) (hk : k < s.cfg.rmax) (hv : v ≤ s.cfg.lmask) :
      Effect s (.bcast k v) ((s.setReg k (bcast s.cfg (word v))).complete resNone)
  | set (k i v : Nat) (hk : k < s.cfg.rmax) (hi : i < s.cfg.lanes) (hv : v ≤ s.cfg.lmask) :
      Effect s (.set k i v) ((s.setReg k (setLane s.cfg (s.reg k) i (word v))).complete resNone)
  | gins (v k z : Nat) (h1 : 1 ≤ v) (hv : v ≤ s.cfg.maxSafe) (hn : holdingReg s (word v) = none)
      (hs : insertSite s = some (k, z)) :
      Effect s (.gins v) (State.complete
        { (s.setReg k (setLane s.cfg (s.reg k) z (word v))) with gcnt := s.gcnt + 1#32 } resInserted)
  | grow (v n : Nat) (h1 : 1 ≤ v) (hv : v ≤ s.cfg.maxSafe) (hst : s.cfg.storage = .grow n)
      (hn : holdingReg s (word v) = none) (hs : insertSite s = none) (hg : s.glen.toNat ≠ s.cfg.rmax) :
      Effect s (.gins v) (State.complete
        { (s.setReg s.glen.toNat (setLane s.cfg 0#64 0 (word v))) with
          glen := s.glen + 1#17, gcnt := s.gcnt + 1#32 } resInserted)
  | gera (v k f : Nat) (h1 : 1 ≤ v) (hv : v ≤ s.cfg.maxSafe) (hs : eraseSite s (word v) = some (k, f)) :
      Effect s (.gera v) (State.complete
        { (s.setReg k (setLane s.cfg (s.reg k) f 0#64)) with gcnt := s.gcnt - 1#32 } (resBool true))
  | bins (v k : Nat) (h1 : 1 ≤ v) (hv : v ≤ 2047) (hn : holdingBucket s (half v) (rem v) = none)
      (hs : roomyBucket s (half v) = some k) :
      Effect s (.bins v) ((s.setBucket (half v) k (bucketAdd (s.bucket (half v) k) (rem v))).complete resInserted)
  | bera (v k i : Nat) (h1 : 1 ≤ v) (hv : v ≤ 2047) (hs : matchSite s (half v) (rem v) = some (k, i)) :
      Effect s (.bera v) ((s.setBucket (half v) k (bucketRemove (s.bucket (half v) k) i)).complete (resBool true))

variable {s t : State}

/-- Every command is one `command` with its own word. -/
theorem exec_eq_command (i : Instr) (s : State) : ∃ checks run, exec i s = command s (encode i) checks run := by
  cases i
  case gsize => exact ⟨_, _, show execGsize s = _ from rfl⟩
  case gcap => exact ⟨_, _, show execGcap s = _ from rfl⟩
  case glen => exact ⟨_, _, show execGlen s = _ from rfl⟩
  case bsize => exact ⟨_, _, show execBsize s = _ from rfl⟩
  case bcap => exact ⟨_, _, show execBcap s = _ from rfl⟩
  all_goals exact ⟨_, _, rfl⟩

/-- A command always answers a next state. -/
theorem exec_next (i : Instr) (s : State) : ∃ t, exec i s = .next t := by
  obtain ⟨checks, run, h⟩ := exec_eq_command i s
  exact ⟨_, h⟩

/-- Everything a command can do. -/
theorem exec_cases {i : Instr} (h : exec i s = .next t) :
    (s.flt = true ∧ t = s.respondHalted) ∨ (s.flt = false ∧ ∃ c, t = s.raise c (encode i)) ∨
      (s.flt = false ∧ Effect s i t) := by
  have key : ∀ {checks run}, command s (encode i) checks run = .next t →
      (firstFault checks = none → (∃ c, run = s.raise c (encode i)) ∨ Effect s i run) →
      (s.flt = true ∧ t = s.respondHalted) ∨ (s.flt = false ∧ ∃ c, t = s.raise c (encode i)) ∨
        (s.flt = false ∧ Effect s i t) := by
    intro checks run h he
    rcases command_cases h with h | ⟨hf, c, _, ht⟩ | ⟨hf, hc, rfl⟩
    · exact .inl h
    · exact .inr (.inl ⟨hf, c, ht⟩)
    · rcases he hc with ⟨c, h⟩ | h
      · exact .inr (.inl ⟨hf, c, h⟩)
      · exact .inr (.inr ⟨hf, h⟩)
  cases i
  case bcast k v => refine key h fun hc => .inr (.bcast k v ?_ ?_) <;> simp_all [firstFault_eq_none, checkReg, checkValue]
  case set k i v =>
    refine key h fun hc => .inr (.set k i v ?_ ?_ ?_) <;> simp_all [firstFault_eq_none, checkReg, checkLane, checkValue]
  case gins v =>
    refine key h fun hc => ?_
    obtain ⟨h1, hv⟩ : 1 ≤ v ∧ v ≤ s.cfg.maxSafe := by simpa [firstFault_eq_none, checkSetValue] using hc
    cases hh : holdingReg s (word v) with
    | some k => exact .inr (.answer _ _)
    | none =>
      rcases insertNew_cases s (encode (.gins v)) (word v) with ⟨k, z, hs, e⟩ | ⟨hs, e⟩
      · simp only [e]
        exact .inr (.gins v k z h1 hv hh hs)
      · simp only [e]
        rcases insertOverflow_cases s (encode (.gins v)) (word v) with ⟨gc, _, e⟩ | ⟨n, hst, e⟩
        · rw [e]
          exact .inr (.answer _ _)
        · rw [e]
          rcases appendReg_cases s (encode (.gins v)) (word v) with ⟨_, e⟩ | ⟨hg, e⟩
          · exact .inl ⟨_, e⟩
          · rw [e]
            exact .inr (.grow v n h1 hv hst hh hs hg)
  case gera v =>
    refine key h fun hc => .inr ?_
    obtain ⟨h1, hv⟩ : 1 ≤ v ∧ v ≤ s.cfg.maxSafe := by simpa [firstFault_eq_none, checkSetValue] using hc
    rcases hs : eraseSite s (word v) with _ | ⟨k, f⟩
    · exact .answer _ _
    · exact .gera v k f h1 hv hs
  case bins v =>
    refine key h fun hc => .inr ?_
    obtain ⟨h1, hv⟩ : 1 ≤ v ∧ v ≤ 2047 := by simpa [firstFault_eq_none, checkBucketValue] using hc
    cases hh : holdingBucket s (half v) (rem v) with
    | some k => exact .answer _ _
    | none =>
      rcases hs : roomyBucket s (half v) with _ | k
      · exact .answer _ _
      · exact .bins v k h1 hv hh hs
  case bera v =>
    refine key h fun hc => .inr ?_
    obtain ⟨h1, hv⟩ : 1 ≤ v ∧ v ≤ 2047 := by simpa [firstFault_eq_none, checkBucketValue] using hc
    rcases hs : matchSite s (half v) (rem v) with _ | ⟨k, f⟩
    · exact .answer _ _
    · exact .bera v k f h1 hv hs
  case gsize => exact key (show execGsize s = _ from h) fun _ => .inr (.answer _ _)
  case gcap => exact key (show execGcap s = _ from h) fun _ => .inr (.answer _ _)
  case glen => exact key (show execGlen s = _ from h) fun _ => .inr (.answer _ _)
  case bsize => exact key (show execBsize s = _ from h) fun _ => .inr (.answer _ _)
  case bcap => exact key (show execBcap s = _ from h) fun _ => .inr (.answer _ _)
  all_goals exact key h fun _ => .inr (.answer _ _)

end Sys2Proof.Machine
end

