-- ==== Sys2Proof/Laws/PerInstr.lean ====
section
/-!
SUPPORT. The family OpcodeByte: bits 7:0 of a command's word are the opcode 30_encoding.md R60 gives it, whatever its operands.
-/

namespace Sys2Proof.Laws.OpcodeByte

/-- The opcode column of 30_encoding.md R60. -/
def opcode : Instr → Nat
  | .bcast _ _ => 0x01
  | .get _ _ => 0x02
  | .set _ _ _ => 0x03
  | .zmask _ => 0x04
  | .rdw _ => 0x05
  | .contains _ _ => 0x10
  | .find _ _ => 0x11
  | .findz _ => 0x12
  | .cnteq _ _ => 0x13
  | .min _ _ => 0x14
  | .max _ _ => 0x15
  | .gins _ => 0x20
  | .gera _ => 0x21
  | .gcon _ => 0x22
  | .gsize => 0x23
  | .gcap => 0x24
  | .glen => 0x25
  | .bins _ => 0x30
  | .bera _ => 0x31
  | .bcon _ => 0x32
  | .bsize => 0x33
  | .bcap => 0x34
  | .brdw _ _ => 0x35

/-- The opcode field of the encoding is the command's opcode. -/
def Statement (i : Instr) : Prop := opField (encode i) = opcode i

/-- The opcode byte of a packed word is the opcode, whatever the other fields. -/
theorem opField_packFields (op ln rk val : Nat) (h : op < 2 ^ 8) : opField (packFields op ln rk val) = op := by
  have hsum : val * 2 ^ 32 + rk * 2 ^ 16 + ln * 2 ^ 8 + op = op + 2 ^ 8 * (val * 2 ^ 24 + rk * 2 ^ 8 + ln) := by ring
  rw [opField, packFields, hsum, BitVec.extractLsb'_toNat, BitVec.toNat_ofNat, Nat.shiftRight_zero,
    Nat.mod_mod_of_dvd _ (Nat.pow_dvd_pow 2 (by decide : 8 ≤ 64)), Nat.add_mul_mod_self_left, Nat.mod_eq_of_lt h]

theorem bcast (k v : Nat) : Statement (.bcast k v) := opField_packFields _ _ _ _ (by decide)
theorem get (k i : Nat) : Statement (.get k i) := opField_packFields _ _ _ _ (by decide)
theorem set (k i v : Nat) : Statement (.set k i v) := opField_packFields _ _ _ _ (by decide)
theorem zmask (k : Nat) : Statement (.zmask k) := opField_packFields _ _ _ _ (by decide)
theorem rdw (k : Nat) : Statement (.rdw k) := opField_packFields _ _ _ _ (by decide)
theorem contains (k v : Nat) : Statement (.contains k v) := opField_packFields _ _ _ _ (by decide)
theorem find (k v : Nat) : Statement (.find k v) := opField_packFields _ _ _ _ (by decide)
theorem findz (k : Nat) : Statement (.findz k) := opField_packFields _ _ _ _ (by decide)
theorem cnteq (k v : Nat) : Statement (.cnteq k v) := opField_packFields _ _ _ _ (by decide)
theorem min (k count : Nat) : Statement (.min k count) := opField_packFields _ _ _ _ (by decide)
theorem max (k count : Nat) : Statement (.max k count) := opField_packFields _ _ _ _ (by decide)
theorem gins (v : Nat) : Statement (.gins v) := opField_packFields _ _ _ _ (by decide)
theorem gera (v : Nat) : Statement (.gera v) := opField_packFields _ _ _ _ (by decide)
theorem gcon (v : Nat) : Statement (.gcon v) := opField_packFields _ _ _ _ (by decide)
theorem gsize : Statement .gsize := opField_packFields _ _ _ _ (by decide)
theorem gcap : Statement .gcap := opField_packFields _ _ _ _ (by decide)
theorem glen : Statement .glen := opField_packFields _ _ _ _ (by decide)
theorem bins (v : Nat) : Statement (.bins v) := opField_packFields _ _ _ _ (by decide)
theorem bera (v : Nat) : Statement (.bera v) := opField_packFields _ _ _ _ (by decide)
theorem bcon (v : Nat) : Statement (.bcon v) := opField_packFields _ _ _ _ (by decide)
theorem bsize : Statement .bsize := opField_packFields _ _ _ _ (by decide)
theorem bcap : Statement .bcap := opField_packFields _ _ _ _ (by decide)
theorem brdw (h : Half) (k : Nat) : Statement (.brdw h k) := opField_packFields _ _ _ _ (by decide)

end Sys2Proof.Laws.OpcodeByte
end

