-- ==== Sys2Proof/Laws/Run.lean ====
section
/-!
SUPPORT. Runs (70_reset_and_hazards.md R206): the small lemmas of a run's start, its end and its observation, what one step of a run does, and what the state
at a run's end is.
-/

namespace Sys2Proof.Machine

variable {s t : State}

/-! ## Start, end, observation -/

@[simp] theorem startOf_cfg (c : Config) (program : List Word) : (startOf c program).cfg = c := rfl

@[simp] theorem startOf_pending (c : Config) (program : List Word) : (startOf c program).pending = program.map .command := rfl

@[simp] theorem startOf_responses (c : Config) (program : List Word) : (startOf c program).responses = [] := rfl

@[simp] theorem startOf_flt (c : Config) (program : List Word) : (startOf c program).flt = false := rfl

@[simp] theorem startOf_unit (c : Config) (program : List Word) : (startOf c program).unit = (State.resetWith c).unit := rfl

@[simp] theorem State.unit_respond (s : State) (st : BitVec 8) (res : Word) : (s.respond st res).unit = s.unit := rfl

@[simp] theorem State.unit_complete (s : State) (res : Word) : (s.complete res).unit = s.unit := rfl

@[simp] theorem State.unit_raise (s : State) (c : Cause) (cw : Word) :
    (s.raise c cw).unit = { s.unit with flt := true, fcause := c.code, fcmd := cw } := rfl

@[simp] theorem State.unit_applyReset (s : State) : s.applyReset.unit = (State.resetWith s.cfg).unit := rfl

@[simp] theorem State.observation_responses (s : State) : s.observation.responses = s.responses := rfl

@[simp] theorem State.observation_final (s : State) : s.observation.final = s.unit := rfl

/-- Two states of one instance that agree on the unit's state, the inputs and the responses are equal: `unit` leaves nothing of the unit out. -/
theorem State.ext_of_unit (hc : s.cfg = t.cfg) (hu : s.unit = t.unit) (hp : s.pending = t.pending)
    (hr : s.responses = t.responses) : s = t := by
  cases s
  cases t
  simp_all [State.unit]

theorem State.ended_iff : s.ended = true ↔ s.pending = [] ∨ s.flt = true := by
  simp [State.ended, State.drained]

theorem State.ended_eq_false_iff : s.ended = false ↔ s.pending ≠ [] ∧ s.flt = false := by
  simp [State.ended, State.drained]

theorem State.goodEnd_iff : s.goodEnd = true ↔ s.pending = [] ∧ s.flt = false := by
  cases h : s.flt <;> simp [State.goodEnd, State.safe, State.ended, State.drained, h]

/-! ## One step of a run -/

/-- A command or a rejected word keeps the parameters and the inputs to come, and adds one response. -/
structure Answers (s t : State) : Prop where
  cfg : t.cfg = s.cfg
  pending : t.pending = s.pending
  responses : ∃ a, t.responses = s.responses ++ [a]

theorem Effect.answers {i : Instr} (h : Effect s i t) : Answers s t := by
  cases h with
  | bins v k => cases hh : half v <;> exact ⟨by simp [State.setBucket], by simp [State.setBucket], ⟨_, by simp [State.setBucket]; rfl⟩⟩
  | bera v k => cases hh : half v <;> exact ⟨by simp [State.setBucket], by simp [State.setBucket], ⟨_, by simp [State.setBucket]; rfl⟩⟩
  | _ => exact ⟨rfl, rfl, _, rfl⟩

theorem exec_answers {i : Instr} (h : exec i s = .next t) : Answers s t := by
  rcases exec_cases h with ⟨_, rfl⟩ | ⟨_, c, rfl⟩ | ⟨_, h⟩
  · exact ⟨rfl, rfl, _, rfl⟩
  · exact ⟨rfl, rfl, _, rfl⟩
  · exact h.answers

theorem rejectWord_answers {cw : Word} (h : rejectWord s cw = .next t) : Answers s t := by
  rcases rejectWord_cases h with ⟨_, rfl⟩ | ⟨_, rfl⟩ <;> exact ⟨rfl, rfl, _, rfl⟩

/-- A step on a command word takes that one input and adds one response. -/
theorem step_command_answers {cw : Word} {rest : List HostEvent} (hok : s.cfg.ok = true) (hp : s.pending = .command cw :: rest) :
    ∃ t, step s = .next t ∧ Answers { s with pending := rest } t := by
  unfold step
  simp only [hok, if_true, hp]
  cases hd : decode cw with
  | ok i =>
    obtain ⟨t, ht⟩ := exec_next i { s with pending := rest }
    exact ⟨t, ht, exec_answers ht⟩
  | error e => exact ⟨_, rfl, rejectWord_answers rfl⟩

/-! ## A whole run -/

theorem runFrom_of_ended (n : Nat) (h : s.ended = true) : runFrom n s = .next s := by
  cases n <;> simp [runFrom, h]

theorem runFrom_succ {n : Nat} (h : s.ended = false) (ht : step s = .next t) : runFrom (n + 1) s = runFrom n t := by
  simp [runFrom, h, ht]

/-- With as many steps as there are commands left, a run of an instance comes to its end, and every command it took was answered once: the commands not taken are
the ones after the first fault. -/
theorem runFrom_ends (n : Nat) (program : List Word) (hok : s.cfg.ok = true) (hp : s.pending = program.map .command)
    (hn : program.length ≤ n) :
    ∃ t taken left, runFrom n s = .next t ∧ t.ended = true ∧ t.cfg = s.cfg ∧ program = taken ++ left ∧
      t.pending = left.map .command ∧ t.responses.length = s.responses.length + taken.length := by
  induction program generalizing n s with
  | nil => exact ⟨s, [], [], runFrom_of_ended n (State.ended_iff.2 (.inl hp)), State.ended_iff.2 (.inl hp), rfl, rfl, hp, rfl⟩
  | cons cw rest ih =>
    cases he : s.ended
    · obtain ⟨m, rfl⟩ : ∃ m, n = m + 1 := ⟨n - 1, by simp at hn; omega⟩
      obtain ⟨u, hu, hc, hq, a, ha⟩ := step_command_answers hok (by simpa using hp)
      obtain ⟨t, taken, left, hrun, hend, hcfg, hsplit, hleft, hlen⟩ :=
        ih (s := u) m (by simpa [hc] using hok) hq (by simpa using hn)
      refine ⟨t, cw :: taken, left, (runFrom_succ he hu).trans hrun, hend, hcfg.trans hc, by simp [hsplit], hleft, ?_⟩
      rw [hlen, ha]
      simp
      omega
    · exact ⟨s, [], _, runFrom_of_ended n he, he, rfl, rfl, hp, rfl⟩

/-- The run of a list of commands on an instance ends, at the last response or at the first fault, with one response to each command taken. -/
theorem run_ends {c : Config} (program : List Word) (hok : c.ok = true) :
    ∃ t taken left, run c program = .next t ∧ t.ended = true ∧ t.cfg = c ∧ program = taken ++ left ∧
      t.pending = left.map .command ∧ t.responses.length = taken.length := by
  obtain ⟨t, taken, left, h⟩ := runFrom_ends (s := startOf c program) program.length program hok rfl le_rfl
  exact ⟨t, taken, left, by simpa [run] using h⟩

/-- The observation of a run on an instance is the responses and the unit's state where the run ends. -/
theorem runObservation_eq {c : Config} (program : List Word) (hok : c.ok = true) :
    ∃ t, run c program = .next t ∧ t.ended = true ∧ runObservation c program = some ⟨t.responses, t.unit⟩ := by
  obtain ⟨t, _, _, hrun, hend, _⟩ := run_ends program hok
  exact ⟨t, hrun, hend, by simp [runObservation, hrun, State.observation]⟩

end Sys2Proof.Machine
end

