-- ==== Sys2Proof/Tests/Slice0.lean ====
section
/-!
SUPPORT. Tests of the model and witnesses of the statements' hypotheses. Every expected value is the spec's: a word written out from the encoding table of
30_encoding.md R60 and R63, or the worked example of the rule the comment names.
-/

namespace Sys2Proof.Machine.Tests

open Sys2Proof Sys2Proof.Machine

/-! ## Well-formedness: each check refuses a term that breaks it (30_encoding.md R56) -/

theorem test_wellFormed_accepts_the_largest_operands : (Instr.set 65535 255 4294967295).wellFormed = true := by decide

theorem test_wellFormed_refuses_a_register_of_17_bits : (Instr.set 65536 255 4294967295).wellFormed = false := by decide

theorem test_wellFormed_refuses_a_lane_of_9_bits : (Instr.set 65535 256 4294967295).wellFormed = false := by decide

theorem test_wellFormed_refuses_a_value_of_33_bits : (Instr.set 65535 255 4294967296).wellFormed = false := by decide

theorem test_wellFormed_refuses_a_bucket_of_17_bits : (Instr.brdw .hi 65536).wellFormed = false := by decide

theorem test_wellFormed_refuses_a_member_of_33_bits : (Instr.gins 4294967296).wellFormed = false := by decide

/-! ## Decoding: one written-out word per command (30_encoding.md R56, R60) -/

theorem test_decode_bcast : decode 0x0000002A00010001#64 = .ok (.bcast 1 42) := by decide

theorem test_decode_get : decode 0x0000000000000602#64 = .ok (.get 0 6) := by decide

theorem test_decode_set : decode 0x000000C800000003#64 = .ok (.set 0 0 200) := by decide

theorem test_decode_zmask : decode 0x0000000000020004#64 = .ok (.zmask 2) := by decide

theorem test_decode_rdw : decode 0x00000000FFFF0005#64 = .ok (.rdw 65535) := by decide

theorem test_decode_contains : decode 0x0000000300000010#64 = .ok (.contains 0 3) := by decide

theorem test_decode_find : decode 0x7FFFFFFF00000011#64 = .ok (.find 0 2147483647) := by decide

theorem test_decode_findz : decode 0x0000000000010012#64 = .ok (.findz 1) := by decide

theorem test_decode_cnteq : decode 0x0000000300040013#64 = .ok (.cnteq 4 3) := by decide

theorem test_decode_min : decode 0x0000000000000314#64 = .ok (.min 0 3) := by decide

theorem test_decode_max : decode 0x0000000000010C15#64 = .ok (.max 1 12) := by decide

theorem test_decode_gins : decode 0x0000000500000020#64 = .ok (.gins 5) := by decide

theorem test_decode_gera : decode 0x0000000300000021#64 = .ok (.gera 3) := by decide

theorem test_decode_gcon : decode 0x0000000200000022#64 = .ok (.gcon 2) := by decide

theorem test_decode_gsize : decode 0x0000000000000023#64 = .ok .gsize := by decide

theorem test_decode_gcap : decode 0x0000000000000024#64 = .ok .gcap := by decide

theorem test_decode_glen : decode 0x0000000000000025#64 = .ok .glen := by decide

theorem test_decode_bins : decode 0x0000040500000030#64 = .ok (.bins 1029) := by decide

theorem test_decode_bera : decode 0x0000000500000031#64 = .ok (.bera 5) := by decide

theorem test_decode_bcon : decode 0x0000040000000032#64 = .ok (.bcon 1024) := by decide

theorem test_decode_bsize : decode 0x0000000000000033#64 = .ok .bsize := by decide

theorem test_decode_bcap : decode 0x0000000000000034#64 = .ok .bcap := by decide

theorem test_decode_brdw : decode 0x0000000000000135#64 = .ok (.brdw .hi 0) := by decide

/-- The all-zero word is illegal (30_encoding.md R61). -/
theorem test_decode_refuses_the_zero_word : decode 0#64 = .error .undefinedOp := by decide

/-- A field `GINS` does not use is set (30_encoding.md R58). -/
theorem test_decode_refuses_a_set_unused_field : decode 0x0000000500010020#64 = .error .mustBeZero := by decide

/-- `BRDW` with `ln = 2`: bits 15:9 count as unused (30_encoding.md R58). -/
theorem test_decode_refuses_brdw_of_a_third_half : decode 0x0000000000000235#64 = .error .mustBeZero := by decide

/-- `MIN r<k>` is `MIN r<k>, L` (30_encoding.md R64); 12 lanes for `N = 5`. -/
theorem test_assemble_max_of_all_lanes :
    assemble ⟨5, .fixed 12, 6⟩ [.maxAll 1] = [0x0000000000010C15#64] := by decide

/-! ## One command on a small state -/

/-- The state a command leaves. -/
def nextOf : Host.Outcome State Fault Refusal → Option State
  | .next t => some t
  | .fault _ => none
  | .refused _ => none

/-- The last response a command gives. -/
def answerOf (o : Host.Outcome State Fault Refusal) : Option Response := (nextOf o).bind fun t => t.responses.getLast?

/-- `R[k]` after a command. -/
def regOf (k : Nat) (o : Host.Outcome State Fault Refusal) : Option Word := (nextOf o).map fun t => t.reg k

/-- A bucket after a command. -/
def bucketOf (h : Half) (k : Nat) (o : Host.Outcome State Fault Refusal) : Option Word := (nextOf o).map fun t => t.bucket h k

/-- The unit with `N = 8`, one register of eight usable lanes, `BC = 6`, its register holding `w`. -/
def unit8 (w : Word) : State := (State.resetWith ⟨8, .fixed 8, 6⟩).setReg 0 w

/-- The same unit with `GCNT = 3` and the lanes 7, 3, 2 of the examples of 42_generic_set.md R123. -/
def set732 : State := { unit8 0x0000000000020307#64 with gcnt := 3#32 }

/-- The unit with `BC = 6` and the given first buckets. -/
def buckets (lo hi : Word) : State := ((State.resetWith ⟨8, .fixed 8, 6⟩).setBucket .lo 0 lo).setBucket .hi 0 hi

/-- 40_lane_primitive.md R80, `N = 8`. -/
theorem test_bcast_42 : regOf 0 (exec (.bcast 0 42) (unit8 0#64)) = some 0x2A2A2A2A2A2A2A2A#64 := by decide

/-- 40_lane_primitive.md R80, `N = 5`: the bits above the lanes become 0. -/
theorem test_bcast_clears_unused_bits :
    regOf 0 (exec (.bcast 0 31) (State.resetWith ⟨5, .fixed 12, 6⟩)) = some 0x0FFFFFFFFFFFFFFF#64 := by decide

/-- 40_lane_primitive.md R81. -/
theorem test_get_lane_6 : answerOf (exec (.get 0 6) (unit8 0x1122334455667788#64)) = some ⟨0#8, 0x22#64⟩ := by decide

/-- 40_lane_primitive.md R82. -/
theorem test_set_lane_3 : regOf 0 (exec (.set 0 3 0xAB) (unit8 0x1122334455667788#64)) = some 0x11223344AB667788#64 := by decide

/-- 60_exceptions.md R178: three conditions are violated and the register index is reported. -/
theorem test_set_reports_the_register_index : answerOf (exec (.set 5 9 0x100) (unit8 0#64)) = some ⟨2#8, 0#64⟩ := by decide

/-- 40_lane_primitive.md R83. -/
theorem test_zmask_skips_the_occupied_lane :
    answerOf (exec (.zmask 0) (unit8 0xC8#64)) = some ⟨0#8, 0x8080808080808000#64⟩ := by decide

/-- 40_lane_primitive.md R83, the extra flag over a lane holding 1 (90_conflicts.md C1). -/
theorem test_zmask_flags_a_one_above_a_zero :
    answerOf (exec (.zmask 0) (unit8 0x0505050505050100#64)) = some ⟨0#8, 0x8080#64⟩ := by decide

/-- 40_lane_primitive.md R84. -/
theorem test_rdw_reads_all_64_bits :
    answerOf (exec (.rdw 0) (unit8 0x1122334455667788#64)) = some ⟨0#8, 0x1122334455667788#64⟩ := by decide

/-- 41_search.md R101. -/
theorem test_contains_3 : answerOf (exec (.contains 0 3) (unit8 0x0000000000020307#64)) = some ⟨0#8, 1#64⟩ := by decide

/-- 41_search.md R101. -/
theorem test_contains_not_9 : answerOf (exec (.contains 0 9) (unit8 0x0000000000020307#64)) = some ⟨0#8, 0#64⟩ := by decide

/-- 41_search.md R102. -/
theorem test_find_2 : answerOf (exec (.find 0 2) (unit8 0x0000000000020307#64)) = some ⟨0#8, 2#64⟩ := by decide

/-- 41_search.md R102. -/
theorem test_find_no_9 :
    answerOf (exec (.find 0 9) (unit8 0x0000000000020307#64)) = some ⟨0#8, 0xFFFFFFFFFFFFFFFF#64⟩ := by decide

/-- 41_search.md R103. -/
theorem test_findz_skips_a_guard_bit : answerOf (exec (.findz 0) (unit8 0xC8#64)) = some ⟨0#8, 1#64⟩ := by decide

/-- 41_search.md R104: one lane holds 3 and the answer is 2 (90_conflicts.md C2). -/
theorem test_cnteq_overcounts : answerOf (exec (.cnteq 0 3) (unit8 0x0000000000020307#64)) = some ⟨0#8, 2#64⟩ := by decide

/-- 41_search.md R104. -/
theorem test_cnteq_of_empty_lanes : answerOf (exec (.cnteq 0 0) (unit8 0x0000000000020307#64)) = some ⟨0#8, 5#64⟩ := by decide

/-- 41_search.md R105. -/
theorem test_min_of_3 : answerOf (exec (.min 0 3) (unit8 0x0000000000020307#64)) = some ⟨0#8, 2#64⟩ := by decide

/-- 41_search.md R105. -/
theorem test_min_of_8 : answerOf (exec (.min 0 8) (unit8 0x0000000000020307#64)) = some ⟨0#8, 0#64⟩ := by decide

/-- 41_search.md R106. -/
theorem test_max_of_3 : answerOf (exec (.max 0 3) (unit8 0x0000000000020307#64)) = some ⟨0#8, 7#64⟩ := by decide

/-- 41_search.md R106: unsigned, the guard bit included. -/
theorem test_max_of_8_is_unsigned : answerOf (exec (.max 0 8) (unit8 0xC8#64)) = some ⟨0#8, 200#64⟩ := by decide

/-- 42_generic_set.md R122. -/
theorem test_gins_3 :
    (nextOf (exec (.gins 3) (unit8 0#64))).map (fun t => (t.reg 0, t.gcnt)) = some (3#64, 1#32) := by decide

/-- 42_generic_set.md R121, the source's scenario 5: width 8, capacity 1, the second insert is full. -/
theorem test_gins_4_into_a_full_set :
    answerOf (exec (.gins 4) ((State.resetWith ⟨8, .fixed 1, 6⟩).setReg 0 3#64)) = some ⟨0#8, 4#64⟩ := by decide

/-- 42_generic_set.md R123. -/
theorem test_gera_3 :
    (nextOf (exec (.gera 3) set732)).map (fun t => (t.reg 0, t.gcnt)) = some (0x0000000000020007#64, 2#32) := by decide

/-- 42_generic_set.md R123. -/
theorem test_gera_of_a_stranger : answerOf (exec (.gera 9) set732) = some ⟨0#8, 0#64⟩ := by decide

/-- 42_generic_set.md R124. -/
theorem test_gcon_2 : answerOf (exec (.gcon 2) set732) = some ⟨0#8, 1#64⟩ := by decide

/-- 42_generic_set.md R124. -/
theorem test_gcon_not_4 : answerOf (exec (.gcon 4) set732) = some ⟨0#8, 0#64⟩ := by decide

/-- 42_generic_set.md R125, with the count of R123's example. -/
theorem test_gsize : answerOf (exec .gsize set732) = some ⟨0#8, 3#64⟩ := by decide

/-- 42_generic_set.md R126. -/
theorem test_gcap : answerOf (exec .gcap (State.resetWith ⟨8, .fixed 20, 6⟩)) = some ⟨0#8, 20#64⟩ := by decide

/-- 42_generic_set.md R127. -/
theorem test_glen : answerOf (exec .glen (State.resetWith ⟨8, .fixed 20, 6⟩)) = some ⟨0#8, 3#64⟩ := by decide

/-- 43_bucketed_set.md R148. -/
theorem test_bins_5 : bucketOf .lo 0 (exec (.bins 5) (buckets 0#64 0#64)) = some 0x0000000200000005#64 := by decide

/-- 43_bucketed_set.md R148: the first bucket is full. -/
theorem test_bins_11_into_the_second_bucket :
    bucketOf .lo 1 (exec (.bins 11) (buckets 0x0000000602403805#64 0#64)) = some 0x000000020000000B#64 := by decide

/-- 43_bucketed_set.md R149. -/
theorem test_bera_5_moves_the_last_lane :
    bucketOf .lo 0 (exec (.bera 5) (buckets 0x0000000602403805#64 0#64)) = some 0x0000000400003809#64 := by decide

/-- 43_bucketed_set.md R157: the value 1024 is a lane of zeros in `HI`. -/
theorem test_bera_1024 :
    bucketOf .hi 0 (exec (.bera 1024) (buckets 0#64 0x00000006FFC00005#64)) = some 0x00000004001FF805#64 := by decide

/-- 43_bucketed_set.md R150. -/
theorem test_bcon_1029 :
    answerOf (exec (.bcon 1029) (buckets 0#64 0x0000000200000005#64)) = some ⟨0#8, 1#64⟩ := by decide

/-- 43_bucketed_set.md R150: an unoccupied lane is no member. -/
theorem test_bcon_not_1024 :
    answerOf (exec (.bcon 1024) (buckets 0#64 0x0000000200000005#64)) = some ⟨0#8, 0#64⟩ := by decide

/-- 43_bucketed_set.md R151, four of the five values of its example in the first buckets. -/
theorem test_bsize :
    answerOf (exec .bsize (buckets 0x0000000602403805#64 0x0000000200000005#64)) = some ⟨0#8, 4#64⟩ := by decide

/-- 43_bucketed_set.md R152. -/
theorem test_bcap : answerOf (exec .bcap (buckets 0#64 0#64)) = some ⟨0#8, 6#64⟩ := by decide

/-- 43_bucketed_set.md R153. -/
theorem test_brdw_lo :
    answerOf (exec (.brdw .lo 0) (buckets 0x0000000200000005#64 0#64)) = some ⟨0#8, 0x0000000200000005#64⟩ := by decide

/-- 43_bucketed_set.md R153. -/
theorem test_brdw_hi : answerOf (exec (.brdw .hi 0) (buckets 0x0000000200000005#64 0#64)) = some ⟨0#8, 0#64⟩ := by decide

/-! ## One step -/

/-- The reset arrays are in canonical form (20_memory.md R44). -/
theorem test_reset_arrays_are_canonical :
    State.reset.r.wf = true ∧ State.reset.lo.wf = true ∧ State.reset.hi.wf = true := by decide

/-- A word placed where the next input is taken runs at once: `SET r0, 0, 200` of 30_encoding.md R63. -/
theorem test_step_runs_the_placed_word :
    regOf 0 (step (State.reset.withFetchWord 64 0x000000C800000003)) = some 200#64 := by decide

/-- A fault halts the unit and records the word (60_exceptions.md R181): the all-zero word. -/
theorem test_step_faults_on_the_zero_word :
    (nextOf (step (State.reset.present 0#64))).map State.statusOutputs = some (true, 1#8, 0#64) := by decide

/-- The halted unit answers `(0xFF, 0)` (60_exceptions.md R183). -/
theorem test_step_of_a_halted_unit :
    answerOf (step ({ State.reset with flt := true }.present 0x23#64)) = some ⟨0xFF#8, 0#64⟩ := by decide

/-! ## A run and its observation (70_reset_and_hazards.md R206) -/

/-- Rows 0 and 1 of 95_test_vectors.md C1 with no row after them: the responses and the whole final state. -/
theorem test_run_is_seen_through_responses_and_final_state :
    runObservation ⟨8, .fixed 8, 3⟩ [0x0000000700000001#64, 0x0000000900000203#64] =
      some ⟨[⟨0#8, 0#64⟩, ⟨0#8, 0#64⟩], ⟨[(0, 0x0707070707090707#64)], 1#17, 0#32, [], [], false, 0#8, 0#64⟩⟩ := by decide

/-- The first fault ends a run: `GINS 0` raises `SetValueRange` (60_exceptions.md R175), and the `GSIZE` listed after it is not issued. -/
theorem test_run_ends_at_the_first_fault :
    runObservation ⟨8, .fixed 8, 3⟩ [0x0000000000000020#64, 0x0000000000000023#64] =
      some ⟨[⟨8#8, 0#64⟩], ⟨[], 1#17, 0#32, [], [], true, 8#8, 0x0000000000000020#64⟩⟩ := by decide

/-- A run that ends halted has gone wrong. -/
theorem test_run_that_ends_halted_has_gone_wrong :
    (nextOf (run ⟨8, .fixed 8, 3⟩ [0x0000000000000020#64])).map State.wrongEnd = some true := by decide

/-- The constants of the row `N = 5` of the table of 00_scope.md R8. -/
theorem test_constants_of_width_5 :
    (Config.ones ⟨5, .fixed 12, 6⟩, Config.high ⟨5, .fixed 12, 6⟩) = (0x0084210842108421#64, 0x0842108421084210#64) := by
  decide

/-! ## Witnesses: for each statement with hypotheses, values that meet all of them together, at the ends of their ranges -/

/-- The unit with two lanes of 32 bits, `GROW` mode with `n` physical registers, one register in the set, its lanes 5 and 6. -/
def grown (n : Nat) : State :=
  { (State.resetWith ⟨32, .grow n, 3⟩).setReg 0 0x0000000600000005#64 with glen := 1#17, gcnt := 2#32 }

/-- The unit of width 8 and capacity 3 whose three usable lanes are occupied. -/
def full3 : State := { (State.resetWith ⟨8, .fixed 3, 6⟩).setReg 0 0x0000000000020307#64 with gcnt := 3#32 }

/-- The halted unit. -/
def halted : State := { State.reset with flt := true, fcause := 2#8, fcmd := 0x0000000000050005#64 }

/-- Lanes 5, 7, 9 in the first low bucket, remainder 5 in the first high bucket, of two buckets each. -/
def buckets4 : State := buckets 0x0000000602403805#64 0x0000000200000005#64

/-- The unit with one bucket per half, the low one full. -/
def lowFull : State := (State.resetWith ⟨8, .fixed 8, 3⟩).setBucket .lo 0 0x0000000602403805#64

theorem not_holds_of {s : State} {v : Nat}
    (h : ∀ k, k < s.glen.toNat → ∀ i, i < s.cfg.lanes → s.laneAt k i ≠ word v) : ¬ s.holds v :=
  fun ⟨k, i, hp, he⟩ => h k hp.1 i hp.2 he

/-- The positions `(k, i)` with `k < a` and `i < b`. -/
def cells (a b : Nat) : List (Nat × Nat) := (List.range a).flatMap fun k => (List.range b).map fun i => (k, i)

theorem mem_cells {a b k i : Nat} (hk : k < a) (hi : i < b) : (k, i) ∈ cells a b := by simp [cells, hk, hi]

theorem genericOk_of {s : State}
    (h1 : ∀ p ∈ cells s.glen.toNat s.cfg.lanes, ∀ q ∈ cells s.glen.toNat s.cfg.lanes,
      s.laneAt p.1 p.2 = s.laneAt q.1 q.2 → s.laneAt p.1 p.2 ≠ 0#64 → p = q)
    (h2 : ∀ k, k < s.glen.toNat → ∀ i, i < s.cfg.lanes →
      (s.laneAt k i).toNat ≤ s.cfg.maxSafe ∧ (s.laneAt k i).getLsbD (s.cfg.n - 1) = false)
    (h5 : s.gcnt.toNat = s.memberLanes)
    (h6 : ∀ k, k < s.glen.toNat → ∀ i, i < s.cfg.lanes → usable s.cfg k i = false → s.laneAt k i = 0#64) :
    s.genericOk := by
  refine ⟨fun k i k' i' p p' e e' => Prod.mk.injEq .. ▸ h1 _ (mem_cells p.1 p.2) _ (mem_cells p'.1 p'.2) e e', fun k i p => (h2 k p.1 i p.2).1,
    fun k i p => (h2 k p.1 i p.2).2, h5, fun gc hs k i p hg => h6 k p.1 i p.2 ?_⟩
  simp only [usable, hs, decide_eq_false_iff_not]
  omega

theorem bucketsOk_of {s : State}
    (h1 : ∀ k, k < s.cfg.nb → (s.bucket .lo k >>> 35 = 0#64 ∧
        (∀ i, i < 3 → bcount (s.bucket .lo k) ≤ i → blane (s.bucket .lo k) i = 0#64) ∧
        ∀ i, i < 3 → (blane (s.bucket .lo k) i).getLsbD 10 = false) ∧
      (s.bucket .hi k >>> 35 = 0#64 ∧
        (∀ i, i < 3 → bcount (s.bucket .hi k) ≤ i → blane (s.bucket .hi k) i = 0#64) ∧
        ∀ i, i < 3 → (blane (s.bucket .hi k) i).getLsbD 10 = false))
    (h2 : ∀ h ∈ [Half.lo, Half.hi], ∀ p ∈ cells s.cfg.nb 3, ∀ q ∈ cells s.cfg.nb 3,
      p.2 < bcount (s.bucket h p.1) → q.2 < bcount (s.bucket h q.1) →
        blane (s.bucket h p.1) p.2 = blane (s.bucket h q.1) q.2 → p = q)
    (h3 : ∀ k, k < s.cfg.nb → ∀ i, i < 3 → i < bcount (s.bucket .lo k) → blane (s.bucket .lo k) i ≠ 0#64) :
    s.bucketsOk := by
  have lt3 : ∀ (b : Word) i, i < bcount b → i < 3 := fun b i h => by
    have : bcount b < 4 := (b.extractLsb' 33 2).isLt
    omega
  refine ⟨fun h k hk => ?_, fun h k i k' i' p p' => ?_, fun k i p => h3 k p.1 i (lt3 _ _ p.2) p.2⟩
  · cases h
    · exact (h1 k hk).1
    · exact (h1 k hk).2
  · intro e
    have := h2 h (by cases h <;> simp) _ (mem_cells p.1 (lt3 _ _ p.2)) _ (mem_cells p'.1 (lt3 _ _ p'.2)) p.2 p'.2 e
    exact Prod.mk.injEq .. ▸ this

theorem set732_genericOk : set732.genericOk := genericOk_of (by decide) (by decide) (by decide) (by decide)

theorem full3_genericOk : full3.genericOk := genericOk_of (by decide) (by decide) (by decide) (by decide)

theorem buckets4_bucketsOk : buckets4.bucketsOk := bucketsOk_of (by decide) (by decide) (by decide)

theorem lowFull_bucketsOk : lowFull.bucketsOk := bucketsOk_of (by decide) (by decide) (by decide)

theorem glenOk_of {s : State} (h : s.glen.toNat = s.cfg.rmax) : s.glenOk := ⟨h.le, fun _ _ => h⟩

/-! ### Encoding, the step, reset -/

theorem witness_DecodeAndEncodeAgree :
    (Instr.set 65535 255 4294967295).wellFormed = true ∧ decode 0xFFFFFFFFFFFFFF03#64 = .ok (.set 65535 255 4294967295) := by
  decide

theorem witness_MaskAndMatchDecideTheCommand :
    (⟨"BRDW", 0xFFFFFFFF0000FEFF#64, 0x0000000000000035#64⟩ : OpcodeRow) ∈ opcodeTable := by decide

theorem witness_EveryWordIsOneCommandOrIllegal :
    (⟨"GINS", 0x00000000FFFFFFFF#64, 0x0000000000000020#64⟩ : OpcodeRow) ∈ opcodeTable ∧
      0x0000000500000020#64 &&& 0x00000000FFFFFFFF#64 = 0x0000000000000020#64 := by decide

theorem witness_StepRunsTheDecodedCommand :
    (State.reset.present 0x0000000500000020#64).cfg.ok = true ∧
      (State.reset.present 0x0000000500000020#64).pending = .command 0x0000000500000020#64 :: [] ∧
      decode 0x0000000500000020#64 = .ok (.gins 5) := by decide

theorem witness_IllegalWordFaults :
    (State.reset.present 0x36#64).cfg.ok = true ∧ (State.reset.present 0x36#64).flt = false ∧
      (State.reset.present 0x36#64).pending = .command 0x36#64 :: [] ∧
      ∀ row ∈ opcodeTable, 0x36#64 &&& row.mask ≠ row.pattern := by decide

theorem witness_EveryCommandIsAnsweredOnce :
    (halted.present 0x23#64).cfg.ok = true ∧ (halted.present 0x23#64).pending = .command 0x23#64 :: [] ∧
      (State.reset.present 0#64).cfg.ok = true ∧ (State.reset.present 0#64).pending = .command 0#64 :: [] := by decide

theorem witness_HaltedUnitIgnoresEveryWord :
    (halted.present 0#64).cfg.ok = true ∧ (halted.present 0#64).flt = true ∧
      (halted.present 0#64).pending = .command 0#64 :: [] ∧ halted.assertReset.cfg.ok = true ∧ halted.assertReset.flt = true ∧
      halted.assertReset.pending = .reset :: [] := by decide

theorem witness_OnlyResetLeavesTheHaltedState_reset :
    halted.assertReset.flt = true ∧ (∃ t, step halted.assertReset = .next t) ∧
      ∃ rest, halted.assertReset.pending = .reset :: rest := ⟨by decide, ⟨_, rfl⟩, ⟨_, rfl⟩⟩

theorem witness_OnlyResetLeavesTheHaltedState_command :
    (halted.present 0x23#64).flt = true ∧ (∃ t, step (halted.present 0x23#64) = .next t) ∧
      ∀ rest, (halted.present 0x23#64).pending ≠ .reset :: rest :=
  ⟨by decide, ⟨_, rfl⟩, fun rest h => by simp [State.present] at h⟩

theorem witness_ResetEventResetsEverything :
    (set732.assertReset.cfg.ok = true ∧ set732.assertReset.pending = .reset :: [] ∧ set732.assertReset.cfg.storage = .fixed 8) ∧
      (grown 2).assertReset.cfg.ok = true ∧ (grown 2).assertReset.pending = .reset :: [] ∧
      (grown 2).assertReset.cfg.storage = .grow 2 := by decide

theorem witness_ResetStateValues :
    (Config.mk 1 (.fixed 1) 1).ok = true ∧ (Config.mk 32 (.grow 65536) 196608).ok = true := by decide

theorem witness_IdleUnitKeepsItsState : set732.cfg.ok = true ∧ set732.pending = [] := by decide

theorem witness_NoStepChangesTheParameters : ∃ t, step (set732.present 0x0000000300000021#64) = .next t := ⟨_, rfl⟩

/-! ### Faults -/

theorem witness_IndexOutOfItsArrayFaults :
    set732.flt = false ∧ regOperand (.max 1 8) = some 1 ∧ set732.cfg.rmax ≤ 1 ∧ regOperand (.rdw 0) = some 0 ∧
      0 < set732.cfg.rmax ∧ buckets4.flt = false ∧ buckets4.cfg.nb ≤ 2 ∧ 1 < buckets4.cfg.nb := by decide

theorem witness_LaneAndCountRangeFaults :
    set732.flt = false ∧ 0 < set732.cfg.rmax ∧ set732.cfg.lanes ≤ 8 ∧ set732.cfg.lanes < 9 := by decide

theorem witness_ValueRangeFaults :
    set732.flt = false ∧ 0 < set732.cfg.rmax ∧ set732.cfg.lmask < 256 ∧ 7 < set732.cfg.lanes ∧ set732.cfg.maxSafe < 128 ∧
      2047 < 2048 ∧ (grown 1).flt = false ∧ (grown 1).cfg.n = 32 ∧ (State.resetWith ⟨1, .fixed 1, 1⟩).flt = false ∧
      (State.resetWith ⟨1, .fixed 1, 1⟩).cfg.n = 1 := by decide

theorem witness_GinsWithoutStorageFaults :
    (grown 1).cfg.ok = true ∧ (grown 1).flt = false ∧ (grown 1).cfg.storage = .grow 1 ∧ 1 ≤ 2147483647 ∧
      2147483647 ≤ (grown 1).cfg.maxSafe ∧ ¬ (grown 1).holds 2147483647 ∧ ¬ (grown 1).holds 0 ∧
      (grown 1).glen.toNat = (grown 1).cfg.rmax :=
  ⟨by decide, by decide, by decide, by decide, by decide, not_holds_of (by decide), not_holds_of (by decide), by decide⟩

theorem witness_SetReportsItsFirstViolation :
    set732.flt = false ∧ set732.cfg.rmax ≤ 1 ∧ 0 < set732.cfg.rmax ∧ set732.cfg.lanes ≤ 8 ∧ 7 < set732.cfg.lanes ∧
      set732.cfg.lmask < 256 := by decide

/-! ### Lane storage and search -/

theorem witness_BcastFillsEveryLane :
    set732.cfg.ok = true ∧ set732.flt = false ∧ 0 < set732.cfg.rmax ∧ 255 ≤ set732.cfg.lmask ∧ 7 < set732.cfg.lanes := by decide

theorem witness_GetAnswersTheLane :
    set732.cfg.ok = true ∧ set732.flt = false ∧ 0 < set732.cfg.rmax ∧ 7 < set732.cfg.lanes := by decide

theorem witness_SetWritesOneLane :
    set732.cfg.ok = true ∧ set732.flt = false ∧ 0 < set732.cfg.rmax ∧ 7 < set732.cfg.lanes ∧ 255 ≤ set732.cfg.lmask := by decide

theorem witness_GetAfterSetAnswersTheValue :
    (set732.cfg.ok = true ∧ set732.flt = false ∧ 0 < set732.cfg.rmax ∧ 7 < set732.cfg.lanes ∧ 255 ≤ set732.cfg.lmask) ∧
      ∃ t, exec (.set 0 7 255) set732 = .next t := ⟨by decide, ⟨_, rfl⟩⟩

theorem witness_ZmaskAndRdwAnswer : set732.flt = false ∧ 0 < set732.cfg.rmax := by decide

theorem witness_ZeroMaskFlagsFollowTheBorrow :
    (Config.mk 32 (.fixed 1) 1).ok = true ∧ 2 ≤ (Config.mk 32 (.fixed 1) 1).n ∧ (Config.mk 1 (.fixed 1) 1).ok = true ∧
      (Config.mk 1 (.fixed 1) 1).n = 1 := by decide

theorem witness_ZeroMaskFindsTheLowestZeroLane :
    (Config.mk 8 (.fixed 1) 1).ok = true ∧ flaggedLane (Config.mk 8 (.fixed 1) 1) (zeroMask (Config.mk 8 (.fixed 1) 1) 200#64) = some 1 := by
  decide

theorem witness_UnusedBitsDoNotMatter :
    (Config.mk 5 (.fixed 12) 6).ok = true ∧
      ∀ b, b < (Config.mk 5 (.fixed 12) 6).used → (0xF000000000000000#64).getLsbD b = (0#64).getLsbD b := by decide

theorem witness_LaneWidthOne :
    (State.resetWith ⟨1, .fixed 1, 1⟩).cfg.n = 1 ∧ (State.resetWith ⟨1, .fixed 1, 1⟩).flt = false ∧
      0 < (State.resetWith ⟨1, .fixed 1, 1⟩).cfg.rmax := by decide

theorem witness_ContainsIsExact :
    (set732.cfg.ok = true ∧ set732.flt = false ∧ 0 < set732.cfg.rmax ∧ 127 ≤ set732.cfg.maxSafe) ∧
      (∃ j, j < set732.cfg.lanes ∧ set732.laneAt 0 j = word 7) ∧
      ∀ j, j < set732.cfg.lanes → set732.laneAt 0 j ≠ word 127 := ⟨by decide, ⟨0, by decide⟩, by decide⟩

theorem witness_FindAnswersTheLowestLane :
    set732.cfg.ok = true ∧ set732.flt = false ∧ 0 < set732.cfg.rmax ∧ 127 ≤ set732.cfg.maxSafe ∧
      (3 < set732.cfg.lanes ∧ set732.laneAt 0 3 = word 0 ∧ ∀ i, i < 3 → set732.laneAt 0 i ≠ word 0) ∧
      ∀ j, j < set732.cfg.lanes → set732.laneAt 0 j ≠ word 127 := by decide

theorem witness_FindzAnswersTheLowestEmptyLane :
    (set732.cfg.ok = true ∧ set732.flt = false ∧ 0 < set732.cfg.rmax) ∧
      (3 < set732.cfg.lanes ∧ set732.laneAt 0 3 = 0#64 ∧ ∀ i, i < 3 → set732.laneAt 0 i ≠ 0#64) ∧
      (grown 1).cfg.ok = true ∧ (grown 1).flt = false ∧ 0 < (grown 1).cfg.rmax ∧
      ∀ j, j < (grown 1).cfg.lanes → (grown 1).laneAt 0 j ≠ 0#64 := by decide

theorem witness_CnteqCountsMatchesAndBorrowedNeighbours :
    set732.cfg.ok = true ∧ 2 ≤ set732.cfg.n ∧ set732.flt = false ∧ 0 < set732.cfg.rmax ∧ 127 ≤ set732.cfg.maxSafe := by decide

theorem witness_CnteqAnswersThePopulationCount :
    set732.cfg.ok = true ∧ set732.flt = false ∧ 0 < set732.cfg.rmax ∧ 0 ≤ set732.cfg.maxSafe ∧ 127 ≤ set732.cfg.maxSafe := by
  decide

theorem witness_MinAndMaxScanTheFirstLanes :
    set732.cfg.ok = true ∧ set732.flt = false ∧ 0 < set732.cfg.rmax ∧ 1 ≤ 8 ∧ 8 ≤ set732.cfg.lanes := by decide

theorem witness_OmittedCountMeansAllLanes : set732.cfg.ok = true ∧ set732.flt = false ∧ 0 < set732.cfg.rmax := by decide

/-! ### The generic set -/

theorem witness_GconIsExact :
    (set732.cfg.ok = true ∧ set732.flt = false ∧ 1 ≤ 7 ∧ 127 ≤ set732.cfg.maxSafe) ∧ set732.holds 7 ∧ ¬ set732.holds 127 :=
  ⟨by decide, ⟨0, 0, ⟨by decide, by decide⟩, by decide⟩, not_holds_of (by decide)⟩

theorem witness_GinsOfAMemberIsADuplicate :
    (full3.cfg.ok = true ∧ full3.flt = false ∧ 1 ≤ 2 ∧ 2 ≤ full3.cfg.maxSafe) ∧ full3.holds 2 :=
  ⟨by decide, ⟨0, 2, ⟨by decide, by decide⟩, by decide⟩⟩

theorem witness_GinsFillsTheFirstFreeLane :
    (set732.cfg.ok = true ∧ set732.flt = false ∧ 1 ≤ 127 ∧ 127 ≤ set732.cfg.maxSafe) ∧ ¬ set732.holds 127 ∧ set732.setPos 0 3 ∧
      usable set732.cfg 0 3 = true ∧ set732.laneAt 0 3 = 0#64 ∧
      ∀ k' z', set732.setPos k' z' → usable set732.cfg k' z' = true → (k' < 0 ∨ (k' = 0 ∧ z' < 3)) →
        set732.laneAt k' z' ≠ 0#64 := by
  have low : ∀ z, z < 3 → set732.laneAt 0 z ≠ 0#64 := by decide
  refine ⟨by decide, not_holds_of (by decide), ⟨by decide, by decide⟩, by decide, by decide, ?_⟩
  rintro k' z' _ _ (h | ⟨rfl, h⟩)
  · omega
  · exact low z' h

theorem witness_GinsOnAFullFixedSetAnswersFull :
    (full3.cfg.ok = true ∧ full3.flt = false ∧ full3.cfg.storage = .fixed 3 ∧ 1 ≤ 127 ∧ 127 ≤ full3.cfg.maxSafe) ∧
      ¬ full3.holds 127 ∧ ∀ k z, full3.setPos k z → usable full3.cfg k z = true → full3.laneAt k z ≠ 0#64 := by
  have all : ∀ k, k < full3.glen.toNat → ∀ z, z < full3.cfg.lanes → usable full3.cfg k z = true → full3.laneAt k z ≠ 0#64 := by
    decide
  exact ⟨by decide, not_holds_of (by decide), fun k z p => all k p.1 z p.2⟩

theorem witness_GinsGrowsTheSet :
    ((grown 2).cfg.ok = true ∧ (grown 2).flt = false ∧ (grown 2).cfg.storage = .grow 2 ∧ 1 ≤ 2147483647 ∧
      2147483647 ≤ (grown 2).cfg.maxSafe ∧ (grown 2).glen.toNat < (grown 2).cfg.rmax) ∧
      ¬ (grown 2).holds 2147483647 ∧ ¬ (grown 2).holds 0 :=
  ⟨by decide, not_holds_of (by decide), not_holds_of (by decide)⟩

theorem witness_GeraClearsTheFirstMatch :
    (set732.cfg.ok = true ∧ set732.flt = false ∧ 1 ≤ 7 ∧ 127 ≤ set732.cfg.maxSafe) ∧ ¬ set732.holds 127 ∧ set732.setPos 0 0 ∧
      set732.laneAt 0 0 = word 7 ∧
      ∀ k' f', set732.setPos k' f' → (k' < 0 ∨ (k' = 0 ∧ f' < 0)) → set732.laneAt k' f' ≠ word 7 := by
  refine ⟨by decide, not_holds_of (by decide), ⟨by decide, by decide⟩, by decide, ?_⟩
  intro k' f' _ h
  omega

theorem witness_GenericSetQueriesAnswer :
    set732.flt = false ∧ set732.cfg.storage = .fixed 8 ∧ (grown 2).flt = false ∧ (grown 2).cfg.storage = .grow 2 := by decide

theorem witness_CommandsKeepTheGenericSetInvariants :
    set732.cfg.ok = true ∧ set732.glenOk ∧ set732.genericOk ∧ ¬ rawSetWrite (.gins 127) set732 ∧
      ∃ t, exec (.gins 127) set732 = .next t :=
  ⟨by decide, glenOk_of (by decide), set732_genericOk, by rintro (⟨_, _, h, _⟩ | ⟨_, _, _, h, _⟩) <;> simp at h, ⟨_, rfl⟩⟩

theorem witness_GenericSetLaws_gins :
    set732.cfg.ok = true ∧ set732.glenOk ∧ set732.genericOk ∧ set732.flt = false ∧ 1 ≤ 127 ∧ 127 ≤ set732.cfg.maxSafe ∧
      ∃ t, exec (.gins 127) set732 = .next t ∧ t.flt = false :=
  ⟨by decide, glenOk_of (by decide), set732_genericOk, by decide, by decide, by decide, ⟨_, rfl, by decide⟩⟩

theorem witness_GenericSetLaws_gera :
    full3.cfg.ok = true ∧ full3.glenOk ∧ full3.genericOk ∧ full3.flt = false ∧ 1 ≤ 7 ∧ 7 ≤ full3.cfg.maxSafe ∧
      ∃ t, exec (.gera 7) full3 = .next t :=
  ⟨by decide, glenOk_of (by decide), full3_genericOk, by decide, by decide, by decide, ⟨_, rfl⟩⟩

theorem witness_GsizeCountsTheMembers : set732.cfg.ok = true ∧ set732.flt = false ∧ set732.genericOk :=
  ⟨by decide, by decide, set732_genericOk⟩

theorem witness_FixedSetIsFullAtItsCapacity :
    full3.cfg.ok = true ∧ full3.glenOk ∧ full3.genericOk ∧ full3.flt = false ∧ full3.cfg.storage = .fixed 3 ∧
      full3.gcnt.toNat = 3 ∧ 1 ≤ 127 ∧ 127 ≤ full3.cfg.maxSafe ∧ ¬ full3.holds 127 :=
  ⟨by decide, glenOk_of (by decide), full3_genericOk, by decide, by decide, by decide, by decide, by decide,
    not_holds_of (by decide)⟩

theorem witness_GlenOnlyGrows :
    ((grown 2).cfg.ok = true ∧ (∃ t, exec (.gins 9) (grown 2) = .next t) ∧ (grown 2).glenOk) ∧
      set732.cfg.ok = true ∧ set732.glenOk ∧ set732.cfg.storage = .fixed 8 :=
  ⟨⟨by decide, ⟨_, rfl⟩, by decide, fun gc h => by simp [grown, State.resetWith, State.setReg] at h⟩, by decide,
    glenOk_of (by decide), by decide⟩

/-! ### The bucketed set -/

theorem witness_MaskedMatchIsExact :
    1023 < 1024 ∧ (∀ i, i < 3 → (blane 0x0000000602402005#64 i).getLsbD 10 = false) ∧
      (∀ i, i < 3 → (blane 0x8000000602402005#64 i).getLsbD 10 = false) ∧
      bcount 0x8000000602402005#64 = bcount 0x0000000602402005#64 ∧
      ∀ i, i < bcount 0x0000000602402005#64 → blane 0x8000000602402005#64 i = blane 0x0000000602402005#64 i := by decide

theorem witness_BconIsExact :
    (buckets4.flt = false ∧ 1 ≤ 5 ∧ 1029 ≤ 2047) ∧ buckets4.bucketsOk ∧ buckets4.bucketHolds 5 ∧ ¬ buckets4.bucketHolds 2047 := by
  have none : ∀ k, k < buckets4.cfg.nb → ∀ i, i < 3 → i < bcount (buckets4.bucket .hi k) →
      blane (buckets4.bucket .hi k) i ≠ rem 2047 := by decide
  refine ⟨by decide, buckets4_bucketsOk, ⟨0, 0, ⟨by decide, by decide⟩, by decide⟩, fun ⟨k, i, p, he⟩ => ?_⟩
  have : bcount (buckets4.bucket .hi k) < 4 := ((buckets4.bucket .hi k).extractLsb' 33 2).isLt
  have hp : i < bcount (buckets4.bucket .hi k) := p.2
  exact none k p.1 i (by omega) hp he

theorem witness_BinsFillsTheFirstBucketWithRoom_member :
    (buckets4.flt = false ∧ 1 ≤ 1029 ∧ 1029 ≤ 2047) ∧ buckets4.bucketsOk ∧ buckets4.bucketHolds 1029 :=
  ⟨by decide, buckets4_bucketsOk, ⟨0, 0, ⟨by decide, by decide⟩, by decide⟩⟩

theorem witness_BinsFillsTheFirstBucketWithRoom_full :
    (lowFull.flt = false ∧ 1 ≤ 1 ∧ 1 ≤ 2047) ∧ lowFull.bucketsOk ∧ ¬ lowFull.bucketHolds 1 ∧
      ∀ k, k < lowFull.cfg.nb → bcount (lowFull.bucket (half 1) k) = 3 := by
  have none : ∀ k, k < lowFull.cfg.nb → ∀ i, i < 3 → blane (lowFull.bucket .lo k) i ≠ rem 1 := by decide
  refine ⟨by decide, lowFull_bucketsOk, fun ⟨k, i, p, he⟩ => ?_, by decide⟩
  have : bcount (lowFull.bucket .lo k) < 4 := ((lowFull.bucket .lo k).extractLsb' 33 2).isLt
  have hp : i < bcount (lowFull.bucket .lo k) := p.2
  exact none k p.1 i (by omega) he

theorem witness_BinsFillsTheFirstBucketWithRoom_room :
    (buckets4.flt = false ∧ 1 ≤ 1 ∧ 1 ≤ 2047) ∧ buckets4.bucketsOk ∧ ¬ buckets4.bucketHolds 1 ∧ 1 < buckets4.cfg.nb ∧
      bcount (buckets4.bucket (half 1) 1) < 3 ∧ ∀ j, j < 1 → bcount (buckets4.bucket (half 1) j) = 3 := by
  have none : ∀ k, k < buckets4.cfg.nb → ∀ i, i < 3 → blane (buckets4.bucket .lo k) i ≠ rem 1 := by decide
  refine ⟨by decide, buckets4_bucketsOk, fun ⟨k, i, p, he⟩ => ?_, by decide, by decide, by decide⟩
  have : bcount (buckets4.bucket .lo k) < 4 := ((buckets4.bucket .lo k).extractLsb' 33 2).isLt
  have hp : i < bcount (buckets4.bucket .lo k) := p.2
  exact none k p.1 i (by omega) he

theorem witness_BeraCompactsTheBucket :
    (buckets4.flt = false ∧ 1 ≤ 7 ∧ 7 ≤ 2047) ∧ buckets4.bucketsOk ∧ buckets4.occupied (half 7) 0 1 ∧
      blane (buckets4.bucket (half 7) 0) 1 = rem 7 := ⟨by decide, buckets4_bucketsOk, ⟨by decide, by decide⟩, by decide⟩

theorem witness_BucketedSetQueriesAnswer : buckets4.flt = false ∧ 1 < buckets4.cfg.nb := by decide

theorem witness_EveryStepKeepsTheBucketInvariants :
    (buckets4.present 0x0000000500000031#64).bucketsOk ∧ ∃ t, step (buckets4.present 0x0000000500000031#64) = .next t :=
  ⟨bucketsOk_of (by decide) (by decide) (by decide), ⟨_, rfl⟩⟩

theorem witness_BucketedSetLaws :
    (buckets4.flt = false ∧ 1 ≤ 2047 ∧ 2047 ≤ 2047) ∧ buckets4.bucketsOk ∧ (∃ t, exec (.bins 2047) buckets4 = .next t) ∧
      ∃ t, exec (.bera 2047) buckets4 = .next t := ⟨by decide, buckets4_bucketsOk, ⟨_, rfl⟩, ⟨_, rfl⟩⟩

theorem witness_BsizeCountsTheMembers : buckets4.flt = false ∧ buckets4.bucketsOk := ⟨by decide, buckets4_bucketsOk⟩

theorem witness_EachHalfHoldsThreePerBucket : lowFull.cfg.ok = true ∧ lowFull.flt = false := by decide

/-! ### The whole machine -/

theorem witness_ReadsHaveNoSideEffects :
    onlyReads (.min 0 8) = true ∧ set732.flt = false ∧ ∃ t, exec (.min 0 8) set732 = .next t ∧ t.flt = false :=
  ⟨by decide, by decide, ⟨_, rfl, by decide⟩⟩

theorem witness_TheTwoSetsAreApart :
    (∃ t, exec (.bins 2047) buckets4 = .next t) ∧ ofBucketedSet (.bins 2047) = true ∧ half 2047 = .hi ∧ half 1 = .lo ∧
      (∃ t, exec (.gins 127) set732 = .next t) ∧ ofBucketedSet (.gins 127) = false :=
  ⟨⟨_, rfl⟩, by decide, by decide, by decide, ⟨_, rfl⟩, by decide⟩

theorem witness_EveryStepKeepsTheMachineInvariants :
    ((State.resetWith ⟨8, .fixed 8, 6⟩).present 0x0000000500000020#64).machineOk ∧
      ∃ t, step ((State.resetWith ⟨8, .fixed 8, 6⟩).present 0x0000000500000020#64) = .next t :=
  ⟨⟨by decide, ⟨by decide, by decide, by decide⟩, glenOk_of (by decide), ⟨fun _ => by decide, fun h => absurd h (by decide)⟩,
    fun _ => by simp [State.reg, State.present, State.resetWith]⟩, ⟨_, rfl⟩⟩

theorem witness_ResetStateHasEveryInvariant :
    (Config.mk 1 (.grow 65536) 1).ok = true ∧ (Config.mk 32 (.fixed 131072) 196608).ok = true := by decide

end Sys2Proof.Machine.Tests
end

/-! # The masks

What the zero-lanes mask, the match mask and the masked match of a bucket find (40_lane_primitive.md R87, R88; 41_search.md R107; 43_bucketed_set.md R158). -/

namespace Sys2Proof.Machine

variable {c : Config}

/-! ## Lanes of the words the unit builds -/

/-- A word's lane after another word was put into lane `i`. -/
theorem lane_setLane (h64 : c.n ≤ 64) (w : Word) {i j : Nat} {v : Word} (hv : v.toNat < 2 ^ c.n) (hi : i < c.lanes) :
    lane c (setLane c w i v) j = if j = i then v else lane c w j := by
  apply BitVec.eq_of_getLsbD_eq
  intro b _
  rw [lane_bit h64, setLane_bit _ _ _ _ hv (c.lane_end hi)]
  by_cases hb : b < c.n
  · by_cases hji : j = i
    · simp [hji, hb]
    · have hout : ¬ (i * c.n ≤ j * c.n + b ∧ j * c.n + b < i * c.n + c.n) := by
        rcases Nat.lt_or_gt_of_ne hji with h | h
        · have := Nat.mul_le_mul_right c.n (show j + 1 ≤ i from h)
          rw [Nat.add_mul] at this
          omega
        · have := Nat.mul_le_mul_right c.n (show i + 1 ≤ j from h)
          rw [Nat.add_mul] at this
          omega
      simp only [hout, hji, if_false, lane_bit h64]
  · by_cases hji : j = i
    · have : v.getLsbD b = false := by
        rw [← BitVec.testBit_toNat]
        exact Nat.testBit_lt_two_pow (lt_of_lt_of_le hv (Nat.pow_le_pow_right (by omega) (by omega)))
      simp [hji, hb, this]
    · simp [hji, hb, lane_bit h64]

/-- Position `i * N + b` with `b < N` is in lane `i` and below `USED`. -/
theorem lane_index_lt_used {i b : Nat} (hi : i < c.lanes) (hb : b < c.n) : i * c.n + b < c.used := by
  have := Nat.mul_le_mul_right c.n (show i + 1 ≤ c.lanes from hi)
  rw [Nat.add_mul] at this
  unfold Config.used
  omega

/-- Every lane of a broadcast word holds the value. -/
theorem lane_bcast (h1 : 1 ≤ c.n) (h64 : c.n ≤ 64) {v i : Nat} (hv : v < 2 ^ c.n) (hi : i < c.lanes) :
    lane c (bcast c (word v)) i = word v := by
  apply BitVec.eq_of_getLsbD_eq
  intro b hb
  rw [lane_bit h64, bcast_bit h1 h64 v hv, word_bit]
  by_cases hbn : b < c.n
  · simp [hbn, hb, lane_index_lt_used hi hbn, Nat.mod_eq_of_lt hbn]
  · have : v.testBit b = false := Nat.testBit_lt_two_pow (lt_of_lt_of_le hv (Nat.pow_le_pow_right (by omega) (by omega)))
    simp [hbn, this]


/-! ## The borrow into a lane -/

/-- The lanes below lane `j + 1` are lane `j` above the lanes below it. -/
theorem toNat_mod_lanes_succ (h64 : c.n ≤ 64) (w : Word) (j : Nat) :
    w.toNat % 2 ^ ((j + 1) * c.n) = w.toNat % 2 ^ (j * c.n) + 2 ^ (j * c.n) * (lane c w j).toNat := by
  rw [Nat.add_mul, one_mul, pow_add, Nat.mod_mul, lane_toNat h64]

theorem onesNat_lt (h1 : 1 ≤ c.n) (j : Nat) : onesNat c.n j < 2 ^ (j * c.n) := by
  simpa using mul_onesNat_lt c.n 1 j (Nat.one_lt_two_pow (by omega))

/-- The lowest `j` lanes of `ONES`. -/
theorem ones_mod (h1 : 1 ≤ c.n) {j : Nat} (hj : j ≤ c.lanes) : c.ones.toNat % 2 ^ (j * c.n) = onesNat c.n j := by
  have hle := Nat.mul_le_mul_right c.n hj
  apply Nat.eq_of_testBit_eq
  intro b
  have bit : ∀ l, (onesNat c.n l).testBit b = (decide (b < l * c.n) && Nat.testBit 1 (b % c.n)) := fun l => by
    simpa using mul_onesNat_bit c.n 1 l b (by omega) (Nat.one_lt_two_pow (by omega))
  rw [Nat.testBit_mod_two_pow, ones_toNat h1, bit, bit]
  by_cases hb : b < j * c.n
  · simp [hb, show b < c.lanes * c.n by omega]
  · simp [hb]

/-- There is a borrow into lane `j` exactly when the lanes below it, as a number, are below the `ONES` of those lanes. -/
theorem borrowIn_iff (h1 : 1 ≤ c.n) (h64 : c.n ≤ 64) (w : Word) (j : Nat) :
    borrowIn c w j = true ↔ w.toNat % 2 ^ (j * c.n) < onesNat c.n j := by
  induction j with
  | zero => simp [borrowIn]
  | succ j ih =>
    have hlow : w.toNat % 2 ^ (j * c.n) < 2 ^ (j * c.n) := Nat.mod_lt _ (by positivity)
    have hones := onesNat_lt h1 j
    rw [toNat_mod_lanes_succ h64, onesNat_succ, borrowIn, Bool.or_eq_true, Bool.and_eq_true, ih, beq_iff_eq, beq_iff_eq,
      ← BitVec.toNat_inj, ← BitVec.toNat_inj, show (0#64).toNat = 0 from rfl, show (1#64).toNat = 1 from rfl]
    rcases hx : (lane c w j).toNat with _ | _ | x
    · simp
      omega
    · simp
    · have : 2 ^ (j * c.n) * 2 ≤ 2 ^ (j * c.n) * (x + 1 + 1) := Nat.mul_le_mul_left _ (by omega)
      simp
      omega

/-- A borrow into a lane comes from a zero lane below it. -/
theorem exists_zero_lane_of_borrowIn {w : Word} {j : Nat} (h : borrowIn c w j = true) : ∃ i, i < j ∧ lane c w i = 0#64 := by
  induction j with
  | zero => simp [borrowIn] at h
  | succ j ih =>
    simp only [borrowIn, Bool.or_eq_true, Bool.and_eq_true, beq_iff_eq] at h
    rcases h with h | ⟨_, h⟩
    · exact ⟨j, by omega, h⟩
    · obtain ⟨i, hi, hz⟩ := ih h
      exact ⟨i, by omega, hz⟩

/-- Subtracting `ONES` takes 1 and the borrow from every lane, modulo `2^N` (40_lane_primitive.md R87). -/
theorem lane_sub_ones (h1 : 1 ≤ c.n) (h64 : c.n ≤ 64) (w : Word) {j : Nat} (hj : j < c.lanes) :
    ((lane c (w - c.ones) j).toNat + 1 + (borrowIn c w j).toNat) % 2 ^ c.n = (lane c w j).toNat := by
  have hend := c.lane_end hj
  generalize hd : w - c.ones = d
  obtain rfl : w = d + c.ones := by simp [← hd]
  have hP : 0 < 2 ^ (j * c.n) := by positivity
  have hdl : d.toNat % 2 ^ (j * c.n) < 2 ^ (j * c.n) := Nat.mod_lt _ hP
  have hol := onesNat_lt h1 j
  have hom := ones_mod h1 (Nat.le_of_lt hj)
  have hod : c.ones.toNat / 2 ^ (j * c.n) % 2 ^ c.n = 1 := by
    have := toNat_mod_lanes_succ h64 c.ones j
    rw [ones_mod h1 hj, hom, onesNat_succ, lane_toNat h64] at this
    exact (Nat.mul_left_cancel hP (by omega)).symm
  have carry : (borrowIn c (d + c.ones) j).toNat =
      if 2 ^ (j * c.n) ≤ d.toNat % 2 ^ (j * c.n) + onesNat c.n j then 1 else 0 := by
    have hlow : (d + c.ones).toNat % 2 ^ (j * c.n) = (d.toNat % 2 ^ (j * c.n) + onesNat c.n j) % 2 ^ (j * c.n) := by
      rw [BitVec.toNat_add, Nat.mod_mod_of_dvd _ (Nat.pow_dvd_pow 2 (by omega)), Nat.add_mod, hom]
    have hb := borrowIn_iff h1 h64 (d + c.ones) j
    rw [hlow] at hb
    split
    · next hle =>
      rw [hb.2 (by rw [Nat.mod_eq_sub_mod hle, Nat.mod_eq_of_lt (by omega)]; omega)]
      rfl
    · next hlt =>
      rw [Nat.mod_eq_of_lt (by omega)] at hb
      have : borrowIn c (d + c.ones) j = false := by
        rw [Bool.eq_false_iff, ne_eq, hb]
        omega
      simp [this]
  have hdvd : 2 ^ (j * c.n) * 2 ^ c.n ∣ 2 ^ 64 := by
    rw [← pow_add]
    exact Nat.pow_dvd_pow 2 hend
  rw [carry, lane_toNat h64, lane_toNat h64, BitVec.toNat_add, ← Nat.mod_mul_right_div_self ((d.toNat + c.ones.toNat) % 2 ^ 64),
    Nat.mod_mod_of_dvd _ hdvd, Nat.mod_mul_right_div_self, Nat.add_div hP, hom]
  have hone : 1 ≡ c.ones.toNat / 2 ^ (j * c.n) [MOD 2 ^ c.n] := hod ▸ Nat.mod_modEq _ _
  exact ((Nat.mod_modEq _ _).add hone).add_right _

/-! ## The zero-lanes mask -/

/-- The guard bit of lane `j` says whether the lane's value is in the upper half of its range. -/
theorem guardBit_getLsbD (h1 : 1 ≤ c.n) (h64 : c.n ≤ 64) (w : Word) (j : Nat) :
    w.getLsbD (guardBit c j) = decide (2 ^ (c.n - 1) ≤ (lane c w j).toNat) := by
  have hbit : w.getLsbD (guardBit c j) = (lane c w j).toNat.testBit (c.n - 1) := by
    rw [BitVec.testBit_toNat, lane_bit h64, guardBit, Nat.add_sub_assoc h1]
    simp [show c.n - 1 < c.n by omega]
  have hlt := lane_lt h64 w j
  rw [hbit]
  by_cases h : 2 ^ (c.n - 1) ≤ (lane c w j).toNat
  · rw [decide_eq_true h]
    exact Nat.testBit_of_two_pow_le_and_two_pow_add_one_gt h (by rwa [Nat.sub_add_cancel h1])
  · rw [decide_eq_false h]
    exact Nat.testBit_lt_two_pow (by omega)

/-- `HIGH` has the guard bits of the lanes and no other bit. -/
theorem high_bit_iff (h1 : 1 ≤ c.n) (b : Nat) : c.high.getLsbD b = true ↔ ∃ j, j < c.lanes ∧ b = guardBit c j := by
  rw [Config.high, BitVec.getLsbD_shiftLeft, ones_bit h1, Config.used]
  simp only [Bool.and_eq_true, Bool.not_eq_true', decide_eq_true_eq, decide_eq_false_iff_not, guardBit]
  constructor
  · rintro ⟨⟨_, hge⟩, hlt, hmod⟩
    obtain ⟨j, hj⟩ := Nat.dvd_of_mod_eq_zero hmod
    rw [Nat.mul_comm] at hj
    exact ⟨j, Nat.lt_of_mul_lt_mul_right (a := c.n) (by omega), by omega⟩
  · rintro ⟨j, hj, rfl⟩
    have hend := c.lane_end hj
    have hmul := Nat.mul_lt_mul_of_pos_right hj h1
    have hsub : j * c.n + c.n - 1 - (c.n - 1) = j * c.n := by omega
    rw [hsub]
    exact ⟨⟨by omega, by omega⟩, hmul, Nat.mul_mod_left j c.n⟩

/-- Every flag of the zero-lanes mask is the guard bit of a lane. -/
theorem exists_guardBit_of_zeroMask (h1 : 1 ≤ c.n) {w : Word} {b : Nat} (h : (zeroMask c w).getLsbD b = true) :
    ∃ j, j < c.lanes ∧ b = guardBit c j := by
  rw [zeroMask, BitVec.getLsbD_and, Bool.and_eq_true] at h
  exact (high_bit_iff h1 b).1 h.2

/-- A lane is flagged when its own guard bit is clear and the guard bit of the difference is set. -/
theorem zeroMask_guardBit_iff (h1 : 1 ≤ c.n) (h64 : c.n ≤ 64) (w : Word) {j : Nat} (hj : j < c.lanes) :
    (zeroMask c w).getLsbD (guardBit c j) = true ↔
      (lane c w j).toNat < 2 ^ (c.n - 1) ∧ 2 ^ (c.n - 1) ≤ (lane c (w - c.ones) j).toNat := by
  have hb : guardBit c j < 64 := by
    have := c.lane_end hj
    unfold guardBit
    omega
  rw [zeroMask, BitVec.getLsbD_and, BitVec.getLsbD_and, BitVec.getLsbD_not, guardBit_getLsbD h1 h64, guardBit_getLsbD h1 h64,
    (high_bit_iff h1 _).2 ⟨j, hj, rfl⟩]
  simp [hb]
  tauto

/-- A flagged lane is 0, or it is 1 and a borrow goes into it. -/
theorem lane_of_flagged (h1 : 1 ≤ c.n) (h64 : c.n ≤ 64) {w : Word} {j : Nat} (hj : j < c.lanes)
    (h : (zeroMask c w).getLsbD (guardBit c j) = true) :
    lane c w j = 0#64 ∨ (lane c w j = 1#64 ∧ borrowIn c w j = true) := by
  obtain ⟨hx, hd⟩ := (zeroMask_guardBit_iff h1 h64 w hj).1 h
  have hsub := lane_sub_ones h1 h64 w hj
  have hdlt := lane_lt h64 (w - c.ones) j
  have htwo : 2 ^ c.n = 2 * 2 ^ (c.n - 1) := by rw [← pow_succ', Nat.sub_add_cancel h1]
  have hb := Bool.toNat_le (borrowIn c w j)
  have hwrap : 2 ^ c.n ≤ (lane c (w - c.ones) j).toNat + 1 + (borrowIn c w j).toNat := by
    by_contra hlt
    rw [Nat.mod_eq_of_lt (by omega)] at hsub
    omega
  rw [Nat.mod_eq_sub_mod hwrap, Nat.mod_eq_of_lt (by omega)] at hsub
  rw [← BitVec.toNat_inj, ← BitVec.toNat_inj, show (0#64).toNat = 0 from rfl, show (1#64).toNat = 1 from rfl]
  cases hbj : borrowIn c w j
  · left
    simp only [hbj, Bool.toNat_false] at hsub
    omega
  · simp only [hbj, Bool.toNat_true] at hsub
    simp
    omega

/-- A zero lane without a borrow into it is flagged. -/
theorem flagged_of_zero_lane (h1 : 1 ≤ c.n) (h64 : c.n ≤ 64) {w : Word} {j : Nat} (hj : j < c.lanes)
    (hz : lane c w j = 0#64) (hb : borrowIn c w j = false) : (zeroMask c w).getLsbD (guardBit c j) = true := by
  have hsub := lane_sub_ones h1 h64 w hj
  have hdlt := lane_lt h64 (w - c.ones) j
  have htwo : 2 ^ c.n = 2 * 2 ^ (c.n - 1) := by rw [← pow_succ', Nat.sub_add_cancel h1]
  have hpos : 0 < 2 ^ (c.n - 1) := by positivity
  rw [zeroMask_guardBit_iff h1 h64 w hj, hz]
  refine ⟨hpos, ?_⟩
  by_contra hlt
  rw [hz, hb, Nat.mod_eq_of_lt (by simp only [Bool.toNat_false]; omega)] at hsub
  simp at hsub

/-- A flagged lane has a zero lane at or below it. -/
theorem exists_zero_lane_of_flagged (h1 : 1 ≤ c.n) (h64 : c.n ≤ 64) {w : Word} {j : Nat} (hj : j < c.lanes)
    (h : (zeroMask c w).getLsbD (guardBit c j) = true) : ∃ i, i ≤ j ∧ lane c w i = 0#64 := by
  rcases lane_of_flagged h1 h64 hj h with hz | ⟨_, hb⟩
  · exact ⟨j, le_rfl, hz⟩
  · obtain ⟨i, hi, hz⟩ := exists_zero_lane_of_borrowIn hb
    exact ⟨i, hi.le, hz⟩

/-- The lowest zero lane is flagged. -/
theorem flagged_of_lowest_zero_lane (h1 : 1 ≤ c.n) (h64 : c.n ≤ 64) {w : Word} {j : Nat} (hj : j < c.lanes)
    (hz : lane c w j = 0#64) (hlow : ∀ i, i < j → lane c w i ≠ 0#64) : (zeroMask c w).getLsbD (guardBit c j) = true := by
  refine flagged_of_zero_lane h1 h64 hj hz (Bool.eq_false_iff.2 fun hb => ?_)
  obtain ⟨i, hi, hzi⟩ := exists_zero_lane_of_borrowIn hb
  exact hlow i hi hzi

theorem guardBit_div (h1 : 1 ≤ c.n) (j : Nat) : guardBit c j / c.n = j := by
  rw [guardBit, Nat.add_sub_assoc h1, Nat.add_comm, Nat.add_mul_div_right _ _ (by omega), Nat.div_eq_of_lt (by omega), Nat.zero_add]

theorem guardBit_lt_iff (h1 : 1 ≤ c.n) {i j : Nat} : guardBit c i < guardBit c j ↔ i < j := by
  have := Nat.mul_lt_mul_right (show 0 < c.n from h1) (b := i) (c := j)
  unfold guardBit
  omega

/-- If some index below `n` has a property, there is a lowest such index. -/
theorem exists_lowest {p : Nat → Prop} {n : Nat} (h : ∃ j, j < n ∧ p j) : ∃ j, j < n ∧ p j ∧ ∀ i, i < j → ¬ p i := by
  classical
  obtain ⟨hj, hp⟩ := Nat.find_spec h
  exact ⟨Nat.find h, hj, hp, fun i hi hpi => Nat.find_min h hi ⟨hi.trans hj, hpi⟩⟩

/-- The mask is 0 exactly when no lane is 0 (40_lane_primitive.md R88). -/
theorem zeroMask_eq_zero_iff (h1 : 1 ≤ c.n) (h64 : c.n ≤ 64) {w : Word} :
    zeroMask c w = 0#64 ↔ ∀ j, j < c.lanes → lane c w j ≠ 0#64 := by
  constructor
  · intro h j hj hz
    obtain ⟨m, hm, hzm, hlow⟩ := exists_lowest (p := fun j => lane c w j = 0#64) ⟨j, hj, hz⟩
    simpa [h] using flagged_of_lowest_zero_lane h1 h64 hm hzm hlow
  · intro h
    apply BitVec.eq_of_getLsbD_eq
    intro b _
    rw [BitVec.getLsbD_zero, Bool.eq_false_iff]
    intro hb
    obtain ⟨j, hj, rfl⟩ := exists_guardBit_of_zeroMask h1 hb
    obtain ⟨i, hi, hz⟩ := exists_zero_lane_of_flagged h1 h64 hj hb
    exact h i (hi.trans_lt hj) hz

/-- The mask's lowest flag is in the lowest zero lane. -/
theorem flaggedLane_zeroMask_of_lowest (h1 : 1 ≤ c.n) (h64 : c.n ≤ 64) {w : Word} {j : Nat} (hj : j < c.lanes)
    (hz : lane c w j = 0#64) (hlow : ∀ i, i < j → lane c w i ≠ 0#64) : flaggedLane c (zeroMask c w) = some j := by
  have hctz : ctz (zeroMask c w) = some (guardBit c j) := by
    have hend := c.lane_end hj
    refine ctz_eq_some.2 ⟨by unfold guardBit; omega, flagged_of_lowest_zero_lane h1 h64 hj hz hlow, fun b hb => ?_⟩
    rw [Bool.eq_false_iff]
    intro hflag
    obtain ⟨i, hi, rfl⟩ := exists_guardBit_of_zeroMask h1 hflag
    obtain ⟨m, hm, hzm⟩ := exists_zero_lane_of_flagged h1 h64 hi hflag
    exact hlow m (hm.trans_lt ((guardBit_lt_iff h1).1 hb)) hzm
  simp [flaggedLane, hctz, guardBit_div h1]

/-- The lane of the mask's lowest flag is the lowest zero lane (40_lane_primitive.md R88). -/
theorem flaggedLane_zeroMask_eq_some (h1 : 1 ≤ c.n) (h64 : c.n ≤ 64) {w : Word} {j : Nat} :
    flaggedLane c (zeroMask c w) = some j ↔ j < c.lanes ∧ lane c w j = 0#64 ∧ ∀ i, i < j → lane c w i ≠ 0#64 := by
  refine ⟨fun h => ?_, fun ⟨hj, hz, hlow⟩ => flaggedLane_zeroMask_of_lowest h1 h64 hj hz hlow⟩
  by_cases hex : ∃ i, i < c.lanes ∧ lane c w i = 0#64
  · obtain ⟨m, hm, hzm, hlow⟩ := exists_lowest hex
    obtain rfl : m = j := by simpa [flaggedLane_zeroMask_of_lowest h1 h64 hm hzm hlow] using h
    exact ⟨hm, hzm, hlow⟩
  · have : zeroMask c w = 0#64 := (zeroMask_eq_zero_iff h1 h64).2 fun i hi hz => hex ⟨i, hi, hz⟩
    rw [flaggedLane_eq_none.2 this] at h
    cases h

/-! ## The match mask -/

/-- A value a search or set command takes fits a lane with its guard bit clear (00_scope.md R6). -/
theorem lt_of_le_maxSafe {v : Nat} (hv : v ≤ c.maxSafe) : v < 2 ^ (c.n - 1) := by
  have : 0 < 2 ^ (c.n - 1) := by positivity
  unfold Config.maxSafe at hv
  omega

theorem lt_of_le_lmask {v : Nat} (hv : v ≤ c.lmask) : v < 2 ^ c.n := by
  have : 0 < 2 ^ c.n := by positivity
  unfold Config.lmask at hv
  omega

theorem lane_lt_of_le_maxSafe {v : Nat} (hv : v ≤ c.maxSafe) : v < 2 ^ c.n :=
  (lt_of_le_maxSafe hv).trans_le (Nat.pow_le_pow_right (by omega) (Nat.sub_le _ _))

theorem lane_xor (x y : Word) (i : Nat) : lane c (x ^^^ y) i = lane c x i ^^^ lane c y i := by
  simp only [lane, BitVec.ushiftRight_xor_distrib]
  ext b
  simp [Bool.and_xor_distrib_right]

/-- A lane differs from `v` exactly where the word differs from the broadcast of `v`. -/
theorem lane_xor_bcast_eq_zero_iff (h1 : 1 ≤ c.n) (h64 : c.n ≤ 64) (w : Word) {v i : Nat} (hv : v < 2 ^ c.n)
    (hi : i < c.lanes) : lane c (w ^^^ bcast c (word v)) i = 0#64 ↔ lane c w i = word v := by
  rw [lane_xor, lane_bcast h1 h64 hv hi, BitVec.xor_eq_zero_iff]

/-- The match mask is 0 exactly when no lane holds `v` (41_search.md R107). -/
theorem matchMask_eq_zero_iff (h1 : 1 ≤ c.n) (h64 : c.n ≤ 64) {w : Word} {v : Nat} (hv : v < 2 ^ c.n) :
    matchMask c w (word v) = 0#64 ↔ ∀ j, j < c.lanes → lane c w j ≠ word v := by
  rw [matchMask, zeroMask_eq_zero_iff h1 h64]
  exact forall₂_congr fun j hj => (lane_xor_bcast_eq_zero_iff h1 h64 w hv hj).not

/-- The lane of the match mask's lowest flag is the lowest lane that holds `v` (41_search.md R107). -/
theorem flaggedLane_matchMask_eq_some (h1 : 1 ≤ c.n) (h64 : c.n ≤ 64) {w : Word} {v j : Nat} (hv : v < 2 ^ c.n) :
    flaggedLane c (matchMask c w (word v)) = some j ↔
      j < c.lanes ∧ lane c w j = word v ∧ ∀ i, i < j → lane c w i ≠ word v := by
  rw [matchMask, flaggedLane_zeroMask_eq_some h1 h64]
  refine and_congr_right fun hj => ?_
  rw [lane_xor_bcast_eq_zero_iff h1 h64 w hv hj]
  exact and_congr_right fun _ => forall₂_congr fun i hi => (lane_xor_bcast_eq_zero_iff h1 h64 w hv (hi.trans hj)).not

/-! ## The masked match of a bucket

Of the three lanes of a bucket the masked match computes what the zero-lanes mask computes of the lowest three lanes of a packed register
of lane width 11. -/

/-- The parameters of a packed register whose lanes are as wide as a bucket's. -/
def bucketLanes : Config := { n := 11, storage := .grow 1, bc := 1 }

theorem lane_bucketLanes (b : Word) (i : Nat) : lane bucketLanes b i = blane b i := by
  rw [lane, blane, show bucketLanes.n = 11 from rfl, Nat.mul_comm, show word bucketLanes.lmask = bLaneMask from rfl]

theorem guardBit_bucketLanes (i : Nat) : guardBit bucketLanes i = 11 * i + 10 := by
  rw [guardBit, show bucketLanes.n = 11 from rfl]
  omega

/-- Below bit 33 it does not matter that a packed register of this width has more than three lanes. -/
theorem sub_bOnes_bit (x : Word) {p : Nat} (hp : p < 33) : (x - bOnes).getLsbD p = (x - bucketLanes.ones).getLsbD p := by
  have h : (x - bOnes).toNat % 2 ^ 33 = (x - bucketLanes.ones).toNat % 2 ^ 33 := by
    rw [BitVec.toNat_sub, BitVec.toNat_sub, show bOnes.toNat = 4196353 from rfl,
      show bucketLanes.ones.toNat = 17600780175361 from rfl]
    omega
  have hbit := congrArg (fun n => n.testBit p) h
  simpa only [Nat.testBit_mod_two_pow, BitVec.testBit_toNat, hp, decide_true, Bool.true_and] using hbit

/-- The flags of the masked match: the guard bits of the lanes below the count that the zero-lanes mask flags. -/
theorem bmask_bit_iff (b r : Word) (p : Nat) : (bmask b r).getLsbD p = true ↔
    ∃ i, i < bcount b ∧ p = guardBit bucketLanes i ∧ (zeroMask bucketLanes (b ^^^ r * bOnes)).getLsbD p = true := by
  have hc := bcount_lt b
  have hmask : (countMask (bcount b)).getLsbD p = true ↔ ∃ i, i < bcount b ∧ p = guardBit bucketLanes i := by
    rw [countMask_bit _ _ hc]
    simp only [guardBit_bucketLanes]
    constructor
    · rintro (⟨h, rfl⟩ | ⟨h, rfl⟩ | ⟨h, rfl⟩)
      · exact ⟨0, h, rfl⟩
      · exact ⟨1, h, rfl⟩
      · exact ⟨2, h, rfl⟩
    · rintro ⟨i, hi, rfl⟩
      omega
  have hbits : (∃ i, i < bcount b ∧ p = guardBit bucketLanes i) → (bmask b r).getLsbD p =
      ((zeroMask bucketLanes (b ^^^ r * bOnes)).getLsbD p && (countMask (bcount b)).getLsbD p) := by
    rintro ⟨i, hi, hp⟩
    have hhigh : bucketLanes.high.getLsbD p = true := (high_bit_iff (by decide) p).2 ⟨i, by
      have : bucketLanes.lanes = 5 := rfl
      omega, hp⟩
    rw [guardBit_bucketLanes] at hp
    simp only [bmask, zeroMask, BitVec.getLsbD_and, sub_bOnes_bit _ (show p < 33 by omega), hhigh, Bool.and_true]
  constructor
  · intro h
    have hcm : (countMask (bcount b)).getLsbD p = true := by
      rw [bmask, BitVec.getLsbD_and, Bool.and_eq_true] at h
      exact h.2
    have hex := hmask.1 hcm
    rw [hbits hex, Bool.and_eq_true] at h
    obtain ⟨i, hi, hp⟩ := hex
    exact ⟨i, hi, hp, h.1⟩
  · rintro ⟨i, hi, hp, hz⟩
    rw [hbits ⟨i, hi, hp⟩, hz, hmask.2 ⟨i, hi, hp⟩]
    rfl

/-- A lane of a bucket differs from `r` exactly where the bucket differs from the replicated `r`. -/
theorem lane_xor_mul_bOnes_eq_zero_iff (b : Word) {r i : Nat} (hr : r < 2048) (hi : i < 3) :
    lane bucketLanes (b ^^^ word r * bOnes) i = 0#64 ↔ blane b i = word r := by
  have hmul : (word r * bOnes).toNat = r * onesNat 11 3 := by
    have := mul_onesNat_lt 11 r 3 hr
    rw [BitVec.toNat_mul, word_toNat (by omega), show bOnes.toNat = onesNat 11 3 from rfl]
    exact Nat.mod_eq_of_lt (by omega)
  have hlane : lane bucketLanes (word r * bOnes) i = word r := by
    apply BitVec.eq_of_toNat_eq
    rw [lane_toNat (by decide), hmul, word_toNat (by omega), show bucketLanes.n = 11 from rfl]
    apply Nat.eq_of_testBit_eq
    intro p
    rw [Nat.testBit_mod_two_pow, Nat.testBit_div_two_pow, mul_onesNat_bit 11 r 3 _ (by omega) hr]
    by_cases hp : p < 11
    · simp [hp, show p + i * 11 < 33 by omega, Nat.mod_eq_of_lt hp]
    · simp [hp]
      exact Nat.testBit_lt_two_pow ((show r < 2 ^ 11 from hr).trans_le (Nat.pow_le_pow_right (by omega) (by omega)))
  rw [lane_xor, hlane, BitVec.xor_eq_zero_iff, lane_bucketLanes]

/-- The flags of the masked match are the guard bits of occupied lanes, and the lowest one is in the lowest occupied lane that holds `r`
(43_bucketed_set.md R158). -/
theorem bmatch_of_lowest (b : Word) {r i : Nat} (hr : r < 2048) (hi : i < bcount b) (he : blane b i = word r)
    (hlow : ∀ j, j < i → blane b j ≠ word r) : bmatch b (word r) = some i := by
  have hc := bcount_lt b
  have h5 : bucketLanes.lanes = 5 := rfl
  have hctz : ctz (bmask b (word r)) = some (guardBit bucketLanes i) := by
    refine ctz_eq_some.2 ⟨by rw [guardBit_bucketLanes]; omega, ?_, fun p hp => ?_⟩
    · refine (bmask_bit_iff ..).2 ⟨i, hi, rfl, flagged_of_lowest_zero_lane (by decide) (by decide) (by omega) ?_ ?_⟩
      · exact (lane_xor_mul_bOnes_eq_zero_iff b hr (by omega)).2 he
      · exact fun j hj hz => hlow j hj ((lane_xor_mul_bOnes_eq_zero_iff b hr (by omega)).1 hz)
    · rw [Bool.eq_false_iff]
      intro hflag
      obtain ⟨j, hj, rfl, hz⟩ := (bmask_bit_iff ..).1 hflag
      obtain ⟨m, hm, hzm⟩ := exists_zero_lane_of_flagged (by decide) (by decide) (by omega) hz
      have hji := (guardBit_lt_iff (by decide)).1 hp
      exact hlow m (by omega) ((lane_xor_mul_bOnes_eq_zero_iff b hr (by omega)).1 hzm)
  have hdiv : guardBit bucketLanes i / 11 = i := guardBit_div (c := bucketLanes) (by decide) i
  simp [bmatch, hctz, hdiv]

/-- The masked match answers nothing exactly when no occupied lane holds `r` (43_bucketed_set.md R158). -/
theorem bmatch_eq_none (b : Word) {r : Nat} (hr : r < 2048) :
    bmatch b (word r) = none ↔ ∀ i, i < bcount b → blane b i ≠ word r := by
  have hc := bcount_lt b
  have h5 : bucketLanes.lanes = 5 := rfl
  constructor
  · intro h i hi he
    obtain ⟨m, hm, hem, hlow⟩ := exists_lowest (p := fun j => blane b j = word r) ⟨i, hi, he⟩
    rw [bmatch_of_lowest b hr hm hem hlow] at h
    cases h
  · intro h
    rw [bmatch, Option.map_eq_none_iff, ctz_eq_none]
    apply BitVec.eq_of_getLsbD_eq
    intro p _
    rw [BitVec.getLsbD_zero, Bool.eq_false_iff]
    intro hflag
    obtain ⟨j, hj, rfl, hz⟩ := (bmask_bit_iff ..).1 hflag
    obtain ⟨m, hm, hzm⟩ := exists_zero_lane_of_flagged (by decide) (by decide) (by omega) hz
    exact h m (by omega) ((lane_xor_mul_bOnes_eq_zero_iff b hr (by omega)).1 hzm)

/-- The masked match answers the lowest occupied lane that holds `r` (43_bucketed_set.md R158). -/
theorem bmatch_eq_some (b : Word) {r i : Nat} (hr : r < 2048) :
    bmatch b (word r) = some i ↔ i < bcount b ∧ blane b i = word r ∧ ∀ j, j < i → blane b j ≠ word r := by
  refine ⟨fun h => ?_, fun ⟨hi, he, hlow⟩ => bmatch_of_lowest b hr hi he hlow⟩
  by_cases hex : ∃ j, j < bcount b ∧ blane b j = word r
  · obtain ⟨m, hm, hem, hlow⟩ := exists_lowest hex
    obtain rfl : m = i := by simpa [bmatch_of_lowest b hr hm hem hlow] using h
    exact ⟨hm, hem, hlow⟩
  · rw [(bmatch_eq_none b hr).2 fun j hj he => hex ⟨j, hj, he⟩] at h
    cases h

end Sys2Proof.Machine

/-! # The generic set invariants

The invariants of 10_state.md R32 speak of the set's non-zero lanes only. A command that is no raw write leaves those lanes as they are, puts one more
value into a free position, or clears one position; each of the three keeps the invariants. -/

namespace Sys2Proof.Machine

variable {s t : State}

/-! ## What the scans find -/

theorem n_le_wordWidth {c : Config} (hok : c.ok = true) : c.n ≤ 64 := (c.n_le hok).trans (by decide)

/-- The duplicate scan finds nothing exactly when no lane of the set holds the value. -/
theorem holdingReg_word_eq_none (hok : s.cfg.ok = true) {v : Nat} (hv : v ≤ s.cfg.maxSafe) :
    holdingReg s (word v) = none ↔ ¬ s.holds v := by
  rw [holdingReg_eq_none]
  simp only [matchMask_eq_zero_iff (s.cfg.n_pos hok) (n_le_wordWidth hok) (lane_lt_of_le_maxSafe hv), State.holds,
    State.setPos, State.laneAt]
  constructor
  · rintro h ⟨k, i, ⟨hk, hi⟩, he⟩
    exact h k hk i hi he
  · exact fun h k hk i hi he => h ⟨k, i, ⟨hk, hi⟩, he⟩

/-- The position `GERA` clears is a position of the set that holds the value. -/
theorem eraseSite_word_spec (hok : s.cfg.ok = true) {v k i : Nat} (hv : v ≤ s.cfg.maxSafe)
    (h : eraseSite s (word v) = some (k, i)) : s.setPos k i ∧ s.laneAt k i = word v := by
  obtain ⟨hreg, hlane⟩ := eraseSite_eq_some.1 h
  obtain ⟨hi, he, _⟩ :=
    (flaggedLane_matchMask_eq_some (s.cfg.n_pos hok) (n_le_wordWidth hok) (lane_lt_of_le_maxSafe hv)).1 hlane
  exact ⟨⟨(holdingReg_eq_some.1 hreg).1, hi⟩, he⟩

/-- The position `GINS` fills is an empty usable position of the set. -/
theorem insertSite_spec (hok : s.cfg.ok = true) {k i : Nat} (h : insertSite s = some (k, i)) :
    s.setPos k i ∧ s.laneAt k i = 0#64 ∧ usable s.cfg k i = true := by
  obtain ⟨hk, hfree, _⟩ := insertSite_eq_some.1 h
  obtain ⟨hlane, hu⟩ := freeLaneOf_eq_some.1 hfree
  obtain ⟨hi, hz, _⟩ := (flaggedLane_zeroMask_eq_some (s.cfg.n_pos hok) (n_le_wordWidth hok)).1 hlane
  exact ⟨⟨hk, hi⟩, hz, hu⟩

/-! ## Members by position -/

/-- Position `(k, i)` of the set holds the non-zero value `x`. -/
def State.memberAt (s : State) (k i : Nat) (x : Word) : Prop := s.setPos k i ∧ s.laneAt k i = x ∧ x ≠ 0#64

/-- The positions of the set that hold a member. -/
def State.memberPositions (s : State) : Finset (Nat × Nat) :=
  (Finset.range s.glen.toNat ×ˢ Finset.range s.cfg.lanes).filter fun p => s.laneAt p.1 p.2 ≠ 0#64

theorem State.mem_memberPositions {p : Nat × Nat} : p ∈ s.memberPositions ↔ ∃ x, s.memberAt p.1 p.2 x := by
  simp [State.memberPositions, State.memberAt, State.setPos]

/-- The member count of `GI5` counts these positions. -/
theorem State.memberLanes_eq_card (s : State) : s.memberLanes = s.memberPositions.card := by
  rw [State.memberPositions, Finset.card_filter, Finset.sum_product]
  simp only [← Finset.card_filter]
  have hrow : ∀ k, ((Finset.range s.cfg.lanes).filter fun i => s.laneAt k i ≠ 0#64).card =
      (List.range s.cfg.lanes).countP fun i => s.laneAt k i != 0#64 := fun k => by
    rw [List.countP_congr (q := fun i => decide (s.laneAt k i ≠ 0#64)) (by simp), List.countP_eq_length_filter]
    rfl
  simp only [hrow]
  rfl

/-- The set has at most `2^22` positions, so its member count does not wrap. -/
theorem State.card_memberPositions_le (hok : s.cfg.ok = true) (hg : s.glenOk) : s.memberPositions.card ≤ 65536 * 64 := by
  calc s.memberPositions.card ≤ (Finset.range s.glen.toNat ×ˢ Finset.range s.cfg.lanes).card := Finset.card_filter_le _ _
    _ = s.glen.toNat * s.cfg.lanes := by simp
    _ ≤ 65536 * 64 := Nat.mul_le_mul (hg.1.trans (s.cfg.rmax_le hok)) s.cfg.lanes_le

/-- The generic set invariants, said of the members alone; `GI4` follows from `GI2`. -/
theorem State.genericOk_iff : s.genericOk ↔
    (∀ k i k' i' x, s.memberAt k i x → s.memberAt k' i' x → k = k' ∧ i = i') ∧
      (∀ k i x, s.memberAt k i x → x.toNat ≤ s.cfg.maxSafe) ∧ s.gcnt.toNat = s.memberPositions.card ∧
      ∀ gc, s.cfg.storage = .fixed gc → ∀ k i x, s.memberAt k i x → k * s.cfg.lanes + i < gc := by
  constructor
  · rintro ⟨h1, h2, -, h5, h6⟩
    refine ⟨?_, ?_, h5.trans s.memberLanes_eq_card, ?_⟩
    · rintro k i k' i' x ⟨hp, rfl, hx⟩ ⟨hp', he, -⟩
      exact h1 k i k' i' hp hp' he.symm hx
    · rintro k i x ⟨hp, rfl, -⟩
      exact h2 k i hp
    · rintro gc hst k i x ⟨hp, rfl, hx⟩
      by_contra hge
      exact hx (h6 gc hst k i hp (Nat.le_of_not_lt hge))
  · rintro ⟨h1, h2, h5, h6⟩
    have hmax : s.gi2 := fun k i hp => by
      by_cases hx : s.laneAt k i = 0#64
      · simp [hx]
      · exact h2 k i _ ⟨hp, rfl, hx⟩
    refine ⟨fun k i k' i' hp hp' he hx => h1 k i k' i' _ ⟨hp, rfl, hx⟩ ⟨hp', he.symm, hx⟩, hmax, fun k i hp => ?_,
      h5.trans s.memberLanes_eq_card.symm, fun gc hst k i hp hge => ?_⟩
    · rw [← BitVec.testBit_toNat]
      exact Nat.testBit_lt_two_pow (lt_of_le_maxSafe (hmax k i hp))
    · by_contra hx
      exact absurd (h6 gc hst k i _ ⟨hp, rfl, hx⟩) (Nat.not_lt.2 hge)

/-! ## The three things that can happen to the members -/

/-- `t` has the members of `s`. -/
structure SameMembers (s t : State) : Prop where
  cfg : t.cfg = s.cfg
  gcnt : t.gcnt = s.gcnt
  members : ∀ k i x, t.memberAt k i x ↔ s.memberAt k i x

/-- `t` has the members of `s` and the value `v`, no member before, in the free usable position `(k, i)`. -/
structure InsertsMember (s t : State) (k i v : Nat) : Prop where
  cfg : t.cfg = s.cfg
  gcnt : t.gcnt = s.gcnt + 1#32
  pos : 1 ≤ v
  le : v ≤ s.cfg.maxSafe
  fresh : ¬ s.holds v
  free : ∀ x, ¬ s.memberAt k i x
  below : ∀ gc, s.cfg.storage = .fixed gc → k * s.cfg.lanes + i < gc
  members : ∀ k' i' x, t.memberAt k' i' x ↔ (k' = k ∧ i' = i ∧ x = word v) ∨ s.memberAt k' i' x

/-- `t` has the members of `s` but the one in position `(k, i)`, which was `v`. -/
structure RemovesMember (s t : State) (k i v : Nat) : Prop where
  cfg : t.cfg = s.cfg
  gcnt : t.gcnt = s.gcnt - 1#32
  held : s.memberAt k i (word v)
  members : ∀ k' i' x, t.memberAt k' i' x ↔ ¬ (k' = k ∧ i' = i) ∧ s.memberAt k' i' x

theorem SameMembers.genericOk (h : SameMembers s t) (hs : s.genericOk) : t.genericOk := by
  have hpos : t.memberPositions = s.memberPositions := by
    ext p
    simp only [State.mem_memberPositions, h.members]
  rw [State.genericOk_iff] at hs ⊢
  simpa only [h.members, h.cfg, h.gcnt, hpos] using hs

theorem InsertsMember.memberPositions {k i v : Nat} (h : InsertsMember s t k i v) :
    t.memberPositions = insert (k, i) s.memberPositions := by
  ext ⟨k', i'⟩
  simp only [State.mem_memberPositions, h.members, Finset.mem_insert, Prod.mk.injEq, exists_or]
  simp

theorem InsertsMember.genericOk {k i v : Nat} (h : InsertsMember s t k i v) (hok : s.cfg.ok = true) (hg : s.glenOk)
    (hs : s.genericOk) : t.genericOk := by
  obtain ⟨h1, h2, h5, h6⟩ := State.genericOk_iff.1 hs
  have hcard := State.card_memberPositions_le hok hg
  have hnew : ∀ k' i', ¬ s.memberAt k' i' (word v) := fun k' i' ⟨hp, he, _⟩ => h.fresh ⟨k', i', hp, he⟩
  refine State.genericOk_iff.2 ⟨fun k' i' k'' i'' x hm hm' => ?_, fun k' i' x hm => ?_, ?_, fun gc hst k' i' x hm => ?_⟩
  · rcases (h.members ..).1 hm with ⟨rfl, rfl, rfl⟩ | hm
    · rcases (h.members ..).1 hm' with ⟨rfl, rfl, -⟩ | hm'
      · exact ⟨rfl, rfl⟩
      · exact absurd hm' (hnew _ _)
    · rcases (h.members ..).1 hm' with ⟨rfl, rfl, rfl⟩ | hm'
      · exact absurd hm (hnew _ _)
      · exact h1 _ _ _ _ x hm hm'
  · rw [h.cfg]
    rcases (h.members ..).1 hm with ⟨rfl, rfl, rfl⟩ | hm
    · exact (BitVec.toNat_ofNat _ _ ▸ Nat.mod_le v _).trans h.le
    · exact h2 _ _ x hm
  · have hfree : (k, i) ∉ s.memberPositions := fun hm => by
      obtain ⟨x, hx⟩ := State.mem_memberPositions.1 hm
      exact h.free x hx
    rw [h.memberPositions, Finset.card_insert_of_notMem hfree, h.gcnt, BitVec.toNat_add, h5]
    exact Nat.mod_eq_of_lt (by simp; omega)
  · rw [h.cfg] at hst ⊢
    rcases (h.members ..).1 hm with ⟨rfl, rfl, -⟩ | hm
    · exact h.below gc hst
    · exact h6 gc hst _ _ x hm

theorem RemovesMember.memberPositions {k i v : Nat} (h : RemovesMember s t k i v) :
    t.memberPositions = s.memberPositions.erase (k, i) := by
  ext ⟨k', i'⟩
  simp [State.mem_memberPositions, h.members]

theorem RemovesMember.genericOk {k i v : Nat} (h : RemovesMember s t k i v) (hs : s.genericOk) : t.genericOk := by
  obtain ⟨h1, h2, h5, h6⟩ := State.genericOk_iff.1 hs
  refine State.genericOk_iff.2 ⟨fun k' i' k'' i'' x hm hm' => ?_, fun k' i' x hm => ?_, ?_, fun gc hst k' i' x hm => ?_⟩
  · exact h1 _ _ _ _ x ((h.members ..).1 hm).2 ((h.members ..).1 hm').2
  · rw [h.cfg]
    exact h2 _ _ x ((h.members ..).1 hm).2
  · have hmem : (k, i) ∈ s.memberPositions := State.mem_memberPositions.2 ⟨_, h.held⟩
    have hpos := Finset.card_pos.2 ⟨_, hmem⟩
    have hlt := s.gcnt.isLt
    rw [h.memberPositions, Finset.card_erase_of_mem hmem, h.gcnt, BitVec.toNat_sub, ← h5]
    rw [← h5] at hpos
    simp
    omega
  · rw [h.cfg] at hst ⊢
    exact h6 gc hst _ _ x ((h.members ..).1 hm).2

/-! ## What a register write does to the members -/

theorem State.reg_of_write {k : Nat} {w : Word} (h : t.r = s.r.write k w) (j : Nat) :
    t.reg j = if j = k then w else s.reg j := by
  rw [State.reg, h, Memory.read_write]
  rfl

/-- The lanes after one lane of one register was written. -/
theorem State.laneAt_of_write_setLane (hok : s.cfg.ok = true) (hc : t.cfg = s.cfg) {k i : Nat} {v : Word}
    (hv : v.toNat < 2 ^ s.cfg.n) (hi : i < s.cfg.lanes) (h : t.r = s.r.write k (setLane s.cfg (s.reg k) i v)) (k' i' : Nat) :
    t.laneAt k' i' = if k' = k ∧ i' = i then v else s.laneAt k' i' := by
  rw [State.laneAt, State.reg_of_write h, hc]
  by_cases hk : k' = k
  · subst hk
    simp [lane_setLane (n_le_wordWidth hok) _ hv hi, State.laneAt]
  · simp [hk, State.laneAt]

/-- A value a set command takes is the number of its word. -/
theorem word_toNat_of_le_maxSafe (hok : s.cfg.ok = true) {v : Nat} (hv : v ≤ s.cfg.maxSafe) : (word v).toNat = v :=
  word_toNat ((lane_lt_of_le_maxSafe hv).trans_le (Nat.pow_le_pow_right (by omega) (n_le_wordWidth hok)))

/-- A member's word is not 0, the mark of an empty lane. -/
theorem word_ne_zero_of_le_maxSafe (hok : s.cfg.ok = true) {v : Nat} (h1 : 1 ≤ v) (hv : v ≤ s.cfg.maxSafe) : word v ≠ 0#64 := by
  intro h
  have := word_toNat_of_le_maxSafe hok hv
  rw [h] at this
  simp at this
  omega

theorem word_lt_of_le_maxSafe (hok : s.cfg.ok = true) {v : Nat} (hv : v ≤ s.cfg.maxSafe) : (word v).toNat < 2 ^ s.cfg.n := by
  rw [word_toNat_of_le_maxSafe hok hv]
  exact lane_lt_of_le_maxSafe hv

/-- Writing `v` into a free usable position of the set inserts `v`. -/
theorem InsertsMember.of_write {k i v : Nat} (hok : s.cfg.ok = true) (h1 : 1 ≤ v) (hv : v ≤ s.cfg.maxSafe) (hfresh : ¬ s.holds v)
    (hp : s.setPos k i) (hz : s.laneAt k i = 0#64) (hu : usable s.cfg k i = true) (hc : t.cfg = s.cfg) (hglen : t.glen = s.glen)
    (hgcnt : t.gcnt = s.gcnt + 1#32) (hr : t.r = s.r.write k (setLane s.cfg (s.reg k) i (word v))) :
    InsertsMember s t k i v := by
  have hne := word_ne_zero_of_le_maxSafe hok h1 hv
  refine ⟨hc, hgcnt, h1, hv, hfresh, fun x ⟨_, he, hx⟩ => hx (he.symm.trans hz), fun gc hst => ?_, fun k' i' x => ?_⟩
  · simpa [usable, hst] using hu
  · rw [State.memberAt, State.memberAt, State.laneAt_of_write_setLane hok hc (word_lt_of_le_maxSafe hok hv) hp.2 hr, State.setPos, hc, hglen]
    by_cases hki : k' = k ∧ i' = i
    · obtain ⟨rfl, rfl⟩ := hki
      simp only [and_self, if_true, hz, true_and]
      constructor
      · rintro ⟨_, rfl, _⟩
        exact .inl rfl
      · rintro (rfl | ⟨_, rfl, h⟩)
        · exact ⟨hp, rfl, hne⟩
        · exact absurd rfl h
    · simp only [hki, if_false]
      rw [State.setPos]
      tauto

/-- A `GLEN` in its range does not wrap. -/
theorem glen_succ_toNat (hok : s.cfg.ok = true) (hg : s.glenOk) : (s.glen + 1#17).toNat = s.glen.toNat + 1 := by
  have := hg.1
  have := s.cfg.rmax_le hok
  rw [BitVec.toNat_add]
  exact Nat.mod_eq_of_lt (by simp; omega)

/-- Appending a register with `v` in its lowest lane inserts `v` there. -/
theorem InsertsMember.of_append {v n : Nat} (hok : s.cfg.ok = true) (hg : s.glenOk) (h1 : 1 ≤ v) (hv : v ≤ s.cfg.maxSafe)
    (hst : s.cfg.storage = .grow n) (hfresh : ¬ s.holds v) (hc : t.cfg = s.cfg)
    (hglen : t.glen = s.glen + 1#17) (hgcnt : t.gcnt = s.gcnt + 1#32)
    (hr : t.r = s.r.write s.glen.toNat (setLane s.cfg 0#64 0 (word v))) : InsertsMember s t s.glen.toNat 0 v := by
  have hgrown : t.glen.toNat = s.glen.toNat + 1 := by rw [hglen, glen_succ_toNat hok hg]
  have hlanes := s.cfg.two_le_lanes hok
  have hne0 := word_ne_zero_of_le_maxSafe hok h1 hv
  refine ⟨hc, hgcnt, h1, hv, hfresh, fun x ⟨hp, _, _⟩ => absurd hp.1 (lt_irrefl _), fun gc h => ?_, fun k' i' x => ?_⟩
  · rw [hst] at h
    cases h
  · rw [State.memberAt, State.memberAt, State.setPos, State.setPos, State.laneAt, State.reg_of_write hr, hc, hgrown]
    by_cases hk : k' = s.glen.toNat
    · subst hk
      rw [if_pos rfl, lane_setLane (n_le_wordWidth hok) _ (word_lt_of_le_maxSafe hok hv) (by omega), lane_zero]
      by_cases hi : i' = 0
      · subst hi
        simp only [if_true, lt_irrefl, false_and, or_false, true_and]
        constructor
        · rintro ⟨_, rfl, _⟩
          rfl
        · rintro rfl
          exact ⟨⟨by omega, by omega⟩, rfl, hne0⟩
      · simp only [hi, if_false, lt_irrefl, false_and, and_false, or_false, iff_false]
        rintro ⟨_, rfl, h⟩
        exact h rfl
    · simp only [hk, if_false, false_and, false_or, State.laneAt]
      have : k' < s.glen.toNat + 1 ↔ k' < s.glen.toNat := by omega
      rw [this]

/-- Clearing a position that holds a member removes it. -/
theorem RemovesMember.of_write {k i v : Nat} (hok : s.cfg.ok = true) (hp : s.memberAt k i (word v)) (hc : t.cfg = s.cfg)
    (hglen : t.glen = s.glen) (hgcnt : t.gcnt = s.gcnt - 1#32)
    (hr : t.r = s.r.write k (setLane s.cfg (s.reg k) i 0#64)) : RemovesMember s t k i v := by
  refine ⟨hc, hgcnt, hp, fun k' i' x => ?_⟩
  rw [State.memberAt, State.memberAt, State.laneAt_of_write_setLane hok hc (by simp) hp.1.2 hr, State.setPos, State.setPos, hc,
    hglen]
  by_cases hki : k' = k ∧ i' = i
  · simp only [hki, and_self, if_true, not_true_eq_false, false_and, iff_false]
    rintro ⟨_, rfl, h⟩
    exact h rfl
  · simp only [hki, if_false]
    tauto

/-- Writing registers that are not in the set leaves its members. -/
theorem SameMembers.of_reg (hc : t.cfg = s.cfg) (hglen : t.glen = s.glen) (hgcnt : t.gcnt = s.gcnt)
    (hr : ∀ k, k < s.glen.toNat → t.reg k = s.reg k) : SameMembers s t := by
  refine ⟨hc, hgcnt, fun k i x => ?_⟩
  simp only [State.memberAt, State.setPos, State.laneAt, hc, hglen]
  by_cases hk : k < s.glen.toNat
  · rw [hr k hk]
  · simp [hk]

/-- Everything a command that is no raw write into the set does to the members. -/
theorem Effect.members_cases {i : Instr} (h : Effect s i t) (hok : s.cfg.ok = true) (hg : s.glenOk) (hraw : ¬ rawSetWrite i s) :
    SameMembers s t ∨ (∃ k j v, InsertsMember s t k j v) ∨ ∃ k j v, RemovesMember s t k j v := by
  cases h with
  | answer i res => exact .inl (.of_reg rfl rfl rfl fun _ _ => rfl)
  | bcast k v hk hv =>
    refine .inl (.of_reg rfl rfl rfl fun j hj => ?_)
    rw [State.reg_complete, State.reg_setReg, if_neg]
    rintro rfl
    exact hraw (.inl ⟨j, v, rfl, hj⟩)
  | set k i v hk hi hv =>
    refine .inl (.of_reg rfl rfl rfl fun j hj => ?_)
    rw [State.reg_complete, State.reg_setReg, if_neg]
    rintro rfl
    exact hraw (.inr ⟨j, i, v, rfl, hj⟩)
  | gins v k z h1 hv hn hs =>
    obtain ⟨hp, hz, hu⟩ := insertSite_spec hok hs
    exact .inr (.inl ⟨k, z, v, .of_write hok h1 hv ((holdingReg_word_eq_none hok hv).1 hn) hp hz hu rfl rfl rfl rfl⟩)
  | grow v n h1 hv hst hn _ _ =>
    exact .inr (.inl ⟨_, 0, v, .of_append hok hg h1 hv hst ((holdingReg_word_eq_none hok hv).1 hn) rfl rfl rfl rfl⟩)
  | gera v k f h1 hv hs =>
    obtain ⟨hp, he⟩ := eraseSite_word_spec hok hv hs
    exact .inr (.inr ⟨k, f, v, .of_write hok ⟨hp, he, word_ne_zero_of_le_maxSafe hok h1 hv⟩ rfl rfl rfl rfl⟩)
  | bins v k h1 hv hn hs =>
    exact .inl (.of_reg (by simp) (by simp) (by simp) fun _ _ => by simp)
  | bera v k i h1 hv hs =>
    exact .inl (.of_reg (by simp) (by simp) (by simp) fun _ _ => by simp)

/-- Settles O43: a command that is no raw write leaves the members, inserts one or removes one, and each keeps the invariants. -/
theorem commandsKeepTheGenericSetInvariants : Obligations.CommandsKeepTheGenericSetInvariants := by
  intro i s t hok hg hs hraw hexec
  rcases exec_cases hexec with ⟨_, rfl⟩ | ⟨_, c, rfl⟩ | ⟨_, heff⟩
  · exact SameMembers.genericOk (.of_reg rfl rfl rfl fun _ _ => rfl) hs
  · exact SameMembers.genericOk (.of_reg rfl rfl rfl fun _ _ => rfl) hs
  · rcases heff.members_cases hok hg hraw with h | ⟨k, j, v, h⟩ | ⟨k, j, v, h⟩
    · exact h.genericOk hs
    · exact h.genericOk hok hg hs
    · exact h.genericOk hs

end Sys2Proof.Machine

/-! # The bucket invariants

The invariants of 10_state.md R33: well-formed buckets, and conditions on the remainders of the occupied lanes. `BINS` adds a remainder its half does not
hold, `BERA` takes one away and moves another, and nothing else writes a bucket. -/

namespace Sys2Proof.Machine

variable {s t : State}

/-! ## The remainder and the half of a value -/

theorem rem_toNat (v : Nat) : (rem v).toNat = v % 1024 := word_toNat (by omega)

/-- A value whose half is `LO` is its own remainder. -/
theorem rem_ne_zero_of_half_lo {v : Nat} (h1 : 1 ≤ v) (hv : v ≤ 2047) (h : half v = .lo) : rem v ≠ 0#64 := by
  intro hz
  have hrem := rem_toNat v
  have hbit : v.testBit 10 = false := by
    unfold half at h
    split at h
    · cases h
    · next hb => simpa using hb
  rw [Nat.testBit_eq_decide_div_mod_eq, decide_eq_false_iff_not] at hbit
  rw [hz] at hrem
  simp at hrem
  omega

/-- The scan for the remainder finds nothing exactly when no occupied lane of the half holds it. -/
theorem holdingBucket_rem_eq_none {h : Half} {v : Nat} : holdingBucket s h (rem v) = none ↔
    ∀ k i, s.occupied h k i → blane (s.bucket h k) i ≠ rem v := by
  have hr : v % 1024 < 2048 := by omega
  rw [holdingBucket_eq_none]
  simp only [rem, bmatch_eq_none _ hr, State.occupied, and_imp]
  exact ⟨fun h k i hk hi => h k hk i hi, fun h k hk i hi => h k i hk hi⟩

/-- The lane `BERA` clears is an occupied lane of the half that holds the remainder. -/
theorem matchSite_rem_spec {h : Half} {v k i : Nat} (hs : matchSite s h (rem v) = some (k, i)) :
    s.occupied h k i ∧ blane (s.bucket h k) i = rem v := by
  obtain ⟨hb, hm⟩ := matchSite_eq_some.1 hs
  obtain ⟨hi, he, _⟩ := (bmatch_eq_some _ (show v % 1024 < 2048 by omega)).1 hm
  exact ⟨⟨(holdingBucket_eq_some.1 hb).1, hi⟩, he⟩

/-! ## One bucket -/

theorem bucketOk_bucketAdd {b r : Word} (hb : bucketOk b) (hc : bcount b < 3) (hr : r.toNat < 1024) :
    bucketOk (bucketAdd b r) := by
  obtain ⟨htop, hempty, hguard⟩ := hb
  obtain ⟨hcount, hnew, hold, hshift⟩ := bucketAdd_spec b r (by omega) hc
  refine ⟨hshift.trans htop, fun i hi hge => ?_, fun i hi => ?_⟩
  · rw [hold i hi (by omega)]
    exact hempty i hi (by omega)
  · by_cases hic : i = bcount b
    · rw [hic, hnew, ← BitVec.testBit_toNat]
      exact Nat.testBit_lt_two_pow hr
    · rw [hold i hi hic]
      exact hguard i hi

theorem bucketOk_bucketRemove {b : Word} {i : Nat} (hb : bucketOk b) (hi : i < bcount b) : bucketOk (bucketRemove b i) := by
  obtain ⟨htop, hempty, hguard⟩ := hb
  obtain ⟨hcount, hlane, hshift⟩ := bucketRemove_spec b i hi
  have hc := bcount_lt b
  refine ⟨hshift.trans htop, fun j hj hge => ?_, fun j hj => ?_⟩
  · rw [hlane j hj]
    by_cases hlast : j = bcount b - 1
    · rw [if_pos hlast]
    · rw [if_neg hlast, if_neg (by omega)]
      exact hempty j hj (by omega)
  · rw [hlane j hj]
    split
    · simp
    · split
      · exact hguard _ (by omega)
      · exact hguard j hj

/-! ## Remainders by position -/

/-- The occupied lane `(k, i)` of half `h` holds the remainder `x`. -/
def State.remainderAt (s : State) (h : Half) (k i : Nat) (x : Word) : Prop := s.occupied h k i ∧ blane (s.bucket h k) i = x

/-- The bucket invariants, the conditions on occupied lanes said of the remainders they hold. -/
theorem State.bucketsOk_iff : s.bucketsOk ↔
    (∀ h k, k < s.cfg.nb → bucketOk (s.bucket h k)) ∧
      (∀ h k i k' i' x, s.remainderAt h k i x → s.remainderAt h k' i' x → k = k' ∧ i = i') ∧
      ∀ k i x, s.remainderAt .lo k i x → x ≠ 0#64 := by
  refine and_congr_right fun _ => and_congr ⟨fun h1 => ?_, fun h1 => ?_⟩ ⟨fun h2 => ?_, fun h2 => ?_⟩
  · rintro h k i k' i' x ⟨ho, rfl⟩ ⟨ho', he⟩
    exact h1 h k i k' i' ho ho' he.symm
  · exact fun h k i k' i' ho ho' he => h1 h k i k' i' _ ⟨ho, rfl⟩ ⟨ho', he.symm⟩
  · rintro k i x ⟨ho, rfl⟩
    exact h2 k i ho
  · exact fun k i ho => h2 k i _ ⟨ho, rfl⟩

/-- A state with the parameters and the buckets of one that has the invariants has them. -/
theorem State.bucketsOk_congr (hs : s.bucketsOk) (hc : t.cfg = s.cfg) (hb : ∀ h k, t.bucket h k = s.bucket h k) : t.bucketsOk := by
  simpa only [State.bucketsOk, State.bi1, State.loNonzero, State.occupied, hc, hb] using hs

/-- The remainders after `r` was added to a bucket with room. -/
theorem State.remainderAt_of_add {h : Half} {k : Nat} {r : Word} (hk : k < s.cfg.nb) (hroom : bcount (s.bucket h k) < 3)
    (hr : r.toNat < 1024) (hc : t.cfg = s.cfg)
    (hb : ∀ h' k', t.bucket h' k' = if h' = h ∧ k' = k then bucketAdd (s.bucket h k) r else s.bucket h' k')
    (h' : Half) (k' i' : Nat) (x : Word) : t.remainderAt h' k' i' x ↔
      (h' = h ∧ k' = k ∧ i' = bcount (s.bucket h k) ∧ x = r) ∨ s.remainderAt h' k' i' x := by
  simp only [State.remainderAt, State.occupied, hc, hb]
  by_cases hhk : h' = h ∧ k' = k
  · obtain ⟨rfl, rfl⟩ := hhk
    obtain ⟨hcount, hnew, hold, _⟩ := bucketAdd_spec (s.bucket h' k') r (by omega) hroom
    simp only [and_self, if_true, hcount, hk, true_and]
    rcases Nat.lt_trichotomy i' (bcount (s.bucket h' k')) with hi | rfl | hi
    · rw [hold i' (by omega) (by omega)]
      simp [hi, hi.ne, Nat.lt_succ_of_lt hi]
    · simp [hnew, eq_comm]
    · simp [show ¬ i' < bcount (s.bucket h' k') + 1 by omega, hi.ne', show ¬ i' < bcount (s.bucket h' k') by omega]
  · simp only [hhk, if_false]
    tauto

/-- The remainders after lane `i` of a bucket was removed by swap-compaction: what lane `i` of that bucket holds is what its last occupied lane held. -/
theorem State.remainderAt_of_remove {h : Half} {k i : Nat} (ho : s.occupied h k i) (hc : t.cfg = s.cfg)
    (hb : ∀ h' k', t.bucket h' k' = if h' = h ∧ k' = k then bucketRemove (s.bucket h k) i else s.bucket h' k')
    (h' : Half) (k' i' : Nat) (x : Word) : t.remainderAt h' k' i' x ↔
      if h' = h ∧ k' = k then
        i' + 1 < bcount (s.bucket h k) ∧ s.remainderAt h k (if i' = i then bcount (s.bucket h k) - 1 else i') x
      else s.remainderAt h' k' i' x := by
  simp only [State.remainderAt, State.occupied, hc, hb]
  by_cases hhk : h' = h ∧ k' = k
  · obtain ⟨rfl, rfl⟩ := hhk
    obtain ⟨hk, hi⟩ := ho
    obtain ⟨hcount, hlane, _⟩ := bucketRemove_spec (s.bucket h' k') i hi
    have hlt := bcount_lt (s.bucket h' k')
    simp only [and_self, if_true, hk, true_and]
    by_cases hin : i' + 1 < bcount (s.bucket h' k')
    · rw [hlane i' (by omega), if_neg (by omega)]
      have : i' < bcount (bucketRemove (s.bucket h' k') i) := by omega
      by_cases hii : i' = i
      · simp [hii, hii ▸ hin, hii ▸ this]
        omega
      · simp [hii, hin, this]
        omega
    · have : ¬ i' < bcount (bucketRemove (s.bucket h' k') i) := by omega
      simp [hin, this]
  · simp only [hhk, if_false]

/-! ## What every command keeps -/

/-- Adding a remainder that the half does not hold keeps the invariants. -/
theorem State.bucketsOk_of_add {h : Half} {k : Nat} {r : Word} (hs : s.bucketsOk) (hk : k < s.cfg.nb)
    (hroom : bcount (s.bucket h k) < 3) (hr : r.toNat < 1024) (hlo : h = .lo → r ≠ 0#64)
    (hfresh : ∀ k' i', s.occupied h k' i' → blane (s.bucket h k') i' ≠ r) (hc : t.cfg = s.cfg)
    (hb : ∀ h' k', t.bucket h' k' = if h' = h ∧ k' = k then bucketAdd (s.bucket h k) r else s.bucket h' k') : t.bucketsOk := by
  obtain ⟨hok, huniq, hnz⟩ := State.bucketsOk_iff.1 hs
  have hrem := State.remainderAt_of_add hk hroom hr hc hb
  have hnew : ∀ k' i', ¬ s.remainderAt h k' i' r := fun k' i' ⟨ho, he⟩ => hfresh k' i' ho he
  refine State.bucketsOk_iff.2 ⟨fun h' k' hk' => ?_, fun h' k' i' k'' i'' x hx hx' => ?_, fun k' i' x hx => ?_⟩
  · rw [hb]
    split
    · exact bucketOk_bucketAdd (hok h k hk) hroom hr
    · exact hok h' k' (hc ▸ hk')
  · rcases (hrem ..).1 hx with ⟨rfl, rfl, rfl, rfl⟩ | hx
    · rcases (hrem ..).1 hx' with ⟨-, rfl, rfl, -⟩ | hx'
      · exact ⟨rfl, rfl⟩
      · exact absurd hx' (hnew _ _)
    · rcases (hrem ..).1 hx' with ⟨rfl, rfl, rfl, rfl⟩ | hx'
      · exact absurd hx (hnew _ _)
      · exact huniq h' _ _ _ _ x hx hx'
  · rcases (hrem ..).1 hx with ⟨hh, -, -, rfl⟩ | hx
    · exact hlo hh.symm
    · exact hnz _ _ x hx

/-- Removing an occupied lane keeps the invariants: no two lanes of the new bucket come from one lane of the old. -/
theorem State.bucketsOk_of_remove {h : Half} {k i : Nat} (hs : s.bucketsOk) (ho : s.occupied h k i) (hc : t.cfg = s.cfg)
    (hb : ∀ h' k', t.bucket h' k' = if h' = h ∧ k' = k then bucketRemove (s.bucket h k) i else s.bucket h' k') : t.bucketsOk := by
  obtain ⟨hok, huniq, hnz⟩ := State.bucketsOk_iff.1 hs
  have hrem := State.remainderAt_of_remove ho hc hb
  refine State.bucketsOk_iff.2 ⟨fun h' k' hk' => ?_, fun h' k' i' k'' i'' x hx hx' => ?_, fun k' i' x hx => ?_⟩
  · rw [hb]
    split
    · exact bucketOk_bucketRemove (hok h k ho.1) ho.2
    · exact hok h' k' (hc ▸ hk')
  · rw [hrem] at hx hx'
    split at hx <;> split at hx'
    · next hp hp' =>
      obtain ⟨hin, hx⟩ := hx
      obtain ⟨hin', hx'⟩ := hx'
      have := (huniq h _ _ _ _ x hx hx').2
      refine ⟨hp.2.trans hp'.2.symm, ?_⟩
      split at this <;> split at this <;> omega
    · next hp hp' => exact absurd ⟨hp.1, (huniq h _ _ _ _ x hx.2 (hp.1 ▸ hx')).1.symm⟩ hp'
    · next hp hp' => exact absurd ⟨hp'.1, (huniq h _ _ _ _ x (hp'.1 ▸ hx) hx'.2).1⟩ hp
    · exact huniq h' _ _ _ _ x hx hx'
  · rw [hrem] at hx
    split at hx
    · next hp => exact hnz _ _ x (hp.1 ▸ hx.2)
    · exact hnz _ _ x hx

theorem Effect.bucketsOk {i : Instr} (h : Effect s i t) (hs : s.bucketsOk) : t.bucketsOk := by
  cases h with
  | bins v k h1 hv hn hroom =>
    obtain ⟨hk, hc, _⟩ := roomyBucket_eq_some.1 hroom
    have hr : (rem v).toNat < 1024 := by
      rw [rem_toNat]
      omega
    exact State.bucketsOk_of_add hs hk hc hr (rem_ne_zero_of_half_lo h1 hv) (holdingBucket_rem_eq_none.1 hn) (by simp)
      fun h' k' => by rw [State.bucket_complete, State.bucket_setBucket]
  | bera v k i h1 hv hm =>
    exact State.bucketsOk_of_remove hs (matchSite_rem_spec hm).1 (by simp)
      fun h' k' => by rw [State.bucket_complete, State.bucket_setBucket]
  | _ => exact State.bucketsOk_congr hs rfl fun h k => by cases h <;> rfl

/-! # What every step keeps

A predicate that survives each of the few things a step is made of survives every step. -/

/-- `P` survives everything a step is made of. -/
structure StepKeeps (P : State → Prop) : Prop where
  pending : ∀ s rest, P s → P { s with pending := rest }
  reset : ∀ s, s.cfg.ok = true → P s → P s.applyReset
  halted : ∀ s, P s → P s.respondHalted
  raise : ∀ s c cw, P s → P (s.raise c cw)
  effect : ∀ s t i, s.cfg.ok = true → P s → Effect s i t → P t

theorem StepKeeps.step {P : State → Prop} (h : StepKeeps P) (hs : P s) (hstep : step s = .next t) : P t := by
  obtain ⟨hok, hcases⟩ := step_cases hstep
  rcases hcases with ⟨_, rfl⟩ | ⟨rest, _, rfl⟩ | ⟨cw, rest, i, _, _, hexec⟩ | ⟨cw, rest, e, _, _, hreject⟩
  · exact hs
  · exact h.reset _ hok (h.pending _ rest hs)
  · rcases exec_cases hexec with ⟨_, rfl⟩ | ⟨_, c, rfl⟩ | ⟨_, heff⟩
    · exact h.halted _ (h.pending _ rest hs)
    · exact h.raise _ c _ (h.pending _ rest hs)
    · exact h.effect { s with pending := rest } t i hok (h.pending _ rest hs) heff
  · rcases rejectWord_cases hreject with ⟨_, rfl⟩ | ⟨_, rfl⟩
    · exact h.halted _ (h.pending _ rest hs)
    · exact h.raise _ _ cw (h.pending _ rest hs)

/-! ## The reset state -/

theorem resetGlen_toNat {c : Config} (hok : c.ok = true) : (BitVec.ofNat 17 c.resetGlen).toNat = c.resetGlen := by
  rw [BitVec.toNat_ofNat]
  exact Nat.mod_eq_of_lt (by have := c.rmax_le hok; have := c.resetGlen_le; omega)

theorem resetGlen_of_fixed {c : Config} {gc : Nat} (h : c.storage = .fixed gc) : c.resetGlen = c.rmax := by
  simp [Config.resetGlen, h]

theorem resetGlen_of_grow {c : Config} {n : Nat} (h : c.storage = .grow n) : c.resetGlen = 0 := by
  simp [Config.resetGlen, h]

theorem bucketOk_zero : bucketOk 0#64 := by
  refine ⟨rfl, fun i _ _ => ?_, fun i _ => ?_⟩ <;> simp [blane]

theorem State.machineOk_resetWith {c : Config} (hok : c.ok = true) : (State.resetWith c).machineOk := by
  have hg := resetGlen_toNat hok
  refine ⟨hok, ⟨⟨rfl, rfl⟩, ⟨rfl, rfl⟩, ⟨rfl, rfl⟩⟩, ⟨?_, fun gc hst => ?_⟩, ⟨fun _ => ⟨rfl, rfl⟩, fun h => ?_⟩, fun k => ?_⟩
  · exact hg.trans_le c.resetGlen_le
  · exact hg.trans (resetGlen_of_fixed hst)
  · cases h
  · simp

theorem State.genericOk_resetWith (c : Config) : (State.resetWith c).genericOk := by
  have hempty : ∀ k i x, ¬ (State.resetWith c).memberAt k i x := by
    rintro k i x ⟨_, he, hx⟩
    simp only [State.laneAt, State.reg_resetWith, lane_zero] at he
    exact hx he.symm
  have hcard : (State.resetWith c).memberPositions = ∅ := by
    ext p
    simp [State.mem_memberPositions, hempty]
  refine State.genericOk_iff.2 ⟨?_, ?_, ?_, ?_⟩ <;> simp [hempty, hcard]

theorem State.bucketsOk_resetWith (c : Config) : (State.resetWith c).bucketsOk := by
  have hvacant : ∀ h k i x, ¬ (State.resetWith c).remainderAt h k i x := by
    rintro h k i x ⟨⟨_, hi⟩, _⟩
    rw [State.bucket_resetWith] at hi
    exact absurd hi (Nat.not_lt_zero i)
  refine State.bucketsOk_iff.2 ⟨fun h k _ => ?_, fun h k i k' i' x hx => absurd hx (hvacant _ _ _ _),
    fun k i x hx => absurd hx (hvacant _ _ _ _)⟩
  rw [State.bucket_resetWith]
  exact bucketOk_zero

/-! ## The bucket invariants -/

theorem stepKeeps_bucketsOk : StepKeeps State.bucketsOk where
  pending _ _ hs := State.bucketsOk_congr hs rfl fun h _ => by cases h <;> rfl
  reset s _ _ := State.bucketsOk_congr (State.bucketsOk_resetWith s.cfg) rfl fun h _ => by cases h <;> rfl
  halted _ hs := State.bucketsOk_congr hs rfl fun h _ => by cases h <;> rfl
  raise _ _ _ hs := State.bucketsOk_congr hs rfl fun _ _ => by simp
  effect _ _ _ _ hs he := he.bucketsOk hs

/-- Settles O53: the invariants survive everything a step is made of. -/
theorem everyStepKeepsTheBucketInvariants : Obligations.EveryStepKeepsTheBucketInvariants :=
  fun _ _ hs hstep => stepKeeps_bucketsOk.step hs hstep

/-! ## What a command writes -/

theorem State.setBucket_lo (s : State) (h : Half) (k : Nat) (b : Word) :
    (s.setBucket h k b).lo = if h = .lo then s.lo.write k b else s.lo := by cases h <;> rfl

theorem State.setBucket_hi (s : State) (h : Half) (k : Nat) (b : Word) :
    (s.setBucket h k b).hi = if h = .hi then s.hi.write k b else s.hi := by cases h <;> rfl

/-- `GLEN` after a command: as before, or one more after a growing `GINS`. -/
theorem Effect.glen_cases {i : Instr} (h : Effect s i t) : t.glen = s.glen ∨
    (t.glen = s.glen + 1#17 ∧ s.glen.toNat ≠ s.cfg.rmax ∧ (∃ n, s.cfg.storage = .grow n) ∧ ∃ v, i = .gins v) := by
  cases h with
  | grow v n _ _ hst _ _ hne => exact .inr ⟨rfl, hne, ⟨n, hst⟩, v, rfl⟩
  | bins => exact .inl (by simp)
  | bera => exact .inl (by simp)
  | _ => exact .inl rfl

/-- Settles O47: a fault and the halted answer keep `GLEN`, and of the effects only growth writes it. -/
theorem glenOnlyGrows : Obligations.GlenOnlyGrows := by
  intro i s t hok hg hexec
  rcases exec_cases hexec with ⟨_, rfl⟩ | ⟨_, c, rfl⟩ | ⟨_, heff⟩
  · exact ⟨.inl rfl, fun _ _ => rfl⟩
  · exact ⟨.inl rfl, fun _ _ => rfl⟩
  · rcases heff.glen_cases with h | ⟨h, _, ⟨n, hgrow⟩, hgins⟩
    · exact ⟨.inl (by rw [h]), fun _ _ => h⟩
    · refine ⟨.inr ⟨by rw [h, glen_succ_toNat hok hg], hgins⟩, fun gc hfixed => ?_⟩
      rw [hgrow] at hfixed
      cases hfixed

/-- A command that is none of the bucketed set's writes no bucket. -/
theorem Effect.buckets_of_not_ofBucketedSet {i : Instr} (h : Effect s i t) (hi : ofBucketedSet i = false) :
    t.lo = s.lo ∧ t.hi = s.hi := by
  cases h with
  | bins => cases hi
  | bera => cases hi
  | _ => exact ⟨rfl, rfl⟩

/-- A command of the bucketed set writes no register, no `GLEN` and no `GCNT`. -/
theorem Effect.generic_of_ofBucketedSet {i : Instr} (h : Effect s i t) (hi : ofBucketedSet i = true) :
    t.r = s.r ∧ t.glen = s.glen ∧ t.gcnt = s.gcnt := by
  cases h with
  | answer => exact ⟨rfl, rfl, rfl⟩
  | bins => simp
  | bera => simp
  | _ => cases hi

/-- `BINS` and `BERA` leave the half that their value does not select. -/
theorem Effect.other_half {i : Instr} {v : Nat} (h : Effect s i t) (hi : i = .bins v ∨ i = .bera v) :
    (half v = .lo → t.hi = s.hi) ∧ (half v = .hi → t.lo = s.lo) := by
  cases h with
  | answer => exact ⟨fun _ => rfl, fun _ => rfl⟩
  | bins v' =>
    obtain rfl : v' = v := by simpa using hi
    constructor <;> intro hv <;> simp [State.setBucket_lo, State.setBucket_hi, hv]
  | bera v' =>
    obtain rfl : v' = v := by simpa using hi
    constructor <;> intro hv <;> simp [State.setBucket_lo, State.setBucket_hi, hv]
  | _ => simp at hi

/-- Settles O58: each half of the statement is the frame of one class of effects. -/
theorem theTwoSetsAreApart : Obligations.TheTwoSetsAreApart := by
  intro i s t hexec
  rcases exec_cases hexec with ⟨_, rfl⟩ | ⟨_, c, rfl⟩ | ⟨_, heff⟩
  · exact ⟨fun _ => ⟨rfl, rfl⟩, fun _ => ⟨rfl, rfl, rfl⟩, fun _ _ => ⟨fun _ => rfl, fun _ => rfl⟩⟩
  · exact ⟨fun _ => ⟨rfl, rfl⟩, fun _ => ⟨rfl, rfl, rfl⟩, fun _ _ => ⟨fun _ => rfl, fun _ => rfl⟩⟩
  · exact ⟨heff.buckets_of_not_ofBucketedSet, heff.generic_of_ofBucketedSet, fun v => heff.other_half⟩

/-- No command but a fault touches the fault status. -/
theorem Effect.faultStatus {i : Instr} (h : Effect s i t) : t.flt = s.flt ∧ t.fcause = s.fcause ∧ t.fcmd = s.fcmd := by
  cases h with
  | bins => simp
  | bera => simp
  | _ => exact ⟨rfl, rfl, rfl⟩

/-! ## The machine invariants -/

theorem Cause.code_range (c : Cause) : 1 ≤ c.code.toNat ∧ c.code.toNat ≤ 9 := by cases c <;> decide

/-- The bits above the lanes do not see a write to a lane. -/
theorem setLane_shiftRight_used {c : Config} (w : Word) {i : Nat} {v : Word} (hv : v.toNat < 2 ^ c.n) (hi : i < c.lanes) :
    setLane c w i v >>> c.used = w >>> c.used := by
  have hend := Nat.mul_le_mul_right c.n (show i + 1 ≤ c.lanes from hi)
  rw [Nat.add_mul, one_mul] at hend
  apply BitVec.eq_of_getLsbD_eq
  intro b _
  rw [BitVec.getLsbD_ushiftRight, BitVec.getLsbD_ushiftRight, setLane_bit _ _ _ _ hv (c.lane_end hi), if_neg]
  unfold Config.used
  omega

/-- A broadcast word has no bit above the lanes. -/
theorem bcast_shiftRight_used {c : Config} (hok : c.ok = true) {v : Nat} (hv : v ≤ c.lmask) :
    bcast c (word v) >>> c.used = 0#64 := by
  rw [shiftRight_eq_zero_iff]
  intro b hb
  rw [bcast_bit (c.n_pos hok) (n_le_wordWidth hok) v (lt_of_le_lmask hv)]
  simp [show ¬ b < c.used by omega]

/-- `m'` is `m`, or `m` with one word written below index `n`. -/
def Memory.WrittenBelow (n : Nat) (m m' : Memory) : Prop := m' = m ∨ ∃ k w, k < n ∧ m' = m.write k w

theorem Memory.WrittenBelow.ok {n : Nat} {m m' : Memory} (h : Memory.WrittenBelow n m m') (hm : m.wf = true ∧ m.within n = true) :
    m'.wf = true ∧ m'.within n = true := by
  rcases h with rfl | ⟨k, w, hk, rfl⟩
  · exact hm
  · exact ⟨Memory.wf_write m k w hm.1, Memory.within_write n m k w hm.2 hk⟩

/-- A command writes at most one register, an existing one, and sets no bit above the lanes. -/
theorem Effect.r_cases {i : Instr} (h : Effect s i t) (hok : s.cfg.ok = true) (hg : s.glenOk) :
    t.r = s.r ∨ ∃ k w, k < s.cfg.rmax ∧ t.r = s.r.write k w ∧
      (w >>> s.cfg.used = 0#64 ∨ w >>> s.cfg.used = s.reg k >>> s.cfg.used) := by
  have hle := hg.1
  cases h with
  | answer => exact .inl rfl
  | bcast k v hk hv => exact .inr ⟨k, _, hk, rfl, .inl (bcast_shiftRight_used hok hv)⟩
  | set k i v hk hi hv =>
    have hv' : (word v).toNat < 2 ^ s.cfg.n := (BitVec.toNat_ofNat v 64 ▸ Nat.mod_le v _).trans_lt (lt_of_le_lmask hv)
    exact .inr ⟨k, _, hk, rfl, .inr (setLane_shiftRight_used _ hv' hi)⟩
  | gins v k z h1 hv hn hs =>
    obtain ⟨⟨hk, hz⟩, _, _⟩ := insertSite_spec hok hs
    exact .inr ⟨k, _, by omega, rfl, .inr (setLane_shiftRight_used _ (word_lt_of_le_maxSafe hok hv) hz)⟩
  | grow v n h1 hv hst hn hs hne =>
    have h0 : 0 < s.cfg.lanes := by have := s.cfg.two_le_lanes hok; omega
    refine .inr ⟨_, _, by omega, rfl, .inl ?_⟩
    rw [setLane_shiftRight_used _ (word_lt_of_le_maxSafe hok hv) h0, BitVec.zero_ushiftRight]
  | gera v k f h1 hv hs =>
    obtain ⟨⟨hk, hf⟩, _⟩ := eraseSite_word_spec hok hv hs
    exact .inr ⟨k, _, by omega, rfl, .inr (setLane_shiftRight_used _ (by simp) hf)⟩
  | bins => exact .inl (by simp)
  | bera => exact .inl (by simp)

/-- A command writes at most one bucket of each half, an existing one. -/
theorem Effect.buckets_writtenBelow {i : Instr} (h : Effect s i t) :
    Memory.WrittenBelow s.cfg.nb s.lo t.lo ∧ Memory.WrittenBelow s.cfg.nb s.hi t.hi := by
  have written : ∀ h k b, k < s.cfg.nb → Memory.WrittenBelow s.cfg.nb s.lo (s.setBucket h k b).lo ∧
      Memory.WrittenBelow s.cfg.nb s.hi (s.setBucket h k b).hi := by
    intro h k b hk
    cases h
    · exact ⟨.inr ⟨k, b, hk, rfl⟩, .inl rfl⟩
    · exact ⟨.inl rfl, .inr ⟨k, b, hk, rfl⟩⟩
  cases h with
  | bins v k _ _ _ hs => exact written _ k _ (roomyBucket_eq_some.1 hs).1
  | bera v k i _ _ hs => exact written _ k _ (matchSite_rem_spec hs).1.1
  | _ => exact ⟨.inl rfl, .inl rfl⟩

theorem Effect.glenOk {i : Instr} (h : Effect s i t) (hok : s.cfg.ok = true) (hg : s.glenOk) : t.glenOk := by
  obtain ⟨hle, hfixed⟩ := hg
  unfold State.glenOk
  rw [h.answers.cfg]
  rcases h.glen_cases with hglen | ⟨hglen, hne, ⟨n, hgrow⟩, _⟩
  · rw [hglen]
    exact ⟨hle, hfixed⟩
  · rw [hglen, glen_succ_toNat hok ⟨hle, hfixed⟩]
    refine ⟨by omega, fun gc hst => ?_⟩
    rw [hgrow] at hst
    cases hst

theorem Effect.machineOk {i : Instr} (h : Effect s i t) (hs : s.machineOk) : t.machineOk := by
  obtain ⟨hok, ⟨hr, hlo, hhi⟩, hg, hfault, hunused⟩ := hs
  have hcfg := h.answers.cfg
  obtain ⟨hwlo, hwhi⟩ := h.buckets_writtenBelow
  obtain ⟨hflt, hfcause, hfcmd⟩ := h.faultStatus
  have hwr := h.r_cases hok hg
  refine ⟨hcfg ▸ hok, ⟨?_, ?_, ?_⟩, h.glenOk hok hg, ?_, fun j => ?_⟩
  · rw [hcfg]
    refine Memory.WrittenBelow.ok (hwr.imp_right ?_) hr
    rintro ⟨k, w, hk, hw, _⟩
    exact ⟨k, w, hk, hw⟩
  · rw [hcfg]
    exact hwlo.ok hlo
  · rw [hcfg]
    exact hwhi.ok hhi
  · unfold State.faultStatusOk
    rw [hflt, hfcause, hfcmd]
    exact hfault
  · rw [hcfg]
    rcases hwr with hw | ⟨k, w, _, hw, hbits⟩
    · rw [State.reg, hw]
      exact hunused j
    · rw [State.reg_of_write hw]
      split
      · exact hbits.elim id fun h => h.trans (hunused k)
      · exact hunused j

theorem stepKeeps_machineOk : StepKeeps State.machineOk where
  pending _ _ hs := hs
  reset _ hok _ := State.machineOk_resetWith hok
  halted _ hs := hs
  raise s c cw hs := by
    obtain ⟨hok, harrays, hg, _, hunused⟩ := hs
    exact ⟨hok, harrays, hg, ⟨fun h => (by cases h), fun _ => c.code_range⟩, hunused⟩
  effect _ _ _ _ hs he := he.machineOk hs

/-- Settles O59: the invariants survive everything a step is made of. -/
theorem everyStepKeepsTheMachineInvariants : Obligations.EveryStepKeepsTheMachineInvariants :=
  fun _ _ hs hstep => stepKeeps_machineOk.step hs hstep

/-! ## The reset state, settled -/

/-- Settles O11: every field is read off the reset state; `GLEN` fits its 17 bits. -/
theorem resetStateValues : Obligations.ResetStateValues := by
  intro c hok
  have hg := resetGlen_toNat hok
  refine ⟨State.reg_resetWith c, State.bucket_resetWith c, rfl, fun gc hst => ?_, fun n hst => ?_, rfl, rfl, rfl⟩
  · exact hg.trans (resetGlen_of_fixed hst)
  · exact hg.trans (resetGlen_of_grow hst)

/-- Settles O60: the reset state has no member, no occupied lane and no fault. -/
theorem resetStateHasEveryInvariant : Obligations.ResetStateHasEveryInvariant :=
  fun c hok => ⟨State.machineOk_resetWith hok, State.genericOk_resetWith c, State.bucketsOk_resetWith c⟩

end Sys2Proof.Machine

/-! # Reads

A command that only reads (20_memory.md R43) is checked and answered from what a response does not touch, so it can be repeated. -/

namespace Sys2Proof.Machine

variable {s t : State}

/-- `i` only answers: with the checks `checks` and the result `answer`, neither of which sees the responses given so far. -/
structure IsRead (i : Instr) (checks : State → List Check) (answer : State → Word) : Prop where
  exec_eq : ∀ s, exec i s = command s (encode i) (checks s) (s.complete (answer s))
  checks_complete : ∀ s res, checks (s.complete res) = checks s
  answer_complete : ∀ s res, answer (s.complete res) = answer s

/-- Each of the commands of 20_memory.md R43 only answers. Five of them take no operand and have no checks. -/
theorem exists_isRead_of_onlyReads {i : Instr} (hi : onlyReads i = true) : ∃ checks answer, IsRead i checks answer := by
  cases i with
  | bcast | set | gins | gera | bins | bera => cases hi
  | gsize | gcap | glen | bsize | bcap => exact ⟨fun _ => [], _, fun _ => rfl, fun _ _ => rfl, fun _ _ => rfl⟩
  | _ => exact ⟨_, _, fun _ => rfl, fun _ _ => rfl, fun _ _ => rfl⟩

section
variable {i : Instr} {checks : State → List Check} {answer : State → Word}

/-- A read that completes passed its checks and did nothing but answer. -/
theorem IsRead.completes (h : IsRead i checks answer) (hs : s.flt = false) (hexec : exec i s = .next t) (ht : t.flt = false) :
    firstFault (checks s) = none ∧ t = s.complete (answer s) := by
  rcases command_cases (h.exec_eq s ▸ hexec) with ⟨hf, _⟩ | ⟨_, c, _, rfl⟩ | ⟨_, hc, rfl⟩
  · rw [hs] at hf
    cases hf
  · rw [State.raise_flt] at ht
    cases ht
  · exact ⟨hc, rfl⟩

/-- After any response, a read whose checks hold gives the answer it would have given before. -/
theorem IsRead.exec_complete (h : IsRead i checks answer) (hs : s.flt = false) (hc : firstFault (checks s) = none) (res : Word) :
    exec i (s.complete res) = .next ((s.complete res).complete (answer s)) := by
  rw [h.exec_eq, command_run _ _ ((State.complete_flt s res).trans hs) (by rw [h.checks_complete, hc]), h.answer_complete]

end

/-- Settles O57: a read only answers, and its answer does not see the one before. -/
theorem readsHaveNoSideEffects : Obligations.ReadsHaveNoSideEffects := by
  intro i s t hi hs hexec ht
  obtain ⟨checks, answer, h⟩ := exists_isRead_of_onlyReads hi
  obtain ⟨hc, rfl⟩ := h.completes hs hexec ht
  have htwice : (s.complete (answer s)).complete (answer s) =
      { s with responses := s.responses ++ [⟨0#8, answer s⟩, ⟨0#8, answer s⟩] } := by
    simp [State.complete, State.respond]
  exact ⟨rfl, answer s, _, rfl, h.exec_complete hs hc _, htwice⟩

end Sys2Proof.Machine

/-! # Encoding and decoding

A command is four numbers, one per field of the command word (30_encoding.md R56). The decoder answers `i` exactly on the fields of `i`, and the encoder packs
those fields, so that the two are inverse to each other. -/

namespace Sys2Proof

open Laws.OpcodeByte (opcode opField_packFields)

/-! ## The fields of a word -/

theorem opField_lt (cw : Word) : opField cw < 2 ^ 8 := (cw.extractLsb' 0 8).isLt

theorem lnField_lt (cw : Word) : lnField cw < 2 ^ 8 := (cw.extractLsb' 8 8).isLt

theorem rkField_lt (cw : Word) : rkField cw < 2 ^ 16 := (cw.extractLsb' 16 16).isLt

theorem valField_lt (cw : Word) : valField cw < 2 ^ 32 := (cw.extractLsb' 32 32).isLt

/-- The four fields cover the word. -/
theorem word_eq_iff_fields {a b : Word} :
    a = b ↔ opField a = opField b ∧ lnField a = lnField b ∧ rkField a = rkField b ∧ valField a = valField b := by
  constructor
  · rintro rfl
    exact ⟨rfl, rfl, rfl, rfl⟩
  · simp only [opField_eq, lnField_eq, rkField_eq, valField_eq]
    rintro ⟨hop, hln, hrk, hval⟩
    have ha := a.isLt
    have hb := b.isLt
    exact BitVec.eq_of_toNat_eq (by omega)

theorem fields_packFields {op ln rk val : Nat} (hop : op < 2 ^ 8) (hln : ln < 2 ^ 8) (hrk : rk < 2 ^ 16) (hval : val < 2 ^ 32) :
    opField (packFields op ln rk val) = op ∧ lnField (packFields op ln rk val) = ln ∧
      rkField (packFields op ln rk val) = rk ∧ valField (packFields op ln rk val) = val := by
  refine ⟨opField_packFields op ln rk val hop, ?_⟩
  rw [lnField_eq, rkField_eq, valField_eq, packFields_toNat hop hln hrk hval]
  omega

/-! ## The fields of a command -/

/-- What a command puts into `ln`; 0 where it does not use the field (30_encoding.md R58, R60). -/
def Instr.lnOperand : Instr → Nat
  | .get _ i | .set _ i _ => i
  | .min _ count | .max _ count => count
  | .brdw h _ => h.select
  | _ => 0

/-- What a command puts into `rk`; 0 where it does not use the field (30_encoding.md R58, R60). -/
def Instr.rkOperand : Instr → Nat
  | .bcast k _ | .get k _ | .set k _ _ | .zmask k | .rdw k => k
  | .contains k _ | .find k _ | .findz k | .cnteq k _ | .min k _ | .max k _ => k
  | .brdw _ k => k
  | _ => 0

/-- What a command puts into `val`; 0 where it does not use the field (30_encoding.md R58, R60). -/
def Instr.valOperand : Instr → Nat
  | .bcast _ v | .set _ _ v | .contains _ v | .find _ v | .cnteq _ v => v
  | .gins v | .gera v | .gcon v | .bins v | .bera v | .bcon v => v
  | _ => 0

theorem encode_eq_packFields (i : Instr) : encode i = packFields (opcode i) i.lnOperand i.rkOperand i.valOperand := by
  cases i <;> rfl

theorem opcode_lt (i : Instr) : opcode i < 2 ^ 8 := by
  cases i <;> simp [opcode]

theorem Instr.wellFormed_iff (i : Instr) :
    i.wellFormed = true ↔ i.lnOperand < 2 ^ 8 ∧ i.rkOperand < 2 ^ 16 ∧ i.valOperand < 2 ^ 32 := by
  cases i with
  | brdw h k => cases h <;> simp [wellFormed, lnOperand, rkOperand, valOperand, Half.select, fitsRk]
  | get | set | min | max =>
    simp only [wellFormed, lnOperand, rkOperand, valOperand, fitsLn, fitsRk, fitsVal, Bool.and_eq_true, decide_eq_true_eq]
    omega
  | _ => simp [wellFormed, lnOperand, rkOperand, valOperand, fitsRk, fitsVal]

theorem encode_eq_iff_fields {i : Instr} (hi : i.wellFormed = true) (cw : Word) :
    encode i = cw ↔
      opField cw = opcode i ∧ lnField cw = i.lnOperand ∧ rkField cw = i.rkOperand ∧ valField cw = i.valOperand := by
  obtain ⟨hln, hrk, hval⟩ := i.wellFormed_iff.1 hi
  obtain ⟨opEq, lnEq, rkEq, valEq⟩ := fields_packFields (opcode_lt i) hln hrk hval
  rw [eq_comm, word_eq_iff_fields, encode_eq_packFields, opEq, lnEq, rkEq, valEq]

/-! ## The decoder -/

theorem ifZero_eq_ok {unused : Bool} {i j : Instr} : ifZero unused i = .ok j ↔ unused = true ∧ i = j := by
  cases unused <;> simp [ifZero]

theorem ifZero_ne_undefinedOp (unused : Bool) (i : Instr) : ifZero unused i ≠ .error .undefinedOp := by
  cases unused <;> simp [ifZero]

theorem halfOf_select (h : Half) : halfOf h.select = h := by cases h <;> rfl

theorem select_halfOf {ln : Nat} (h : ln / 2 = 0) : (halfOf ln).select = ln := by
  have hln : ln = 0 ∨ ln = 1 := by omega
  rcases hln with rfl | rfl <;> rfl

theorem select_div_two (h : Half) : h.select / 2 = 0 := by cases h <;> rfl

/-- The decoder carries each used field whole and asks for 0 in each other, so it answers `i` on no fields but those of `i`. -/
theorem decodeFields_eq_ok_iff {op ln rk val : Nat} {i : Instr} :
    decodeFields op ln rk val = .ok i ↔ op = opcode i ∧ ln = i.lnOperand ∧ rk = i.rkOperand ∧ val = i.valOperand := by
  constructor
  · intro h
    unfold decodeFields at h
    split at h
    case h_24 => cases h
    all_goals
      obtain ⟨hzero, rfl⟩ := ifZero_eq_ok.1 h
      simp only [Bool.and_eq_true, beq_iff_eq] at hzero
      simp [opcode, Instr.lnOperand, Instr.rkOperand, Instr.valOperand, select_halfOf, hzero]
  · rintro ⟨rfl, rfl, rfl, rfl⟩
    cases i <;> simp [decodeFields, opcode, Instr.lnOperand, Instr.rkOperand, Instr.valOperand, ifZero, halfOf_select, select_div_two]

theorem decode_eq_ok_iff_fields {cw : Word} {i : Instr} :
    decode cw = .ok i ↔
      opField cw = opcode i ∧ lnField cw = i.lnOperand ∧ rkField cw = i.rkOperand ∧ valField cw = i.valOperand :=
  decodeFields_eq_ok_iff

theorem wellFormed_of_decode {cw : Word} {i : Instr} (h : decode cw = .ok i) : i.wellFormed = true := by
  obtain ⟨_, hln, hrk, hval⟩ := decode_eq_ok_iff_fields.1 h
  exact i.wellFormed_iff.2 ⟨hln ▸ lnField_lt cw, hrk ▸ rkField_lt cw, hval ▸ valField_lt cw⟩

theorem decode_eq_ok_iff {cw : Word} {i : Instr} : decode cw = .ok i ↔ i.wellFormed = true ∧ encode i = cw := by
  constructor
  · intro h
    have hwf := wellFormed_of_decode h
    exact ⟨hwf, (encode_eq_iff_fields hwf cw).2 (decode_eq_ok_iff_fields.1 h)⟩
  · rintro ⟨hwf, henc⟩
    exact decode_eq_ok_iff_fields.2 ((encode_eq_iff_fields hwf cw).1 henc)

/-- Settles O1: a word decodes to exactly the well-formed command whose encoding it is. -/
theorem decodeAndEncodeAgree : Obligations.DecodeAndEncodeAgree :=
  ⟨fun _ hwf => decode_eq_ok_iff.2 ⟨hwf, rfl⟩, fun _ _ h => decode_eq_ok_iff.1 h⟩

/-- Settles O4: each of the six words is the encoding of its command, which is well-formed. -/
theorem writtenWordsDecode : Obligations.WrittenWordsDecode :=
  ⟨decode_eq_ok_iff.2 ⟨rfl, rfl⟩, decode_eq_ok_iff.2 ⟨rfl, rfl⟩, decode_eq_ok_iff.2 ⟨rfl, rfl⟩, decode_eq_ok_iff.2 ⟨rfl, rfl⟩,
    decode_eq_ok_iff.2 ⟨rfl, rfl⟩, decode_eq_ok_iff.2 ⟨rfl, rfl⟩⟩

/-- The opcodes 30_encoding.md R61 calls undefined. -/
theorem decodeFields_eq_undefinedOp_iff {op ln rk val : Nat} :
    decodeFields op ln rk val = .error .undefinedOp ↔
      op = 0x00 ∨ (0x06 ≤ op ∧ op ≤ 0x0F) ∨ (0x16 ≤ op ∧ op ≤ 0x1F) ∨ (0x26 ≤ op ∧ op ≤ 0x2F) ∨ 0x36 ≤ op := by
  unfold decodeFields
  split
  case h_24 =>
    rw [eq_self, true_iff]
    simp only [imp_false] at *
    omega
  all_goals simp [ifZero_ne_undefinedOp]

/-! ## Mask and match -/

theorem fields_and (a b : Word) :
    opField (a &&& b) = opField a &&& opField b ∧ lnField (a &&& b) = lnField a &&& lnField b ∧
      rkField (a &&& b) = rkField a &&& rkField b ∧ valField (a &&& b) = valField a &&& valField b := by
  simp [opField, lnField, rkField, valField, BitVec.extractLsb'_and]

/-- A mask and a match value act on each field by itself. -/
theorem and_eq_iff_fields {cw mask pattern : Word} :
    cw &&& mask = pattern ↔
      opField cw &&& opField mask = opField pattern ∧ lnField cw &&& lnField mask = lnField pattern ∧
        rkField cw &&& rkField mask = rkField pattern ∧ valField cw &&& valField mask = valField pattern := by
  obtain ⟨hop, hln, hrk, hval⟩ := fields_and cw mask
  rw [word_eq_iff_fields, hop, hln, hrk, hval]

@[simp] theorem opField_and_full (cw : Word) : opField cw &&& 0xFF = opField cw :=
  Nat.and_two_pow_sub_one_of_lt_two_pow (opField_lt cw)

@[simp] theorem lnField_and_full (cw : Word) : lnField cw &&& 0xFF = lnField cw :=
  Nat.and_two_pow_sub_one_of_lt_two_pow (lnField_lt cw)

@[simp] theorem rkField_and_full (cw : Word) : rkField cw &&& 0xFFFF = rkField cw :=
  Nat.and_two_pow_sub_one_of_lt_two_pow (rkField_lt cw)

@[simp] theorem valField_and_full (cw : Word) : valField cw &&& 0xFFFFFFFF = valField cw :=
  Nat.and_two_pow_sub_one_of_lt_two_pow (valField_lt cw)

/-- The mask of `BRDW` leaves one bit of `ln` free, the half select; the decoder divides by 2 instead. -/
@[simp] theorem lnField_and_upper (cw : Word) : lnField cw &&& 0xFE = 0 ↔ lnField cw / 2 = 0 := by
  have heven : (lnField cw &&& 0xFE) % 2 = 0 := by simp [Nat.and_mod_two_pow (n := 1)]
  have hhalf : (lnField cw &&& 0xFE) / 2 = lnField cw / 2 := by
    have hlt := lnField_lt cw
    rw [Nat.and_div_two]
    exact Nat.and_two_pow_sub_one_of_lt_two_pow (n := 7) (by omega)
  omega

@[simp] theorem select_and_upper (h : Half) : h.select &&& 0xFE = 0 := by cases h <;> rfl

@[simp] theorem opField_ofNat (n : Nat) : opField (BitVec.ofNat 64 n) = n % 256 := by
  rw [opField_eq, BitVec.toNat_ofNat]
  omega

@[simp] theorem lnField_ofNat (n : Nat) : lnField (BitVec.ofNat 64 n) = n / 256 % 256 := by
  rw [lnField_eq, BitVec.toNat_ofNat]
  omega

@[simp] theorem rkField_ofNat (n : Nat) : rkField (BitVec.ofNat 64 n) = n / 65536 % 65536 := by
  rw [rkField_eq, BitVec.toNat_ofNat]
  omega

@[simp] theorem valField_ofNat (n : Nat) : valField (BitVec.ofNat 64 n) = n / 4294967296 % 4294967296 := by
  rw [valField_eq, BitVec.toNat_ofNat]
  omega

/-! ## The opcode table -/

theorem opcodeTable_mnemonics_nodup : (opcodeTable.map OpcodeRow.mnemonic).Nodup := by decide

theorem row_eq_of_mnemonic_eq {row row' : OpcodeRow} (h : row ∈ opcodeTable) (h' : row' ∈ opcodeTable)
    (heq : row.mnemonic = row'.mnemonic) : row = row' :=
  List.inj_on_of_nodup_map opcodeTable_mnemonics_nodup h h' heq

/-- A word that decodes matches the row of its command: opcode in place, no unused field set. -/
theorem exists_row_of_decode {cw : Word} {i : Instr} (h : decode cw = .ok i) :
    ∃ row ∈ opcodeTable, row.mnemonic = i.mnemonic ∧ cw &&& row.mask = row.pattern := by
  obtain ⟨hop, hln, hrk, hval⟩ := decode_eq_ok_iff_fields.1 h
  simp only [and_eq_iff_fields, hop, hln, hrk, hval]
  cases i
  all_goals
    simp only [opcodeTable, Instr.mnemonic, List.mem_cons, List.not_mem_nil, exists_eq_or_imp, String.reduceEq, false_and, true_and,
      or_false, false_or]
    simp [opcode, Instr.lnOperand, Instr.rkOperand, Instr.valOperand]

/-- A word that matches a row has the row's opcode and passes the tests of the fields the row's command does not use. -/
theorem exists_decode_of_row {cw : Word} {row : OpcodeRow} (hrow : row ∈ opcodeTable) (h : cw &&& row.mask = row.pattern) :
    ∃ i, decode cw = .ok i ∧ i.mnemonic = row.mnemonic := by
  rw [and_eq_iff_fields] at h
  unfold decode
  fin_cases hrow
  all_goals
    simp at h
    simp [h, decodeFields, ifZero, Instr.mnemonic]

/-- Settles O2: the mnemonic of a row selects the row. -/
theorem maskAndMatchDecideTheCommand : Obligations.MaskAndMatchDecideTheCommand := by
  intro row hrow cw
  constructor
  · rintro ⟨i, hdec, hmn⟩
    obtain ⟨row', hrow', hmn', hmatch⟩ := exists_row_of_decode hdec
    rwa [row_eq_of_mnemonic_eq hrow hrow' (hmn.symm.trans hmn'.symm)]
  · exact exists_decode_of_row hrow

theorem exists_decode_error_iff (cw : Word) :
    (∃ e, decode cw = .error e) ↔ ∀ row ∈ opcodeTable, cw &&& row.mask ≠ row.pattern := by
  constructor
  · rintro ⟨e, herr⟩ row hrow hmatch
    obtain ⟨i, hdec, _⟩ := exists_decode_of_row hrow hmatch
    cases herr.symm.trans hdec
  · intro hnone
    cases hdec : decode cw with
    | error e => exact ⟨e, rfl⟩
    | ok i =>
      obtain ⟨row, hrow, _, hmatch⟩ := exists_row_of_decode hdec
      exact absurd hmatch (hnone row hrow)

/-- A word decodes to at most one command, so the rows it matches have one mnemonic. -/
theorem row_eq_of_match {cw : Word} {row row' : OpcodeRow} (h : row ∈ opcodeTable) (h' : row' ∈ opcodeTable)
    (hmatch : cw &&& row.mask = row.pattern) (hmatch' : cw &&& row'.mask = row'.pattern) : row = row' := by
  obtain ⟨i, hdec, hmn⟩ := exists_decode_of_row h hmatch
  obtain ⟨i', hdec', hmn'⟩ := exists_decode_of_row h' hmatch'
  obtain rfl : i = i' := Except.ok.inj (hdec.symm.trans hdec')
  exact row_eq_of_mnemonic_eq h h' (hmn.symm.trans hmn')

/-- Settles O3: a word matches a row exactly when it decodes, and then one row only. -/
theorem everyWordIsOneCommandOrIllegal : Obligations.EveryWordIsOneCommandOrIllegal :=
  ⟨exists_decode_error_iff, fun _ _ h _ h' => row_eq_of_match h h', fun _ => decodeFields_eq_undefinedOp_iff.symm⟩

end Sys2Proof

/-! # Running a decoded command -/

namespace Sys2Proof.Machine

theorem step_command {s : State} {cw : Word} {rest : List HostEvent} {i : Instr} (hok : s.cfg.ok = true)
    (hp : s.pending = .command cw :: rest) (hdec : decode cw = .ok i) : step s = exec i { s with pending := rest } := by
  simp [step, hok, hp, hdec]

/-- Settles O5: the first input is taken and its command run. -/
theorem stepRunsTheDecodedCommand : Obligations.StepRunsTheDecodedCommand :=
  fun _ _ _ _ => step_command

/-- The count `L` passes the check of `MIN` and `MAX`, since every register has a lane (30_encoding.md R64). -/
theorem firstFault_reg_allLanes {c : Config} {k : Nat} (hok : c.ok = true) (hk : k < c.rmax) :
    firstFault [checkReg c k, checkCount c c.lanes] = none := by
  have hlanes : 1 ≤ c.lanes := Nat.le_of_succ_le (c.two_le_lanes hok)
  simp [firstFault_eq_none, checkReg, checkCount, hk, hlanes]

/-- Settles O35: both commands pass their checks, so each only answers. -/
theorem omittedCountMeansAllLanes : Obligations.OmittedCountMeansAllLanes := by
  intro s k hok hs hk
  have hc := firstFault_reg_allLanes hok hk
  exact ⟨rfl, rfl, ⟨_, command_run _ _ hs hc, hs⟩, ⟨_, command_run _ _ hs hc, hs⟩⟩

end Sys2Proof.Machine

/-! # Lane storage

Each command of 40_lane_primitive.md section 1 that passes its checks, as one equation; the laws of the lanes it reads and writes are those of `lane`,
`setLane` and `bcast`. -/

namespace Sys2Proof.Machine

variable {s : State} {c : Config} {k i v : Nat}

/-! ## The checks -/

@[simp] theorem checkReg_holds : (checkReg c k).holds = true ↔ k < c.rmax := decide_eq_true_iff

@[simp] theorem checkLane_holds : (checkLane c i).holds = true ↔ i < c.lanes := decide_eq_true_iff

@[simp] theorem checkValue_holds : (checkValue c v).holds = true ↔ v ≤ c.lmask := decide_eq_true_iff

@[simp] theorem checkSearchValue_holds : (checkSearchValue c v).holds = true ↔ v ≤ c.maxSafe := decide_eq_true_iff

@[simp] theorem checkSetValue_holds : (checkSetValue c v).holds = true ↔ 1 ≤ v ∧ v ≤ c.maxSafe := by
  simp [checkSetValue]

/-! ## The commands -/

theorem exec_bcast (hs : s.flt = false) (hk : k < s.cfg.rmax) (hv : v ≤ s.cfg.lmask) :
    exec (.bcast k v) s = .next ((s.setReg k (bcast s.cfg (word v))).complete resNone) :=
  command_run _ _ hs (firstFault_eq_none.2 (by simp [hk, hv]))

theorem exec_get (hs : s.flt = false) (hk : k < s.cfg.rmax) (hi : i < s.cfg.lanes) :
    exec (.get k i) s = .next (s.complete (lane s.cfg (s.reg k) i)) :=
  command_run _ _ hs (firstFault_eq_none.2 (by simp [hk, hi]))

theorem exec_set (hs : s.flt = false) (hk : k < s.cfg.rmax) (hi : i < s.cfg.lanes) (hv : v ≤ s.cfg.lmask) :
    exec (.set k i v) s = .next ((s.setReg k (setLane s.cfg (s.reg k) i (word v))).complete resNone) :=
  command_run _ _ hs (firstFault_eq_none.2 (by simp [hk, hi, hv]))

theorem exec_zmask (hs : s.flt = false) (hk : k < s.cfg.rmax) :
    exec (.zmask k) s = .next (s.complete (zeroMask s.cfg (s.reg k))) :=
  command_run _ _ hs (firstFault_eq_none.2 (by simp [hk]))

theorem exec_rdw (hs : s.flt = false) (hk : k < s.cfg.rmax) : exec (.rdw k) s = .next (s.complete (s.reg k)) :=
  command_run _ _ hs (firstFault_eq_none.2 (by simp [hk]))

/-! ## The words they write -/

/-- The formula of R80, with the product taken of numbers. -/
theorem bcast_word (c : Config) (v : Nat) : bcast c (word v) = word (v * c.ones.toNat) := by
  rw [bcast, word, word, BitVec.ofNat_mul, BitVec.ofNat_toNat, BitVec.setWidth_eq]

/-- A value a storage command takes fits a lane, as a word too. -/
theorem word_lt_of_le_lmask (hv : v ≤ c.lmask) : (word v).toNat < 2 ^ c.n :=
  (BitVec.toNat_ofNat v 64 ▸ Nat.mod_le v _).trans_lt (lt_of_le_lmask hv)

/-- The law of `lane` and `setlane` for a value a storage command takes (40_lane_primitive.md R85). -/
theorem lane_setLane_word (hok : c.ok = true) (w : Word) (hi : i < c.lanes) (hv : v ≤ c.lmask) (j : Nat) :
    lane c (setLane c w i (word v)) j = if j = i then word v else lane c w j :=
  lane_setLane (n_le_wordWidth hok) w (word_lt_of_le_lmask hv) hi

/-- A bit above the lanes does not see a write to a lane. -/
theorem setLane_bit_of_used_le {v : Word} (w : Word) (hi : i < c.lanes) (hv : v.toNat < 2 ^ c.n) {b : Nat} (hb : c.used ≤ b) :
    (setLane c w i v).getLsbD b = w.getLsbD b := by
  have h := congrArg (fun x => x.getLsbD (b - c.used)) (setLane_shiftRight_used w hv hi)
  simpa only [BitVec.getLsbD_ushiftRight, Nat.add_sub_cancel' hb] using h

/-! ## The obligations -/

/-- Settles O20: every lane of the broadcast word holds the value, and a register write is seen in its own register only. -/
theorem bcastFillsEveryLane : Obligations.BcastFillsEveryLane := by
  intro s k v hok hs hk hv
  refine ⟨_, exec_bcast hs hk hv, ?_⟩
  simp only [State.reg_complete, State.reg_setReg, if_true]
  exact ⟨bcast_word _ _, fun i hi => lane_bcast (s.cfg.n_pos hok) (n_le_wordWidth hok) (lt_of_le_lmask hv) hi,
    bcast_shiftRight_used hok hv, fun j hj => if_neg hj, rfl⟩

/-- Settles O21: the lane as a number. -/
theorem getAnswersTheLane : Obligations.GetAnswersTheLane := by
  intro s k i hok hs hk hi
  have hlane : lane s.cfg (s.reg k) i = word ((s.reg k).toNat / 2 ^ (i * s.cfg.n) % 2 ^ s.cfg.n) := by
    rw [← lane_toNat (n_le_wordWidth hok), word, BitVec.ofNat_toNat, BitVec.setWidth_eq]
  rw [exec_get hs hk hi, hlane]
  rfl

/-- Settles O22: the laws of `setLane`, and a register write is seen in its own register only. -/
theorem setWritesOneLane : Obligations.SetWritesOneLane := by
  intro s k i v hok hs hk hi hv
  have hlane := lane_setLane_word hok (s.reg k) hi hv
  refine ⟨_, exec_set hs hk hi hv, ?_⟩
  simp only [State.reg_complete, State.reg_setReg, if_true]
  exact ⟨(hlane i).trans (if_pos rfl), fun j _ hj => (hlane j).trans (if_neg hj),
    setLane_shiftRight_used _ (word_lt_of_le_lmask hv) hi, fun j hj => if_neg hj, rfl⟩

/-- Settles O23: `SET` leaves a state in which `GET` passes the checks it passed before, and the lanes are those of `setLane`. -/
theorem getAfterSetAnswersTheValue : Obligations.GetAfterSetAnswersTheValue := by
  constructor
  · intro c w i v hok hi hv
    have hlane := lane_setLane_word hok w hi hv
    exact ⟨(hlane i).trans (if_pos rfl), fun j _ hj => (hlane j).trans (if_neg hj),
      fun b hb => setLane_bit_of_used_le w hi (word_lt_of_le_lmask hv) hb⟩
  · intro s t k i v hok hs hk hi hv hexec
    obtain rfl : _ = t := Host.Outcome.next.inj ((exec_set hs hk hi hv).symm.trans hexec)
    set t := (s.setReg k (setLane s.cfg (s.reg k) i (word v))).complete resNone
    have hget : ∀ j, j < s.cfg.lanes →
        exec (.get k j) t = .next (t.complete (if j = i then word v else lane s.cfg (s.reg k) j)) := fun j hj => by
      have hreg : t.reg k = setLane s.cfg (s.reg k) i (word v) := by simp [t, State.reg_setReg]
      rw [exec_get (s := t) hs hk hj, hreg, show t.cfg = s.cfg from rfl, lane_setLane_word hok _ hi hv]
    refine ⟨⟨_, hget i hi, by rw [if_pos rfl, State.complete_responses]⟩, fun j hj hji => ?_⟩
    exact ⟨_, _, _, exec_get hs hk hj, hget j hj, State.complete_responses _ _, by rw [if_neg hji, State.complete_responses]⟩

/-- Settles O24: `ZMASK` answers the formula of the mask and `RDW` the register. -/
theorem zmaskAndRdwAnswer : Obligations.ZmaskAndRdwAnswer :=
  fun _ _ hs hk => ⟨exec_zmask hs hk, exec_rdw hs hk⟩

end Sys2Proof.Machine

/-! # The exact content of the zero-lanes mask

The flags of the mask are decided lane by lane by the lane's value and the borrow into it (40_lane_primitive.md R87). What the mask
does not depend on (R89) and what is left of it in lanes of one bit (R90) follow. -/

namespace Sys2Proof.Machine

variable {c : Config}

/-- When a lane is flagged, in terms of its value and the borrow into it, for every lane width: the subtraction wraps around, and the guard bit
goes from clear to set. -/
theorem zeroMask_guardBit_iff_borrow (h1 : 1 ≤ c.n) (h64 : c.n ≤ 64) (w : Word) {j : Nat} (hj : j < c.lanes) :
    (zeroMask c w).getLsbD (guardBit c j) = true ↔
      (lane c w j).toNat ≤ (borrowIn c w j).toNat ∧ (lane c w j).toNat < 2 ^ (c.n - 1) ∧
        1 + (borrowIn c w j).toNat ≤ (lane c w j).toNat + 2 ^ (c.n - 1) := by
  have hsub := lane_sub_ones h1 h64 w hj
  have hdlt := lane_lt h64 (w - c.ones) j
  have htwo : 2 ^ c.n = 2 * 2 ^ (c.n - 1) := by rw [← pow_succ', Nat.sub_add_cancel h1]
  have hpos : 0 < 2 ^ (c.n - 1) := by positivity
  have hb := Bool.toNat_le (borrowIn c w j)
  rw [zeroMask_guardBit_iff h1 h64 w hj]
  by_cases hwrap : 2 ^ c.n ≤ (lane c (w - c.ones) j).toNat + 1 + (borrowIn c w j).toNat
  · rw [Nat.mod_eq_sub_mod hwrap, Nat.mod_eq_of_lt (by omega)] at hsub
    omega
  · rw [Nat.mod_eq_of_lt (by omega)] at hsub
    omega

/-- The flags of lanes of at least two bits (40_lane_primitive.md R87). -/
theorem zeroMask_guardBit_iff_of_two_le (h2 : 2 ≤ c.n) (h64 : c.n ≤ 64) (w : Word) {j : Nat} (hj : j < c.lanes) :
    (zeroMask c w).getLsbD (guardBit c j) = true ↔ lane c w j = 0#64 ∨ (lane c w j = 1#64 ∧ borrowIn c w j = true) := by
  have hhalf : 2 ^ 1 ≤ 2 ^ (c.n - 1) := Nat.pow_le_pow_right (by omega) (by omega)
  rw [zeroMask_guardBit_iff_borrow (by omega) h64 w hj, ← BitVec.toNat_inj, ← BitVec.toNat_inj, BitVec.toNat_ofNat,
    BitVec.toNat_ofNat]
  cases borrowIn c w j <;> simp <;> omega

/-- The flags of lanes of one bit (40_lane_primitive.md R87). -/
theorem zeroMask_guardBit_iff_of_width_one (hn : c.n = 1) (w : Word) {j : Nat} (hj : j < c.lanes) :
    (zeroMask c w).getLsbD (guardBit c j) = true ↔ lane c w j = 0#64 ∧ borrowIn c w j = false := by
  rw [zeroMask_guardBit_iff_borrow (by omega) (by omega) w hj, hn, ← BitVec.toNat_inj, BitVec.toNat_ofNat]
  cases borrowIn c w j <;> simp

/-- Settles O25: the two widths apart, and every flag is a guard bit. -/
theorem zeroMaskFlagsFollowTheBorrow : Obligations.ZeroMaskFlagsFollowTheBorrow := fun c w hok =>
  ⟨fun _ hb => exists_guardBit_of_zeroMask (c.n_pos hok) hb,
    fun h2 _ hj => zeroMask_guardBit_iff_of_two_le h2 (n_le_wordWidth hok) w hj,
    fun hn _ hj => zeroMask_guardBit_iff_of_width_one hn w hj⟩

/-- Settles O26: the mask is 0 exactly when no lane is, and its lowest flag is in the lowest zero lane. -/
theorem zeroMaskFindsTheLowestZeroLane : Obligations.ZeroMaskFindsTheLowestZeroLane := by
  intro c w hok
  refine ⟨?_, fun j => flaggedLane_zeroMask_eq_some (c.n_pos hok) (n_le_wordWidth hok)⟩
  rw [ne_eq, zeroMask_eq_zero_iff (c.n_pos hok) (n_le_wordWidth hok)]
  push Not
  rfl

/-! ## What the mask does not depend on -/

/-- A lane is made of bits below `USED`. -/
theorem lane_congr (h64 : c.n ≤ 64) {w w' : Word} (h : ∀ b, b < c.used → w.getLsbD b = w'.getLsbD b) {i : Nat}
    (hi : i < c.lanes) : lane c w i = lane c w' i := by
  apply BitVec.eq_of_getLsbD_eq
  intro b _
  rw [lane_bit h64, lane_bit h64]
  by_cases hb : b < c.n
  · rw [h _ (lane_index_lt_used hi hb)]
  · simp [hb]

/-- The borrow into a lane is decided by the lanes below it. -/
theorem borrowIn_congr {w w' : Word} {j : Nat} (h : ∀ i, i < j → lane c w i = lane c w' i) : borrowIn c w j = borrowIn c w' j := by
  induction j with
  | zero => rfl
  | succ j ih => rw [borrowIn, borrowIn, h j (Nat.lt_succ_self j), ih fun i hi => h i (Nat.lt_succ_of_lt hi)]

/-- The mask has only guard bits, so it is decided by them. -/
theorem zeroMask_ext (h1 : 1 ≤ c.n) {w w' : Word} (h : ∀ j, j < c.lanes →
    ((zeroMask c w).getLsbD (guardBit c j) = true ↔ (zeroMask c w').getLsbD (guardBit c j) = true)) :
    zeroMask c w = zeroMask c w' := by
  apply BitVec.eq_of_getLsbD_eq
  intro b _
  rw [Bool.eq_iff_iff]
  constructor <;> intro hb <;> obtain ⟨j, hj, rfl⟩ := exists_guardBit_of_zeroMask h1 hb
  · exact (h j hj).1 hb
  · exact (h j hj).2 hb

/-- The mask is decided by the lanes. -/
theorem zeroMask_congr (h1 : 1 ≤ c.n) (h64 : c.n ≤ 64) {w w' : Word} (h : ∀ i, i < c.lanes → lane c w i = lane c w' i) :
    zeroMask c w = zeroMask c w' := by
  refine zeroMask_ext h1 fun j hj => ?_
  rw [zeroMask_guardBit_iff_borrow h1 h64 w hj, zeroMask_guardBit_iff_borrow h1 h64 w' hj, h j hj,
    borrowIn_congr fun i hi => h i (hi.trans hj)]

/-- Settles O27: the bits below `USED` decide the lanes, and the lanes the mask. -/
theorem unusedBitsDoNotMatter : Obligations.UnusedBitsDoNotMatter := by
  intro c w w' hok h
  have hlane : ∀ i, i < c.lanes → lane c w i = lane c w' i := fun _ hi => lane_congr (n_le_wordWidth hok) h hi
  exact ⟨zeroMask_congr (c.n_pos hok) (n_le_wordWidth hok) hlane, hlane⟩

/-! ## Lanes of one bit -/

theorem used_of_width_one (hn : c.n = 1) : c.used = 64 := by
  simp [Config.used, Config.lanes, hn]

theorem maxSafe_of_width_one (hn : c.n = 1) : c.maxSafe = 0 := by
  simp [Config.maxSafe, hn]

/-- Every bit is the lowest bit of a lane. -/
theorem ones_of_width_one (hn : c.n = 1) : c.ones = BitVec.allOnes 64 := by
  apply BitVec.eq_of_getLsbD_eq
  intro b hb
  rw [ones_bit hn.ge, used_of_width_one hn, hn, Nat.mod_one, BitVec.getLsbD_allOnes]
  simp

/-- The mask's formula with every bit a lane of its own (40_lane_primitive.md R90). -/
theorem zeroMask_of_width_one (hn : c.n = 1) (w : Word) : zeroMask c w = (w + 1#64) &&& ~~~w := by
  have hsub : w - BitVec.allOnes 64 = w + 1#64 := by
    rw [← BitVec.neg_one_eq_allOnes, BitVec.sub_neg]
  have hhigh : c.high = BitVec.allOnes 64 := by simp [Config.high, hn, ones_of_width_one hn]
  rw [zeroMask, ones_of_width_one hn, hhigh, hsub, BitVec.and_allOnes]

/-- A borrow from a zero lane passes every lane above it, since each holds 0 or 1. -/
theorem borrowIn_of_zero_lane_of_width_one (hn : c.n = 1) {w : Word} {i j : Nat} (hz : lane c w i = 0#64) (hij : i < j) :
    borrowIn c w j = true := by
  induction j with
  | zero => omega
  | succ j ih =>
    have hlane : lane c w j = 0#64 ∨ lane c w j = 1#64 := by
      have hlt := lane_lt (show c.n ≤ 64 by omega) w j
      rw [hn] at hlt
      rw [← BitVec.toNat_inj, ← BitVec.toNat_inj, BitVec.toNat_ofNat, BitVec.toNat_ofNat]
      omega
    rcases Nat.lt_succ_iff_lt_or_eq.1 hij with h | rfl
    · rcases hlane with h' | h' <;> simp [borrowIn, h', ih h]
    · simp [borrowIn, hz]

/-- No lane above a flagged one is flagged. -/
theorem le_of_flagged_of_width_one (hn : c.n = 1) {w : Word} {i j : Nat} (hi : i < c.lanes) (hj : j < c.lanes)
    (hfi : (zeroMask c w).getLsbD (guardBit c i) = true) (hfj : (zeroMask c w).getLsbD (guardBit c j) = true) : j ≤ i := by
  by_contra hlt
  have hz := ((zeroMask_guardBit_iff_of_width_one hn w hi).1 hfi).1
  have hb := ((zeroMask_guardBit_iff_of_width_one hn w hj).1 hfj).2
  rw [borrowIn_of_zero_lane_of_width_one hn hz (by omega)] at hb
  cases hb

/-- A word without two different 1 bits has a population count of at most 1. -/
theorem popcount_le_one {m : Word} (h : ∀ a b, m.getLsbD a = true → m.getLsbD b = true → a = b) : popcount m ≤ 1 := by
  have hcard : popcount m = ((Finset.range 64).filter fun b => m.getLsbD b = true).card := by
    rw [popcount, List.countP_eq_length_filter, ← List.toFinset_card_of_nodup (List.nodup_range.filter _)]
    congr 1
    ext b
    simp
  rw [hcard, Finset.card_le_one]
  intro a ha b hb
  exact h a b (Finset.mem_filter.1 ha).2 (Finset.mem_filter.1 hb).2

/-- The mask of one-bit lanes flags the lowest zero lane alone. -/
theorem popcount_zeroMask_le_of_width_one (hn : c.n = 1) (w : Word) : popcount (zeroMask c w) ≤ 1 := by
  refine popcount_le_one fun a b ha hb => ?_
  obtain ⟨i, hi, rfl⟩ := exists_guardBit_of_zeroMask hn.ge ha
  obtain ⟨j, hj, rfl⟩ := exists_guardBit_of_zeroMask hn.ge hb
  rw [le_antisymm (le_of_flagged_of_width_one hn hj hi hb ha) (le_of_flagged_of_width_one hn hi hj ha hb)]

theorem exec_cnteq {s : State} {k v : Nat} (hs : s.flt = false) (hk : k < s.cfg.rmax) (hv : v ≤ s.cfg.maxSafe) :
    exec (.cnteq k v) s = .next (s.complete (word (popcount (matchMask s.cfg (s.reg k) (word v))))) :=
  command_run _ _ hs (firstFault_eq_none.2 (by simp [hk, hv]))

/-- In lanes of one bit `MAXSAFE` is 0, so no value passes the check of the set commands (40_lane_primitive.md R90). -/
theorem firstFault_setValue_of_width_one (hn : c.n = 1) (v : Nat) :
    firstFault [checkSetValue c v] = some .setValueRange := by
  have hfails : ¬ (checkSetValue c v).holds = true := by
    rw [checkSetValue_holds, maxSafe_of_width_one hn]
    omega
  rw [firstFault_cons, if_neg hfails]
  rfl

/-- Settles O28: the mask has at most one flag, and the set commands fail their one check. -/
theorem laneWidthOne : Obligations.LaneWidthOne := by
  intro s hn hs
  refine ⟨zeroMask_of_width_one hn, fun k hk => ⟨_, exec_cnteq hs hk (Nat.zero_le _), ?_⟩, fun v => ?_⟩
  · have hle : popcount (matchMask s.cfg (s.reg k) (word 0)) ≤ 1 := popcount_zeroMask_le_of_width_one hn _
    rcases Nat.le_one_iff_eq_zero_or_eq_one.1 hle with h | h
    · exact .inl (by rw [h])
    · exact .inr (by rw [h])
  · have hfault := firstFault_setValue_of_width_one hn v
    exact ⟨command_fault _ _ hs hfault, command_fault _ _ hs hfault, command_fault _ _ hs hfault⟩

end Sys2Proof.Machine

/-! # Search

Each command of 41_search.md that passes its checks, as one equation. `CONTAINS`, `FIND` and `FINDZ` read the lowest flag of the match mask,
which is exact (R107); `CNTEQ` counts the flags, one for each lane the mask flags (R108). -/

namespace Sys2Proof.Machine

variable {s : State} {c : Config} {k v count : Nat}

/-! ## The commands -/

@[simp] theorem checkCount_holds : (checkCount c count).holds = true ↔ 1 ≤ count ∧ count ≤ c.lanes := by
  simp [checkCount]

theorem exec_contains (hs : s.flt = false) (hk : k < s.cfg.rmax) (hv : v ≤ s.cfg.maxSafe) :
    exec (.contains k v) s = .next (s.complete (resBool (matchMask s.cfg (s.reg k) (word v) != 0#64))) :=
  command_run _ _ hs (firstFault_eq_none.2 (by simp [hk, hv]))

theorem exec_find (hs : s.flt = false) (hk : k < s.cfg.rmax) (hv : v ≤ s.cfg.maxSafe) :
    exec (.find k v) s = .next (s.complete (resIndex (flaggedLane s.cfg (matchMask s.cfg (s.reg k) (word v))))) :=
  command_run _ _ hs (firstFault_eq_none.2 (by simp [hk, hv]))

theorem exec_findz (hs : s.flt = false) (hk : k < s.cfg.rmax) :
    exec (.findz k) s = .next (s.complete (resIndex (flaggedLane s.cfg (zeroMask s.cfg (s.reg k))))) :=
  command_run _ _ hs (firstFault_eq_none.2 (by simp [hk]))

theorem exec_min (hs : s.flt = false) (hk : k < s.cfg.rmax) (h1 : 1 ≤ count) (hcount : count ≤ s.cfg.lanes) :
    exec (.min k count) s = .next (s.complete (word (minUpTo (fun i => (s.laneAt k i).toNat) (count - 1)))) :=
  command_run _ _ hs (firstFault_eq_none.2 (by simp [hk, h1, hcount]))

theorem exec_max (hs : s.flt = false) (hk : k < s.cfg.rmax) (h1 : 1 ≤ count) (hcount : count ≤ s.cfg.lanes) :
    exec (.max k count) s = .next (s.complete (word (maxUpTo (fun i => (s.laneAt k i).toNat) (count - 1)))) :=
  command_run _ _ hs (firstFault_eq_none.2 (by simp [hk, h1, hcount]))

/-! ## The lowest flag -/

/-- A mask that flags no lane has no lowest flag (41_search.md R107). -/
theorem flaggedLane_matchMask_eq_none (h1 : 1 ≤ c.n) (h64 : c.n ≤ 64) {w : Word} (hv : v < 2 ^ c.n) :
    flaggedLane c (matchMask c w (word v)) = none ↔ ∀ j, j < c.lanes → lane c w j ≠ word v := by
  rw [flaggedLane_eq_none, matchMask_eq_zero_iff h1 h64 hv]

/-- Searching for 0 is looking for a zero lane (41_search.md R100). -/
theorem matchMask_zero (c : Config) (w : Word) : matchMask c w (word 0) = zeroMask c w := by
  simp [matchMask, bcast, word]

/-- Settles O29: the match mask is the zero-lanes mask of the lanes XORed with `v`, and `CONTAINS` asks whether it is 0. -/
theorem containsIsExact : Obligations.ContainsIsExact := by
  constructor
  · intro c w v hok hv
    have hv' := lane_lt_of_le_maxSafe hv
    refine ⟨?_, fun j => flaggedLane_matchMask_eq_some (c.n_pos hok) (n_le_wordWidth hok) hv'⟩
    rw [ne_eq, matchMask_eq_zero_iff (c.n_pos hok) (n_le_wordWidth hok) hv']
    push Not
    rfl
  · intro s k v hok hs hk hv
    have hmask := matchMask_eq_zero_iff (w := s.reg k) (s.cfg.n_pos hok) (n_le_wordWidth hok) (lane_lt_of_le_maxSafe hv)
    refine ⟨_, exec_contains hs hk hv, ?_, fun hnone => ?_⟩
    · rintro ⟨j, hj, hlane⟩
      have hne : matchMask s.cfg (s.reg k) (word v) ≠ 0#64 := fun h0 => hmask.1 h0 j hj hlane
      simp [resBool, hne]
    · simp [resBool, hmask.2 hnone]

/-- Settles O30: `FIND` answers the lane of the match mask's lowest flag. -/
theorem findAnswersTheLowestLane : Obligations.FindAnswersTheLowestLane := by
  intro s k v hok hs hk hv
  have h1 := s.cfg.n_pos hok
  have h64 := n_le_wordWidth hok
  have hv' := lane_lt_of_le_maxSafe hv
  refine ⟨_, exec_find hs hk hv, fun j hj hlane hlow => ?_, fun hnone => ?_⟩
  · rw [(flaggedLane_matchMask_eq_some h1 h64 hv').2 ⟨hj, hlane, hlow⟩]
    rfl
  · rw [(flaggedLane_matchMask_eq_none h1 h64 hv').2 hnone]
    rfl

/-- `FINDZ` is `FIND` of 0, which is in the range of every search command (41_search.md R103). -/
theorem exec_findz_eq_find_zero (hs : s.flt = false) (hk : k < s.cfg.rmax) : exec (.findz k) s = exec (.find k 0) s := by
  rw [exec_findz hs hk, exec_find hs hk (Nat.zero_le _), matchMask_zero]

/-- Settles O31: what `FIND` answers for 0. -/
theorem findzAnswersTheLowestEmptyLane : Obligations.FindzAnswersTheLowestEmptyLane := by
  intro s k hok hs hk
  have hfindz := exec_findz_eq_find_zero hs hk
  obtain ⟨res, hfind, hlow, hnone⟩ := findAnswersTheLowestLane s k 0 hok hs hk (Nat.zero_le _)
  exact ⟨hfindz, res, hfindz.trans hfind, hlow, hnone⟩

/-! ## Counting the flags -/

/-- Each flag is the guard bit of one lane, so there are as many flags as flagged lanes. -/
theorem popcount_zeroMask (h1 : 1 ≤ c.n) (w : Word) :
    popcount (zeroMask c w) = (List.range c.lanes).countP fun j => (zeroMask c w).getLsbD (guardBit c j) := by
  have hinj : Function.Injective (guardBit c) := fun i j hij => by
    rw [← guardBit_div h1 i, hij, guardBit_div h1]
  have hperm : ((List.range 64).filter fun b => (zeroMask c w).getLsbD b).Perm
      (((List.range c.lanes).filter fun j => (zeroMask c w).getLsbD (guardBit c j)).map (guardBit c)) := by
    rw [List.perm_ext_iff_of_nodup (List.nodup_range.filter _) ((List.nodup_range.filter _).map hinj)]
    intro b
    simp only [List.mem_filter, List.mem_map, List.mem_range]
    constructor
    · rintro ⟨_, hb⟩
      obtain ⟨j, hj, rfl⟩ := exists_guardBit_of_zeroMask h1 hb
      exact ⟨j, ⟨hj, hb⟩, rfl⟩
    · rintro ⟨j, ⟨_, hb⟩, rfl⟩
      exact ⟨BitVec.lt_of_getLsbD hb, hb⟩
  rw [popcount, List.countP_eq_length_filter, List.countP_eq_length_filter, hperm.length_eq, List.length_map]

theorem popcount_zeroMask_le (h1 : 1 ≤ c.n) (w : Word) : popcount (zeroMask c w) ≤ c.lanes := by
  rw [popcount_zeroMask h1]
  exact List.countP_le_length.trans_eq List.length_range

/-- Settles O33: the match mask is a zero-lanes mask, which has at most one flag per lane. -/
theorem cnteqAnswersThePopulationCount : Obligations.CnteqAnswersThePopulationCount := by
  intro s k v hok hs hk hv
  refine ⟨_, exec_cnteq hs hk hv, List.countP_eq_length_filter, popcount_zeroMask_le (s.cfg.n_pos hok) _, ?_⟩
  rw [popcount_eq_zero, matchMask_eq_zero_iff (s.cfg.n_pos hok) (n_le_wordWidth hok) (lane_lt_of_le_maxSafe hv)]
  rfl

/-- A lane is 1 where the word differs from the broadcast of `v` in the lane's lowest bit alone. -/
theorem lane_xor_bcast_eq_one_iff (h1 : 1 ≤ c.n) (h64 : c.n ≤ 64) (w : Word) {i : Nat} (hv : v < 2 ^ c.n) (hi : i < c.lanes) :
    lane c (w ^^^ bcast c (word v)) i = 1#64 ↔ lane c w i = word v ^^^ 1#64 := by
  rw [lane_xor, lane_bcast h1 h64 hv hi, ← BitVec.xor_left_inj (word v), BitVec.xor_assoc, BitVec.xor_self, BitVec.xor_zero,
    BitVec.xor_comm 1#64]

/-- The match mask flags the lanes that hold `v`, and the lanes that hold `v ^ 1` with a borrow into them (41_search.md R108). -/
theorem matchMask_guardBit_iff (h2 : 2 ≤ c.n) (h64 : c.n ≤ 64) (w : Word) {j : Nat} (hv : v < 2 ^ c.n) (hj : j < c.lanes) :
    (matchMask c w (word v)).getLsbD (guardBit c j) = true ↔
      lane c w j = word v ∨ (lane c w j = word v ^^^ 1#64 ∧ borrowIn c (w ^^^ bcast c (word v)) j = true) := by
  rw [matchMask, zeroMask_guardBit_iff_of_two_le h2 h64 _ hj, lane_xor_bcast_eq_zero_iff (by omega) h64 w hv hj,
    lane_xor_bcast_eq_one_iff (by omega) h64 w hv hj]

/-- Properties that exclude each other are counted apart. -/
theorem countP_or_of_disjoint {α : Type} {p q : α → Bool} (l : List α) (h : ∀ x, p x = true → q x = false) :
    (l.countP fun x => p x || q x) = l.countP p + l.countP q := by
  induction l with
  | nil => rfl
  | cons x l ih =>
    rw [List.countP_cons, List.countP_cons, List.countP_cons, ih]
    cases hp : p x
    · simp
      omega
    · simp [h x hp]
      omega

/-- No word is both `v` and `v ^ 1`. -/
theorem ne_xor_one (x : Word) : x ≠ x ^^^ 1#64 := by
  intro h
  have hbit := congrArg (fun y => y.getLsbD 0) h
  simp at hbit

/-- Settles O32: the flagged lanes are of two kinds that exclude each other. -/
theorem cnteqCountsMatchesAndBorrowedNeighbours : Obligations.CnteqCountsMatchesAndBorrowedNeighbours := by
  intro s k v hok h2 hs hk hv
  rw [exec_cnteq hs hk hv, ← countP_or_of_disjoint]
  · have hcount : popcount (matchMask s.cfg (s.reg k) (word v)) = (List.range s.cfg.lanes).countP fun j =>
        s.laneAt k j == word v ||
          (s.laneAt k j == word v ^^^ 1#64 && borrowIn s.cfg (s.reg k ^^^ bcast s.cfg (word v)) j) := by
      rw [matchMask, popcount_zeroMask (s.cfg.n_pos hok), ← matchMask]
      refine List.countP_congr fun j hj => ?_
      rw [matchMask_guardBit_iff h2 (n_le_wordWidth hok) _ (lane_lt_of_le_maxSafe hv) (List.mem_range.1 hj)]
      simp only [Bool.or_eq_true, Bool.and_eq_true, beq_iff_eq]
      rfl
    rw [hcount]
    rfl
  · intro j hj
    rw [beq_iff_eq] at hj
    simp [hj, ne_xor_one]

/-! ## The scans -/

theorem word_toNat_self (w : Word) : word w.toNat = w := by
  rw [word, BitVec.ofNat_toNat, BitVec.setWidth_eq]

/-- Settles O34: the scans answer one of the lanes as a number, the least and the greatest of them. -/
theorem minAndMaxScanTheFirstLanes : Obligations.MinAndMaxScanTheFirstLanes := by
  intro s k count hok hs hk h1 hcount
  obtain ⟨⟨i, hi, hmin⟩, hleast⟩ := minUpTo_spec (fun i => (s.laneAt k i).toNat) (count - 1)
  obtain ⟨⟨j, hj, hmax⟩, hgreatest⟩ := maxUpTo_spec (fun i => (s.laneAt k i).toNat) (count - 1)
  refine ⟨⟨s.laneAt k i, ?_, ⟨i, by omega, rfl⟩, fun m hm => ?_⟩, s.laneAt k j, ?_, ⟨j, by omega, rfl⟩, fun m hm => ?_⟩
  · rw [exec_min hs hk h1 hcount, ← hmin, word_toNat_self]
    rfl
  · exact hmin.trans_le (hleast m (by omega))
  · rw [exec_max hs hk h1 hcount, ← hmax, word_toNat_self]
    rfl
  · exact (hgreatest m (by omega)).trans_eq hmax.symm

end Sys2Proof.Machine

/-! # The generic set commands

What the scans of 42_generic_set.md find, said of positions instead of masks; then each command that passes its checks as one equation. The laws of the set
follow from what a command does to the members (`InsertsMember`, `RemovesMember`), those of its size from counting the members by value and by lane index. -/

namespace Sys2Proof.Machine

variable {s t : State} {v k i : Nat}

/-! ## What the scans find, by position -/

/-- The duplicate scan finds a register of the set for every member. -/
theorem exists_holdingReg_word_of_holds (hok : s.cfg.ok = true) (hv : v ≤ s.cfg.maxSafe) (h : s.holds v) :
    ∃ k, holdingReg s (word v) = some k :=
  Option.ne_none_iff_exists'.1 fun hnone => (holdingReg_word_eq_none hok hv).1 hnone h

theorem usable_iff {c : Config} : usable c k i = true ↔ ∀ gc, c.storage = .fixed gc → k * c.lanes + i < gc := by
  unfold usable
  cases c.storage <;> simp

/-- Within the set the usable positions come before the others in (register, lane) order (42_generic_set.md R121). -/
theorem usable_of_before {c : Config} {k' i' : Nat} (hu : usable c k i = true) (hi' : i' < c.lanes)
    (hbefore : k' < k ∨ (k' = k ∧ i' < i)) : usable c k' i' = true := by
  refine usable_iff.2 fun gc hst => lt_of_le_of_lt ?_ (usable_iff.1 hu gc hst)
  rcases hbefore with hk | ⟨rfl, hi⟩
  · have hrow := Nat.mul_le_mul_right c.lanes (show k' + 1 ≤ k from hk)
    rw [Nat.add_mul] at hrow
    omega
  · omega

theorem freeLaneOf_eq_some_iff (hok : s.cfg.ok = true) : freeLaneOf s k = some i ↔
    i < s.cfg.lanes ∧ usable s.cfg k i = true ∧ s.laneAt k i = 0#64 ∧ ∀ j, j < i → s.laneAt k j ≠ 0#64 := by
  rw [freeLaneOf_eq_some, flaggedLane_zeroMask_eq_some (s.cfg.n_pos hok) (n_le_wordWidth hok)]
  simp only [State.laneAt]
  tauto

/-- Testing the lowest empty lane only misses no free lane, since the lanes below a usable one are usable. -/
theorem freeLaneOf_eq_none_iff (hok : s.cfg.ok = true) : freeLaneOf s k = none ↔
    ∀ i, i < s.cfg.lanes → usable s.cfg k i = true → s.laneAt k i ≠ 0#64 := by
  refine ⟨fun hnone i hi hu hz => ?_, fun hfull => ?_⟩
  · obtain ⟨m, hm, hzm, hlow⟩ := exists_lowest (p := fun j => s.laneAt k j = 0#64) ⟨i, Nat.lt_succ_self i, hz⟩
    have hum : usable s.cfg k m = true := by
      rcases Nat.lt_succ_iff_lt_or_eq.1 hm with hlt | rfl
      · exact usable_of_before hu (hlt.trans hi) (.inr ⟨rfl, hlt⟩)
      · exact hu
    have hfree : freeLaneOf s k = some m := (freeLaneOf_eq_some_iff hok).2 ⟨by omega, hum, hzm, hlow⟩
    rw [hnone] at hfree
    cases hfree
  · refine Option.eq_none_iff_forall_ne_some.2 fun i hi => ?_
    obtain ⟨hlt, hu, hz, -⟩ := (freeLaneOf_eq_some_iff hok).1 hi
    exact hfull i hlt hu hz

/-- Every usable lane of the set holds something: the set of `FIXED` mode is full, that of `GROW` mode has to grow. -/
def State.noFreeLane (s : State) : Prop := ∀ k z, s.setPos k z → usable s.cfg k z = true → s.laneAt k z ≠ 0#64

theorem insertSite_eq_none_iff (hok : s.cfg.ok = true) : insertSite s = none ↔ s.noFreeLane := by
  rw [insertSite_eq_none]
  simp only [freeLaneOf_eq_none_iff hok]
  exact ⟨fun h k z hp => h k hp.1 z hp.2, fun h k hk z hz => h k z ⟨hk, hz⟩⟩

/-- No lane of the set is 0, so none is free. -/
theorem noFreeLane_of_not_holds_zero (h : ¬ s.holds 0) : s.noFreeLane :=
  fun k z hp _ hz => h ⟨k, z, hp, hz⟩

/-- `GINS` places a value in the first free usable lane in (register, lane) order. -/
theorem insertSite_of_first (hok : s.cfg.ok = true) (hp : s.setPos k i) (hu : usable s.cfg k i = true) (hz : s.laneAt k i = 0#64)
    (hfirst : ∀ k' i', s.setPos k' i' → usable s.cfg k' i' = true → (k' < k ∨ (k' = k ∧ i' < i)) → s.laneAt k' i' ≠ 0#64) :
    insertSite s = some (k, i) := by
  obtain ⟨hk, hi⟩ := hp
  refine insertSite_eq_some.2 ⟨hk, (freeLaneOf_eq_some_iff hok).2 ⟨hi, hu, hz, fun j hj => ?_⟩, fun j hj => ?_⟩
  · have hjl := hj.trans hi
    exact hfirst k j ⟨hk, hjl⟩ (usable_of_before hu hjl (.inr ⟨rfl, hj⟩)) (.inr ⟨rfl, hj⟩)
  · exact (freeLaneOf_eq_none_iff hok).2 fun z hzl huz => hfirst j z ⟨hj.trans hk, hzl⟩ huz (.inl hj)

/-- `GERA` clears the first lane in (register, lane) order that holds the value. -/
theorem eraseSite_of_first (hok : s.cfg.ok = true) (hv : v ≤ s.cfg.maxSafe) (hp : s.setPos k i) (he : s.laneAt k i = word v)
    (hfirst : ∀ k' i', s.setPos k' i' → (k' < k ∨ (k' = k ∧ i' < i)) → s.laneAt k' i' ≠ word v) :
    eraseSite s (word v) = some (k, i) := by
  obtain ⟨hk, hi⟩ := hp
  have h1 := s.cfg.n_pos hok
  have h64 := n_le_wordWidth hok
  have hv' := lane_lt_of_le_maxSafe hv
  refine eraseSite_eq_some.2 ⟨holdingReg_eq_some.2 ⟨hk, fun h0 => ?_, fun j hj => ?_⟩, ?_⟩
  · exact (matchMask_eq_zero_iff h1 h64 hv').1 h0 i hi he
  · exact (matchMask_eq_zero_iff h1 h64 hv').2 fun z hz => hfirst j z ⟨hj.trans hk, hz⟩ (.inl hj)
  · exact (flaggedLane_matchMask_eq_some h1 h64 hv').2
      ⟨hi, he, fun j hj => hfirst k j ⟨hk, hj.trans hi⟩ (.inr ⟨rfl, hj⟩)⟩

/-! ## The commands -/

theorem exec_gcon (hs : s.flt = false) (h1 : 1 ≤ v) (hv : v ≤ s.cfg.maxSafe) :
    exec (.gcon v) s = .next (s.complete (resBool (holdingReg s (word v)).isSome)) :=
  command_run _ _ hs (firstFault_eq_none.2 (by simp [h1, hv]))

/-- `GINS` of a member (42_generic_set.md R122 phase 1). -/
theorem exec_gins_of_holds (hok : s.cfg.ok = true) (hs : s.flt = false) (h1 : 1 ≤ v) (hv : v ≤ s.cfg.maxSafe) (hm : s.holds v) :
    exec (.gins v) s = .next (s.complete resDuplicate) := by
  obtain ⟨k, hk⟩ := exists_holdingReg_word_of_holds hok hv hm
  refine (command_run _ _ hs (firstFault_eq_none.2 (by simp [h1, hv]))).trans ?_
  rw [hk]

/-- `GINS` of a value that is no member goes on to the phases 2 and 3 (42_generic_set.md R122). -/
theorem exec_gins_of_not_holds (hok : s.cfg.ok = true) (hs : s.flt = false) (h1 : 1 ≤ v) (hv : v ≤ s.cfg.maxSafe)
    (hm : ¬ s.holds v) : exec (.gins v) s = .next (insertNew s (encode (.gins v)) (word v)) := by
  refine (command_run _ _ hs (firstFault_eq_none.2 (by simp [h1, hv]))).trans ?_
  rw [(holdingReg_word_eq_none hok hv).2 hm]

/-- Phase 2: there is a free lane. -/
theorem insertNew_of_site (h : insertSite s = some (k, i)) (cw w : Word) : insertNew s cw w =
    State.complete { (s.setReg k (setLane s.cfg (s.reg k) i w)) with gcnt := s.gcnt + 1#32 } resInserted := by
  rw [insertNew, h]

/-- Phase 3 in `FIXED` mode. -/
theorem insertNew_of_full {gc : Nat} (hst : s.cfg.storage = .fixed gc) (h : insertSite s = none) (cw w : Word) :
    insertNew s cw w = s.complete resFull := by
  rw [insertNew, h, insertOverflow, hst]

/-- Phase 3 in `GROW` mode. -/
theorem insertNew_of_grow {n : Nat} (hst : s.cfg.storage = .grow n) (h : insertSite s = none) (cw w : Word) :
    insertNew s cw w = appendReg s cw w := by
  rw [insertNew, h, insertOverflow, hst]

/-- `GERA` of a value that is no member (42_generic_set.md R123). -/
theorem exec_gera_of_not_holds (hok : s.cfg.ok = true) (hs : s.flt = false) (h1 : 1 ≤ v) (hv : v ≤ s.cfg.maxSafe)
    (hm : ¬ s.holds v) : exec (.gera v) s = .next (s.complete (resBool false)) := by
  refine (command_run _ _ hs (firstFault_eq_none.2 (by simp [h1, hv]))).trans ?_
  rw [eraseSite_eq_none.2 ((holdingReg_word_eq_none hok hv).2 hm)]

/-- `GERA` of a member (42_generic_set.md R123). -/
theorem exec_gera_of_site (hs : s.flt = false) (h1 : 1 ≤ v) (hv : v ≤ s.cfg.maxSafe) (h : eraseSite s (word v) = some (k, i)) :
    exec (.gera v) s = .next (State.complete
      { (s.setReg k (setLane s.cfg (s.reg k) i 0#64)) with gcnt := s.gcnt - 1#32 } (resBool true)) := by
  refine (command_run _ _ hs (firstFault_eq_none.2 (by simp [h1, hv]))).trans ?_
  rw [h]

/-! ## What one command does -/

/-- Settles O42: a query has no check to fail. -/
theorem genericSetQueriesAnswer : Obligations.GenericSetQueriesAnswer := by
  intro s hs
  have hquery : ∀ cw res, command s cw [] (s.complete res) = .next (s.complete res) :=
    fun cw _ => command_run cw _ hs firstFault_nil
  refine ⟨?_, fun gc hst => ?_, fun n hst => ?_, ?_⟩
  · rw [word, BitVec.ofNat_toNat]
    exact hquery (encode .gsize) _
  · refine (hquery (encode .gcap) _).trans ?_
    rw [setCapacity, hst]
    rfl
  · refine (hquery (encode .gcap) _).trans ?_
    rw [setCapacity, hst]
    rfl
  · rw [word, BitVec.ofNat_toNat]
    exact hquery (encode .glen) _

/-- Settles O36: the duplicate scan finds a register exactly when some lane holds the value. -/
theorem gconIsExact : Obligations.GconIsExact := by
  intro s v hok hs h1 hv
  rw [exec_gcon hs h1 hv]
  refine ⟨fun hm => ?_, fun hm => ?_⟩
  · obtain ⟨k, hk⟩ := exists_holdingReg_word_of_holds hok hv hm
    rw [hk]
    rfl
  · rw [(holdingReg_word_eq_none hok hv).2 hm]
    rfl

/-- Settles O37: the duplicate scan comes before every test of the room left. -/
theorem ginsOfAMemberIsADuplicate : Obligations.GinsOfAMemberIsADuplicate :=
  fun _ _ => exec_gins_of_holds

/-- What the write of one lane is seen as: the lane, the rest of its register, the other registers. -/
theorem State.frame_of_write_setLane (hok : s.cfg.ok = true) (hc : t.cfg = s.cfg) {w : Word} (hw : w.toNat < 2 ^ s.cfg.n)
    (hi : i < s.cfg.lanes) (hr : t.r = s.r.write k (setLane s.cfg (s.reg k) i w)) :
    t.laneAt k i = w ∧ (∀ j, j < s.cfg.lanes → j ≠ i → t.laneAt k j = s.laneAt k j) ∧
      t.reg k >>> s.cfg.used = s.reg k >>> s.cfg.used ∧ ∀ j, j ≠ k → t.reg j = s.reg j := by
  have hlane := State.laneAt_of_write_setLane hok hc hw hi hr
  refine ⟨by simp [hlane], fun j _ hj => by simp [hlane, hj], ?_, fun j hj => ?_⟩
  · rw [State.reg_of_write hr, if_pos rfl, setLane_shiftRight_used _ hw hi]
  · rw [State.reg_of_write hr, if_neg hj]

/-- Settles O38: the first free lane is where phase 2 writes one lane of one register. -/
theorem ginsFillsTheFirstFreeLane : Obligations.GinsFillsTheFirstFreeLane := by
  intro s v k z hok hs h1 hv hm hp hu hz hfirst
  have hexec := exec_gins_of_not_holds hok hs h1 hv hm
  rw [insertNew_of_site (insertSite_of_first hok hp hu hz hfirst)] at hexec
  obtain ⟨hlane, hlanes, hupper, hregs⟩ := State.frame_of_write_setLane
    (t := State.complete { (s.setReg k (setLane s.cfg (s.reg k) z (word v))) with gcnt := s.gcnt + 1#32 } resInserted)
    hok rfl (word_lt_of_le_maxSafe hok hv) hp.2 rfl
  exact ⟨_, hexec, hlane, hlanes, hupper, hregs, rfl⟩

/-- Settles O39: with no free lane phase 3 answers that the set is full. -/
theorem ginsOnAFullFixedSetAnswersFull : Obligations.GinsOnAFullFixedSetAnswersFull := by
  intro s v gc hok hs hst h1 hv hm hfull
  rw [exec_gins_of_not_holds hok hs h1 hv hm, insertNew_of_full hst ((insertSite_eq_none_iff hok).2 hfull)]
  rfl

/-- In `GROW` mode a `GINS` of a value that is no member appends when no lane of the set is 0 (42_generic_set.md R131). -/
theorem exec_gins_of_no_empty_lane {n : Nat} (hok : s.cfg.ok = true) (hs : s.flt = false) (hst : s.cfg.storage = .grow n)
    (h1 : 1 ≤ v) (hv : v ≤ s.cfg.maxSafe) (hm : ¬ s.holds v) (h0 : ¬ s.holds 0) :
    exec (.gins v) s = .next (appendReg s (encode (.gins v)) (word v)) := by
  rw [exec_gins_of_not_holds hok hs h1 hv hm,
    insertNew_of_grow hst ((insertSite_eq_none_iff hok).2 (noFreeLane_of_not_holds_zero h0))]

/-- Settles O18: growth has no register left. -/
theorem ginsWithoutStorageFaults : Obligations.GinsWithoutStorageFaults := by
  intro s v n hok hs hst h1 hv hm h0 hg
  rw [exec_gins_of_no_empty_lane hok hs hst h1 hv hm h0, appendReg, if_pos hg]
  rfl

/-- The register `GINS` appends is the value's word. -/
theorem setLane_zero_zero (c : Config) (w : Word) : setLane c 0#64 0 w = w := by
  simp [setLane]

/-- Settles O40: growth writes the register after the last, and `GLEN` has room for one more. -/
theorem ginsGrowsTheSet : Obligations.GinsGrowsTheSet := by
  intro s v n hok hs hst h1 hv hm h0 hg
  have hexec := exec_gins_of_no_empty_lane hok hs hst h1 hv hm h0
  rw [appendReg, if_neg hg.ne, setLane_zero_zero] at hexec
  have hglen : s.glenOk := ⟨hg.le, fun gc h => by rw [hst] at h; cases h⟩
  refine ⟨_, hexec, ?_, glen_succ_toNat hok hglen, fun j hj => ?_, rfl⟩
  · exact (State.reg_setReg s _ _ _).trans (if_pos rfl)
  · exact (State.reg_setReg s _ _ _).trans (if_neg hj)

/-- Settles O41: the first match is where `GERA` writes one lane of one register. -/
theorem geraClearsTheFirstMatch : Obligations.GeraClearsTheFirstMatch := by
  intro s v hok hs h1 hv
  refine ⟨exec_gera_of_not_holds hok hs h1 hv, fun k f hp he hfirst => ?_⟩
  obtain ⟨hlane, hlanes, hupper, hregs⟩ := State.frame_of_write_setLane
    (t := State.complete { (s.setReg k (setLane s.cfg (s.reg k) f 0#64)) with gcnt := s.gcnt - 1#32 } (resBool true))
    hok rfl (w := 0#64) (by simp) hp.2 rfl
  exact ⟨_, exec_gera_of_site hs h1 hv (eraseSite_of_first hok hv hp he hfirst), hlane, hlanes, hupper, hregs, rfl⟩

/-! ## The set laws -/

theorem State.holds_iff_memberAt (hok : s.cfg.ok = true) (h1 : 1 ≤ v) (hv : v ≤ s.cfg.maxSafe) :
    s.holds v ↔ ∃ k i, s.memberAt k i (word v) := by
  simp [State.holds, State.memberAt, word_ne_zero_of_le_maxSafe hok h1 hv]

/-- A position holds one value. -/
theorem State.memberAt_unique {x y : Word} (hx : s.memberAt k i x) (hy : s.memberAt k i y) : x = y := by
  obtain ⟨-, hx, -⟩ := hx
  obtain ⟨-, hy, -⟩ := hy
  exact hx.symm.trans hy

theorem word_inj_of_le_maxSafe (hok : s.cfg.ok = true) {u : Nat} (hu : u ≤ s.cfg.maxSafe) (hv : v ≤ s.cfg.maxSafe) :
    word u = word v ↔ u = v := by
  refine ⟨fun h => ?_, congrArg word⟩
  rw [← word_toNat_of_le_maxSafe hok hu, h, word_toNat_of_le_maxSafe hok hv]

/-- The members after an insertion (42_generic_set.md R129 (a)). -/
theorem InsertsMember.holds_iff (h : InsertsMember s t k i v) (hok : s.cfg.ok = true) {u : Nat} (h1 : 1 ≤ u)
    (hu : u ≤ s.cfg.maxSafe) : t.holds u ↔ u = v ∨ s.holds u := by
  rw [State.holds_iff_memberAt (h.cfg ▸ hok) h1 (h.cfg ▸ hu), State.holds_iff_memberAt hok h1 hu]
  simp [h.members, exists_or, word_inj_of_le_maxSafe hok hu h.le]

/-- The members after a removal; under `GI1` the value was in the cleared position only (42_generic_set.md R129 (b)). -/
theorem RemovesMember.holds_iff (h : RemovesMember s t k i v) (hok : s.cfg.ok = true) (hs : s.genericOk)
    (hv : v ≤ s.cfg.maxSafe) {u : Nat} (h1 : 1 ≤ u) (hu : u ≤ s.cfg.maxSafe) : t.holds u ↔ u ≠ v ∧ s.holds u := by
  obtain ⟨hunique, -⟩ := State.genericOk_iff.1 hs
  rw [State.holds_iff_memberAt (h.cfg ▸ hok) h1 (h.cfg ▸ hu), State.holds_iff_memberAt hok h1 hu]
  simp only [h.members]
  constructor
  · rintro ⟨k', i', hne, hm⟩
    refine ⟨?_, k', i', hm⟩
    rintro rfl
    exact hne (hunique _ _ _ _ _ hm h.held)
  · rintro ⟨hne, k', i', hm⟩
    refine ⟨k', i', ?_, hm⟩
    rintro ⟨rfl, rfl⟩
    exact hne ((word_inj_of_le_maxSafe hok hu hv).1 (State.memberAt_unique hm h.held))

/-- Everything `GINS` of a value that is no member can do: insert it, answer that the set is full, or fault. -/
theorem insertNew_members_cases (hok : s.cfg.ok = true) (hg : s.glenOk) (h1 : 1 ≤ v) (hv : v ≤ s.cfg.maxSafe) (hm : ¬ s.holds v)
    (cw : Word) (ht : insertNew s cw (word v) = t) :
    (t.responses = s.responses ++ [⟨0#8, 1#64⟩] ∧ ∃ k i, InsertsMember s t k i v) ∨ t = s.complete resFull ∨ t.flt = true := by
  rcases insertNew_cases s cw (word v) with ⟨k, z, hsite, e⟩ | ⟨_, e⟩
  · obtain ⟨hp, hz, hu⟩ := insertSite_spec hok hsite
    obtain rfl := e.symm.trans ht
    exact .inl ⟨rfl, k, z, .of_write hok h1 hv hm hp hz hu rfl rfl rfl rfl⟩
  · rcases insertOverflow_cases s cw (word v) with ⟨_, _, e'⟩ | ⟨n, hst, e'⟩
    · exact .inr (.inl (ht.symm.trans (e.trans e')))
    · rcases appendReg_cases s cw (word v) with ⟨_, e''⟩ | ⟨_, e''⟩
      · obtain rfl := (e.trans (e'.trans e'')).symm.trans ht
        exact .inr (.inr rfl)
      · obtain rfl := (e.trans (e'.trans e'')).symm.trans ht
        exact .inl ⟨rfl, _, 0, .of_append hok hg h1 hv hst hm rfl rfl rfl rfl⟩

/-- `GERA` of a member removes it. -/
theorem removesMember_of_exec_gera (hok : s.cfg.ok = true) (hs : s.flt = false) (h1 : 1 ≤ v) (hv : v ≤ s.cfg.maxSafe)
    (hsite : eraseSite s (word v) = some (k, i)) (hexec : exec (.gera v) s = .next t) :
    t.responses = s.responses ++ [⟨0#8, 1#64⟩] ∧ RemovesMember s t k i v := by
  obtain ⟨hp, he⟩ := eraseSite_word_spec hok hv hsite
  obtain rfl : _ = t := Host.Outcome.next.inj ((exec_gera_of_site hs h1 hv hsite).symm.trans hexec)
  exact ⟨rfl, .of_write hok ⟨hp, he, word_ne_zero_of_le_maxSafe hok h1 hv⟩ rfl rfl rfl rfl⟩

/-- Settles O44: what `GINS` and `GERA` do to the members, by whether the value was one. -/
theorem genericSetLaws : Obligations.GenericSetLaws := by
  intro s t v hok hg hgen hs h1 hv
  refine ⟨fun hexec ht => ?_, fun hexec => ?_⟩
  · by_cases hm : s.holds v
    · obtain rfl : _ = t := Host.Outcome.next.inj ((exec_gins_of_holds hok hs h1 hv hm).symm.trans hexec)
      exact .inr (.inl ⟨rfl, hm, rfl⟩)
    · have hnew := Host.Outcome.next.inj ((exec_gins_of_not_holds hok hs h1 hv hm).symm.trans hexec)
      rcases insertNew_members_cases hok hg h1 hv hm _ hnew with ⟨hres, k, i, hins⟩ | rfl | hflt
      · exact .inl ⟨hres, hm, fun u hu1 hu => hins.holds_iff hok hu1 hu⟩
      · exact .inr (.inr ⟨rfl, hm, rfl⟩)
      · exact absurd (ht.symm.trans hflt) Bool.false_ne_true
  · rcases hsite : eraseSite s (word v) with _ | ⟨k, f⟩
    · have hm := (holdingReg_word_eq_none hok hv).1 (eraseSite_eq_none.1 hsite)
      obtain rfl : _ = t := Host.Outcome.next.inj ((exec_gera_of_not_holds hok hs h1 hv hm).symm.trans hexec)
      exact .inr ⟨rfl, hm, rfl⟩
    · obtain ⟨hres, hrem⟩ := removesMember_of_exec_gera hok hs h1 hv hsite hexec
      obtain ⟨hp, he⟩ := eraseSite_word_spec hok hv hsite
      exact .inl ⟨hres, ⟨k, f, hp, he⟩, fun u hu1 hu => hrem.holds_iff hok hgen hv hu1 hu⟩

/-! ## Counting the members by value -/

/-- The values the set's lanes hold, 0 left out. -/
def State.memberValues (s : State) : Finset Nat := s.memberPositions.image fun p => (s.laneAt p.1 p.2).toNat

theorem State.mem_memberValues (hok : s.cfg.ok = true) (hs : s.genericOk) :
    v ∈ s.memberValues ↔ 1 ≤ v ∧ v ≤ s.cfg.maxSafe ∧ s.holds v := by
  obtain ⟨-, hle, -⟩ := State.genericOk_iff.1 hs
  simp only [State.memberValues, Finset.mem_image, State.mem_memberPositions]
  constructor
  · rintro ⟨⟨k, i⟩, ⟨x, hm⟩, rfl⟩
    obtain ⟨hp, rfl, hx⟩ := hm
    have hpos : (s.laneAt k i).toNat ≠ 0 := fun h => hx (BitVec.eq_of_toNat_eq h)
    exact ⟨Nat.one_le_iff_ne_zero.2 hpos, hle k i _ ⟨hp, rfl, hx⟩, k, i, hp, (word_toNat_self _).symm⟩
  · rintro ⟨h1, hv, k, i, hp, he⟩
    exact ⟨(k, i), ⟨_, hp, he, word_ne_zero_of_le_maxSafe hok h1 hv⟩, by rw [he, word_toNat_of_le_maxSafe hok hv]⟩

/-- No value is in two positions (`GI1`) and `GCNT` counts the positions (`GI5`). -/
theorem State.card_memberValues (hs : s.genericOk) : s.memberValues.card = s.gcnt.toNat := by
  obtain ⟨hunique, -, hcount, -⟩ := State.genericOk_iff.1 hs
  rw [hcount, State.memberValues, Finset.card_image_of_injOn]
  intro p hp q hq he
  obtain ⟨_, hposp, rfl, hx⟩ := State.mem_memberPositions.1 hp
  obtain ⟨_, hposq, rfl, hy⟩ := State.mem_memberPositions.1 hq
  obtain ⟨hk, hi⟩ := hunique _ _ _ _ _ ⟨hposp, BitVec.eq_of_toNat_eq he, hy⟩ ⟨hposq, rfl, hy⟩
  exact Prod.ext hk hi

theorem exec_gcon_eq_one_iff (hok : s.cfg.ok = true) (hs : s.flt = false) (h1 : 1 ≤ v) (hv : v ≤ s.cfg.maxSafe) :
    exec (.gcon v) s = .next { s with responses := s.responses ++ [⟨0#8, 1#64⟩] } ↔ s.holds v := by
  obtain ⟨hone, hzero⟩ := gconIsExact s v hok hs h1 hv
  refine ⟨fun h => ?_, hone⟩
  by_contra hm
  have hres := congrArg State.responses (Host.Outcome.next.inj ((hzero hm).symm.trans h))
  simp at hres

/-- Settles O45: the values `GCON` answers 1 for are the members, and `GCNT` is their number. -/
theorem gsizeCountsTheMembers : Obligations.GsizeCountsTheMembers := by
  intro s hok hs hgen
  have hset : { v : Nat | 1 ≤ v ∧ v ≤ s.cfg.maxSafe ∧
      exec (.gcon v) s = .next { s with responses := s.responses ++ [⟨0#8, 1#64⟩] } } = s.memberValues := by
    ext v
    rw [Finset.mem_coe, State.mem_memberValues hok hgen]
    exact and_congr_right fun h1 => and_congr_right fun hv => exec_gcon_eq_one_iff hok hs h1 hv
  rw [hset, Set.ncard_coe_finset, State.card_memberValues hgen]
  exact (genericSetQueriesAnswer s hs).1

/-! ## Counting the members by lane index -/

/-- The global indexes `k * L + i` of the positions that hold a member (42_generic_set.md R121). -/
def State.memberIndices (s : State) : Finset Nat := s.memberPositions.image fun p => p.1 * s.cfg.lanes + p.2

/-- A global index is that of one position. -/
theorem laneIndex_inj {l k' i' : Nat} (hi : i < l) (hi' : i' < l) (h : k * l + i = k' * l + i') : k = k' ∧ i = i' := by
  have hdiv : ∀ a b, b < l → (a * l + b) / l = a := fun a b hb => by
    rw [Nat.add_comm, Nat.add_mul_div_right _ _ (by omega), Nat.div_eq_of_lt hb, Nat.zero_add]
  obtain rfl : k = k' := by rw [← hdiv k i hi, h, hdiv k' i' hi']
  exact ⟨rfl, Nat.add_left_cancel h⟩

theorem State.mem_memberIndices (hp : s.setPos k i) : k * s.cfg.lanes + i ∈ s.memberIndices ↔ s.laneAt k i ≠ 0#64 := by
  simp only [State.memberIndices, Finset.mem_image, State.mem_memberPositions]
  constructor
  · rintro ⟨⟨k', i'⟩, ⟨x, hp', rfl, hx⟩, he⟩
    obtain ⟨rfl, rfl⟩ := laneIndex_inj hp'.2 hp.2 he
    exact hx
  · exact fun hx => ⟨(k, i), ⟨_, hp, rfl, hx⟩, rfl⟩

theorem State.card_memberIndices (hs : s.genericOk) : s.memberIndices.card = s.gcnt.toNat := by
  obtain ⟨-, -, hcount, -⟩ := State.genericOk_iff.1 hs
  rw [hcount, State.memberIndices, Finset.card_image_of_injOn]
  intro p hp q hq he
  obtain ⟨_, ⟨_, hip⟩, _⟩ := State.mem_memberPositions.1 hp
  obtain ⟨_, ⟨_, hiq⟩, _⟩ := State.mem_memberPositions.1 hq
  obtain ⟨hk, hi⟩ := laneIndex_inj hip hiq he
  exact Prod.ext hk hi

/-- In `FIXED` mode the members are in positions with an index below `GC` (`GI6`). -/
theorem State.memberIndices_subset {gc : Nat} (hs : s.genericOk) (hst : s.cfg.storage = .fixed gc) :
    s.memberIndices ⊆ Finset.range gc := by
  obtain ⟨-, -, -, hbelow⟩ := State.genericOk_iff.1 hs
  intro j hj
  obtain ⟨p, hp, rfl⟩ := Finset.mem_image.1 hj
  obtain ⟨x, hx⟩ := State.mem_memberPositions.1 hp
  exact Finset.mem_range.2 (hbelow gc hst _ _ x hx)

/-- `ceil(a / b)` rows of `b` have room for the indexes below `a`. -/
theorem div_lt_ceilDiv {a b j : Nat} (hb : 1 ≤ b) (hj : j < a) : j / b < ceilDiv a b := by
  calc j / b < j / b + 1 := Nat.lt_succ_self _
    _ = (j + b) / b := (Nat.add_div_right j hb).symm
    _ ≤ ceilDiv a b := Nat.div_le_div_right (by omega)

/-- Every index below `GC` is that of a position of the fixed set (10_state.md R24). -/
theorem exists_setPos_of_lt_gc {gc j : Nat} (hok : s.cfg.ok = true) (hg : s.glenOk) (hst : s.cfg.storage = .fixed gc) (hj : j < gc) :
    ∃ k i, s.setPos k i ∧ j = k * s.cfg.lanes + i := by
  have hlanes : 1 ≤ s.cfg.lanes := Nat.le_of_succ_le (s.cfg.two_le_lanes hok)
  have hglen : s.glen.toNat = ceilDiv gc s.cfg.lanes := by rw [hg.2 gc hst, Config.rmax, hst]
  exact ⟨j / s.cfg.lanes, j % s.cfg.lanes, ⟨hglen ▸ div_lt_ceilDiv hlanes hj, Nat.mod_lt _ hlanes⟩,
    (Nat.div_add_mod' j s.cfg.lanes).symm⟩

/-- The fixed set has no free lane exactly when the members take every index below `GC`. -/
theorem memberIndices_eq_range_iff {gc : Nat} (hok : s.cfg.ok = true) (hg : s.glenOk) (hs : s.genericOk)
    (hst : s.cfg.storage = .fixed gc) : s.memberIndices = Finset.range gc ↔ s.noFreeLane := by
  constructor
  · intro h k i hp hu
    rw [← State.mem_memberIndices hp, h, Finset.mem_range]
    exact usable_iff.1 hu gc hst
  · intro h
    refine (State.memberIndices_subset hs hst).antisymm fun j hj => ?_
    obtain ⟨k, i, hp, rfl⟩ := exists_setPos_of_lt_gc hok hg hst (Finset.mem_range.1 hj)
    have hu : usable s.cfg k i = true := by simpa [usable, hst] using hj
    exact (State.mem_memberIndices hp).2 (h k i hp hu)

/-- `GCNT = GC` says that the fixed set has no free lane. -/
theorem gcnt_eq_gc_iff {gc : Nat} (hok : s.cfg.ok = true) (hg : s.glenOk) (hs : s.genericOk) (hst : s.cfg.storage = .fixed gc) :
    s.gcnt.toNat = gc ↔ s.noFreeLane := by
  rw [← memberIndices_eq_range_iff hok hg hs hst, ← State.card_memberIndices hs]
  refine ⟨fun h => ?_, fun h => by rw [h, Finset.card_range]⟩
  exact Finset.eq_of_subset_of_card_le (State.memberIndices_subset hs hst) (by rw [Finset.card_range, h])

/-- Settles O46: `GINS` answers 4 exactly when no lane is free, and the members take at most the `GC` indexes below `GC`. -/
theorem fixedSetIsFullAtItsCapacity : Obligations.FixedSetIsFullAtItsCapacity := by
  intro s gc hok hg hgen hs hst
  refine ⟨?_, fun v h1 hv hm => ?_⟩
  · rw [← State.card_memberIndices hgen]
    exact (Finset.card_le_card (State.memberIndices_subset hgen hst)).trans_eq (Finset.card_range gc)
  · rw [gcnt_eq_gc_iff hok hg hgen hst]
    refine ⟨fun hexec => (insertSite_eq_none_iff hok).1 ?_, ginsOnAFullFixedSetAnswersFull s v gc hok hs hst h1 hv hm⟩
    refine Option.eq_none_iff_forall_ne_some.2 fun p hsite => ?_
    have hins := exec_gins_of_not_holds hok hs h1 hv hm
    rw [insertNew_of_site hsite] at hins
    have hres := congrArg State.responses (Host.Outcome.next.inj (hins.symm.trans hexec))
    simp [resInserted] at hres

end Sys2Proof.Machine

/-! # The bucketed set commands

What the scans of 43_bucketed_set.md find, said of membership instead of masks; then each command that passes its checks as one equation. The set laws
follow from which remainders the occupied lanes hold after a bucket was written, and `BSIZE` counts the members because a value is its half and its
remainder. -/

namespace Sys2Proof.Machine

variable {s t : State} {h : Half} {u v k i : Nat}

/-! ## The masked match -/

/-- The masked match sees the count and the lanes below the count only (43_bucketed_set.md R158). -/
theorem bmatch_congr {b b' : Word} {r : Nat} (hr : r < 2048) (hcount : bcount b' = bcount b)
    (hlanes : ∀ i, i < bcount b → blane b' i = blane b i) : bmatch b' (word r) = bmatch b (word r) := by
  refine Option.ext fun i => ?_
  rw [bmatch_eq_some b' hr, bmatch_eq_some b hr, hcount]
  refine and_congr_right fun hi => ?_
  rw [hlanes i hi]
  exact and_congr_right fun _ => forall₂_congr fun j hj => by rw [hlanes j (hj.trans hi)]

/-- Settles O48: the match is exact for every remainder of 11 bits, so for those of 10 bits. -/
theorem maskedMatchIsExact : Obligations.MaskedMatchIsExact := by
  intro b r hr _
  have hr' : r < 2048 := by omega
  exact ⟨fun i => bmatch_eq_some b hr', bmatch_eq_none b hr', fun _ _ hcount hlanes => bmatch_congr hr' hcount hlanes⟩

/-! ## What the scans find, by membership -/

theorem State.bucketHolds_iff_remainderAt : s.bucketHolds v ↔ ∃ k i, s.remainderAt (half v) k i (rem v) := Iff.rfl

/-- The scan for the remainder finds nothing exactly when the value is no member. -/
theorem holdingBucket_half_rem_eq_none : holdingBucket s (half v) (rem v) = none ↔ ¬ s.bucketHolds v := by
  rw [holdingBucket_rem_eq_none]
  simp only [State.bucketHolds, not_exists, not_and, ne_eq]

/-- The scan for the remainder finds a bucket for every member. -/
theorem exists_holdingBucket_of_bucketHolds (hm : s.bucketHolds v) : ∃ k, holdingBucket s (half v) (rem v) = some k :=
  Option.ne_none_iff_exists'.1 fun hnone => holdingBucket_half_rem_eq_none.1 hnone hm

theorem matchSite_half_rem_eq_none : matchSite s (half v) (rem v) = none ↔ ¬ s.bucketHolds v :=
  matchSite_eq_none.trans holdingBucket_half_rem_eq_none

/-- Under the bucket invariants the lane `BERA` clears is the only one that holds the remainder. -/
theorem matchSite_of_remainderAt (hs : s.bucketsOk) (hp : s.remainderAt (half v) k i (rem v)) :
    matchSite s (half v) (rem v) = some (k, i) := by
  obtain ⟨-, hunique, -⟩ := State.bucketsOk_iff.1 hs
  rcases hsite : matchSite s (half v) (rem v) with _ | ⟨k', i'⟩
  · exact absurd ⟨k, i, hp⟩ (matchSite_half_rem_eq_none.1 hsite)
  · obtain ⟨rfl, rfl⟩ := hunique _ _ _ _ _ _ hp (matchSite_rem_spec hsite)
    rfl

/-! ## The commands -/

@[simp] theorem checkBucketValue_holds : (checkBucketValue v).holds = true ↔ 1 ≤ v ∧ v ≤ 2047 := by
  simp [checkBucketValue]

@[simp] theorem checkBucket_holds {c : Config} : (checkBucket c k).holds = true ↔ k < c.nb := decide_eq_true_iff

theorem firstFault_bucketValue (h1 : 1 ≤ v) (hv : v ≤ 2047) : firstFault [checkBucketValue v] = none :=
  firstFault_eq_none.2 (by simp [h1, hv])

theorem exec_bcon (hs : s.flt = false) (h1 : 1 ≤ v) (hv : v ≤ 2047) :
    exec (.bcon v) s = .next (s.complete (resBool (holdingBucket s (half v) (rem v)).isSome)) :=
  command_run _ _ hs (firstFault_bucketValue h1 hv)

/-- `BINS` of a member (43_bucketed_set.md R148 phase 1). -/
theorem exec_bins_of_bucketHolds (hs : s.flt = false) (h1 : 1 ≤ v) (hv : v ≤ 2047) (hm : s.bucketHolds v) :
    exec (.bins v) s = .next (s.complete resDuplicate) := by
  obtain ⟨k, hk⟩ := exists_holdingBucket_of_bucketHolds hm
  refine (command_run _ _ hs (firstFault_bucketValue h1 hv)).trans ?_
  rw [hk]

/-- `BINS` of a value that is no member of a full half (43_bucketed_set.md R148). -/
theorem exec_bins_of_full (hs : s.flt = false) (h1 : 1 ≤ v) (hv : v ≤ 2047) (hm : ¬ s.bucketHolds v)
    (hfull : roomyBucket s (half v) = none) : exec (.bins v) s = .next (s.complete resFull) := by
  refine (command_run _ _ hs (firstFault_bucketValue h1 hv)).trans ?_
  rw [holdingBucket_half_rem_eq_none.2 hm, hfull]

/-- `BINS` of a value that is no member of a half with room (43_bucketed_set.md R148 phase 2). -/
theorem exec_bins_of_roomyBucket (hs : s.flt = false) (h1 : 1 ≤ v) (hv : v ≤ 2047) (hm : ¬ s.bucketHolds v)
    (hroom : roomyBucket s (half v) = some k) : exec (.bins v) s =
      .next ((s.setBucket (half v) k (bucketAdd (s.bucket (half v) k) (rem v))).complete resInserted) := by
  refine (command_run _ _ hs (firstFault_bucketValue h1 hv)).trans ?_
  rw [holdingBucket_half_rem_eq_none.2 hm, hroom]

/-- `BERA` of a value that is no member (43_bucketed_set.md R149). -/
theorem exec_bera_of_not_bucketHolds (hs : s.flt = false) (h1 : 1 ≤ v) (hv : v ≤ 2047) (hm : ¬ s.bucketHolds v) :
    exec (.bera v) s = .next (s.complete (resBool false)) := by
  refine (command_run _ _ hs (firstFault_bucketValue h1 hv)).trans ?_
  rw [matchSite_half_rem_eq_none.2 hm]

/-- `BERA` of a member (43_bucketed_set.md R149). -/
theorem exec_bera_of_matchSite (hs : s.flt = false) (h1 : 1 ≤ v) (hv : v ≤ 2047)
    (hsite : matchSite s (half v) (rem v) = some (k, i)) : exec (.bera v) s =
      .next ((s.setBucket (half v) k (bucketRemove (s.bucket (half v) k) i)).complete (resBool true)) := by
  refine (command_run _ _ hs (firstFault_bucketValue h1 hv)).trans ?_
  rw [hsite]

/-! ## What one command does -/

/-- Settles O49: the scan finds a bucket exactly for a member. -/
theorem bconIsExact : Obligations.BconIsExact := by
  intro s v hs _ h1 hv
  rw [exec_bcon hs h1 hv]
  refine ⟨fun hm => ?_, fun hm => ?_⟩
  · obtain ⟨k, hk⟩ := exists_holdingBucket_of_bucketHolds hm
    rw [hk]
    rfl
  · rw [holdingBucket_half_rem_eq_none.2 hm]
    rfl

theorem State.bucket_complete_setBucket (s : State) (h : Half) (k : Nat) (b res : Word) (h' : Half) (j : Nat) :
    ((s.setBucket h k b).complete res).bucket h' j = if h' = h ∧ j = k then b else s.bucket h' j :=
  State.bucket_setBucket s h k b h' j

/-- What the write of one bucket is seen as: that bucket, the other buckets of both halves, the rest of the state. -/
theorem State.frame_of_setBucket {b res : Word} (ht : t = (s.setBucket h k b).complete res) :
    t.bucket h k = b ∧ (∀ h' j, ¬ (h' = h ∧ j = k) → t.bucket h' j = s.bucket h' j) ∧
      t = { s with lo := t.lo, hi := t.hi, responses := s.responses ++ [⟨0#8, res⟩] } := by
  subst ht
  refine ⟨?_, fun h' j hne => ?_, ?_⟩
  · rw [State.bucket_complete_setBucket, if_pos ⟨rfl, rfl⟩]
  · rw [State.bucket_complete_setBucket, if_neg hne]
  · cases h <;> rfl

/-- The remainder of a value fits in the 10 bits below the guard bit. -/
theorem rem_lt (v : Nat) : (rem v).toNat < 1024 := by
  rw [rem_toNat]
  omega

/-- Settles O50: a member is found by the scan; another value goes to the first bucket with room, if there is one. -/
theorem binsFillsTheFirstBucketWithRoom : Obligations.BinsFillsTheFirstBucketWithRoom := by
  intro s v hs hok h1 hv
  refine ⟨exec_bins_of_bucketHolds hs h1 hv, fun hm hfull => ?_, fun k hm hk hc hbefore => ?_⟩
  · exact exec_bins_of_full hs h1 hv hm (roomyBucket_eq_none.2 fun k hk => (hfull k hk).ge)
  · have hroom : roomyBucket s (half v) = some k := roomyBucket_eq_some.2 ⟨hk, hc, fun j hj => (hbefore j hj).ge⟩
    obtain ⟨hbucket, hothers, hrest⟩ := State.frame_of_setBucket
      (t := (s.setBucket (half v) k (bucketAdd (s.bucket (half v) k) (rem v))).complete resInserted) rfl
    obtain ⟨hcount, hnew, hold, htop⟩ := bucketAdd_spec (s.bucket (half v) k) (rem v) ((rem_lt v).trans (by decide)) hc
    refine ⟨_, exec_bins_of_roomyBucket hs h1 hv hm hroom, ?_⟩
    rw [hbucket]
    exact ⟨hcount, hnew, hold, htop.trans (hok.1 (half v) k hk).1, hothers, hrest⟩

/-- Settles O51: the lane that holds the remainder is the one the scan finds. -/
theorem beraCompactsTheBucket : Obligations.BeraCompactsTheBucket := by
  intro s v hs hok h1 hv
  refine ⟨exec_bera_of_not_bucketHolds hs h1 hv, fun k i ho he => ?_⟩
  have hsite : matchSite s (half v) (rem v) = some (k, i) := matchSite_of_remainderAt hok ⟨ho, he⟩
  obtain ⟨hbucket, hothers, hrest⟩ := State.frame_of_setBucket
    (t := (s.setBucket (half v) k (bucketRemove (s.bucket (half v) k) i)).complete (resBool true)) rfl
  obtain ⟨hcount, hlanes, htop⟩ := bucketRemove_spec (s.bucket (half v) k) i ho.2
  refine ⟨_, exec_bera_of_matchSite hs h1 hv hsite, ?_⟩
  rw [hbucket]
  exact ⟨hcount, hlanes, htop.trans (hok.1 (half v) k ho.1).1, hothers, hrest⟩

theorem bucketTotal_eq_sum (s : State) :
    bucketTotal s = ∑ k ∈ Finset.range s.cfg.nb, (bcount (s.bucket .lo k) + bcount (s.bucket .hi k)) := rfl

/-- Settles O52: a query has no check to fail but the bucket's index. -/
theorem bucketedSetQueriesAnswer : Obligations.BucketedSetQueriesAnswer := by
  intro s hs
  have hbrdw : ∀ h k, k < s.cfg.nb → exec (.brdw h k) s = .next (s.complete (s.bucket h k)) := fun h k hk =>
    command_run _ _ hs (firstFault_eq_none.2 (by simp [hk]))
  refine ⟨?_, command_run (encode .bcap) _ hs firstFault_nil, fun k hk => ⟨hbrdw .lo k hk, hbrdw .hi k hk⟩⟩
  rw [← bucketTotal_eq_sum]
  exact command_run (encode .bsize) _ hs firstFault_nil

/-! ## The bounds -/

/-- A bucket holds at most three values, as its count has two bits. -/
theorem sum_bcount_le (s : State) (h : Half) : ∑ k ∈ Finset.range s.cfg.nb, bcount (s.bucket h k) ≤ 3 * s.cfg.nb := by
  calc ∑ k ∈ Finset.range s.cfg.nb, bcount (s.bucket h k) ≤ (Finset.range s.cfg.nb).card • 3 :=
        Finset.sum_le_card_nsmul _ _ _ fun k _ => Nat.le_of_lt_succ (bcount_lt _)
    _ = 3 * s.cfg.nb := by rw [Finset.card_range, smul_eq_mul, Nat.mul_comm]

theorem bc_le_three_mul_nb (c : Config) : c.bc ≤ 3 * c.nb := by
  rw [Config.nb, ceilDiv]
  omega

/-- Settles O56: three values per bucket, and `ceil(BC / 3)` buckets. -/
theorem eachHalfHoldsThreePerBucket : Obligations.EachHalfHoldsThreePerBucket := by
  intro s _ hs
  obtain ⟨hbsize, -⟩ := bucketedSetQueriesAnswer s hs
  refine ⟨bc_le_three_mul_nb s.cfg, sum_bcount_le s, _, hbsize, ?_⟩
  have hlo := sum_bcount_le s .lo
  have hhi := sum_bcount_le s .hi
  rw [Finset.sum_add_distrib, word, BitVec.toNat_ofNat]
  exact (Nat.mod_le _ _).trans (by omega)

/-! ## A value is its half and its remainder -/

/-- The value that a lane of half `h` with contents `x` stands for (43_bucketed_set.md R146). -/
def bucketValue (h : Half) (x : Word) : Nat := 1024 * h.select + x.toNat

theorem half_eq_iff (hv : v ≤ 2047) : half v = h ↔ h.select = v / 1024 := by
  rw [half, Nat.testBit_eq_decide_div_mod_eq]
  cases h <;> simp [Half.select] <;> omega

theorem bucketValue_half_rem (hv : v ≤ 2047) : bucketValue (half v) (rem v) = v := by
  rw [bucketValue, rem_toNat, (half_eq_iff hv).1 rfl]
  exact Nat.div_add_mod v 1024

section
variable {x : Word}

theorem bucketValue_le (hx : x.toNat < 1024) : bucketValue h x ≤ 2047 := by
  have := select_div_two h
  rw [bucketValue]
  omega

theorem half_bucketValue (hx : x.toNat < 1024) : half (bucketValue h x) = h := by
  rw [half_eq_iff (bucketValue_le hx), bucketValue]
  omega

theorem rem_bucketValue (hx : x.toNat < 1024) : rem (bucketValue h x) = x := by
  apply BitVec.eq_of_toNat_eq
  rw [rem_toNat, bucketValue]
  omega

/-- In `LO` the lane value 0 stands for no value of `1..2047`. -/
theorem one_le_bucketValue (hx : h = .lo → x ≠ 0#64) : 1 ≤ bucketValue h x := by
  rw [bucketValue]
  cases h with
  | lo => exact Nat.le_add_left_of_le (Nat.one_le_iff_ne_zero.2 fun h0 => hx rfl (BitVec.eq_of_toNat_eq h0))
  | hi => exact Nat.le_add_right_of_le (by decide)

end

theorem half_rem_inj (hu : u ≤ 2047) (hv : v ≤ 2047) (hh : half u = half v) (hr : rem u = rem v) : u = v := by
  rw [← bucketValue_half_rem hu, hh, hr, bucketValue_half_rem hv]

/-! ## The set laws -/

/-- The members after `BINS` filled a lane (43_bucketed_set.md R155 (a)). -/
theorem State.bucketHolds_of_add (hk : k < s.cfg.nb) (hroom : bcount (s.bucket (half v) k) < 3) (hv : v ≤ 2047)
    (hu : u ≤ 2047) (hc : t.cfg = s.cfg)
    (hb : ∀ h' k', t.bucket h' k' =
      if h' = half v ∧ k' = k then bucketAdd (s.bucket (half v) k) (rem v) else s.bucket h' k') :
    t.bucketHolds u ↔ u = v ∨ s.bucketHolds u := by
  simp only [State.bucketHolds_iff_remainderAt, State.remainderAt_of_add hk hroom (rem_lt v) hc hb, exists_or]
  refine or_congr_left ⟨?_, ?_⟩
  · rintro ⟨_, _, hh, -, -, hr⟩
    exact half_rem_inj hu hv hh hr
  · rintro rfl
    exact ⟨k, _, rfl, rfl, rfl, rfl⟩

/-- Swap-compaction takes what the cleared lane held from the half and nothing else: what the last lane held is in the cleared lane now. -/
theorem State.exists_remainderAt_of_remove {h' : Half} {x : Word} (ho : s.occupied h k i) (hc : t.cfg = s.cfg)
    (hb : ∀ h' k', t.bucket h' k' = if h' = h ∧ k' = k then bucketRemove (s.bucket h k) i else s.bucket h' k') :
    (∃ k' i', t.remainderAt h' k' i' x) ↔ ∃ k' i', s.remainderAt h' k' i' x ∧ ¬ (h' = h ∧ k' = k ∧ i' = i) := by
  have hrem := State.remainderAt_of_remove ho hc hb
  constructor
  · rintro ⟨k', i', hp⟩
    rw [hrem] at hp
    split at hp
    · next hhk =>
      obtain ⟨rfl, rfl⟩ := hhk
      obtain ⟨hin, hp⟩ := hp
      refine ⟨_, _, hp, fun ⟨_, _, he⟩ => ?_⟩
      split at he <;> omega
    · next hhk => exact ⟨k', i', hp, fun ⟨hh, hk, _⟩ => hhk ⟨hh, hk⟩⟩
  · rintro ⟨k', i', hp, hne⟩
    by_cases hhk : h' = h ∧ k' = k
    · obtain ⟨rfl, rfl⟩ := hhk
      have hi := ho.2
      have hi' := hp.1.2
      have hii : i' ≠ i := fun he => hne ⟨rfl, rfl, he⟩
      by_cases hlast : i' = bcount (s.bucket h' k') - 1
      · refine ⟨k', i, (hrem ..).2 ?_⟩
        rw [if_pos ⟨rfl, rfl⟩, if_pos rfl, ← hlast]
        exact ⟨by omega, hp⟩
      · refine ⟨k', i', (hrem ..).2 ?_⟩
        rw [if_pos ⟨rfl, rfl⟩, if_neg hii]
        exact ⟨by omega, hp⟩
    · exact ⟨k', i', (hrem ..).2 (by rwa [if_neg hhk])⟩

/-- The members after `BERA` cleared a lane; by `BI1` the value was in no other (43_bucketed_set.md R155 (b)). -/
theorem State.bucketHolds_of_remove (hs : s.bucketsOk) (hp : s.remainderAt (half v) k i (rem v)) (hv : v ≤ 2047)
    (hu : u ≤ 2047) (hc : t.cfg = s.cfg)
    (hb : ∀ h' k', t.bucket h' k' =
      if h' = half v ∧ k' = k then bucketRemove (s.bucket (half v) k) i else s.bucket h' k') :
    t.bucketHolds u ↔ u ≠ v ∧ s.bucketHolds u := by
  obtain ⟨-, hunique, -⟩ := State.bucketsOk_iff.1 hs
  rw [State.bucketHolds_iff_remainderAt, State.exists_remainderAt_of_remove hp.1 hc hb]
  constructor
  · rintro ⟨k', i', hp', hne⟩
    refine ⟨?_, k', i', hp'⟩
    rintro rfl
    exact hne ⟨rfl, hunique _ _ _ _ _ _ hp' hp⟩
  · rintro ⟨hne, k', i', hp'⟩
    refine ⟨k', i', hp', ?_⟩
    rintro ⟨hh, rfl, rfl⟩
    exact hne (half_rem_inj hu hv hh (hp'.2.symm.trans (hh ▸ hp.2)))

/-- Settles O54: what `BINS` and `BERA` do to the members, by whether the value was one. -/
theorem bucketedSetLaws : Obligations.BucketedSetLaws := by
  intro s t v hs hok h1 hv
  refine ⟨fun hexec => ?_, fun hexec => ?_⟩
  · by_cases hm : s.bucketHolds v
    · obtain rfl : _ = t := Host.Outcome.next.inj ((exec_bins_of_bucketHolds hs h1 hv hm).symm.trans hexec)
      exact .inr (.inl ⟨rfl, hm, rfl⟩)
    · rcases hroom : roomyBucket s (half v) with _ | k
      · obtain rfl : _ = t := Host.Outcome.next.inj ((exec_bins_of_full hs h1 hv hm hroom).symm.trans hexec)
        exact .inr (.inr ⟨rfl, hm, rfl⟩)
      · obtain rfl : _ = t := Host.Outcome.next.inj ((exec_bins_of_roomyBucket hs h1 hv hm hroom).symm.trans hexec)
        obtain ⟨hk, hc, -⟩ := roomyBucket_eq_some.1 hroom
        exact .inl ⟨by simp [resInserted], hm, fun u _ hu =>
          State.bucketHolds_of_add hk hc hv hu (by simp) (State.bucket_complete_setBucket s _ k _ _)⟩
  · rcases hsite : matchSite s (half v) (rem v) with _ | ⟨k, i⟩
    · have hm := matchSite_half_rem_eq_none.1 hsite
      obtain rfl : _ = t := Host.Outcome.next.inj ((exec_bera_of_not_bucketHolds hs h1 hv hm).symm.trans hexec)
      exact .inr ⟨rfl, hm, rfl⟩
    · have hp := matchSite_rem_spec hsite
      obtain rfl : _ = t := Host.Outcome.next.inj ((exec_bera_of_matchSite hs h1 hv hsite).symm.trans hexec)
      exact .inl ⟨by simp [resBool], ⟨k, i, hp⟩, fun u _ hu =>
        State.bucketHolds_of_remove hok hp hv hu (by simp) (State.bucket_complete_setBucket s _ k _ _)⟩

/-! ## Counting the members by value -/

/-- The occupied lanes of half `h`, as pairs of a bucket and a lane. -/
def State.occupiedLanes (s : State) (h : Half) : Finset (Σ _ : Nat, Nat) :=
  (Finset.range s.cfg.nb).sigma fun k => Finset.range (bcount (s.bucket h k))

/-- The values the occupied lanes of half `h` stand for. -/
def State.bucketValues (s : State) (h : Half) : Finset Nat :=
  (s.occupiedLanes h).image fun p => bucketValue h (blane (s.bucket h p.1) p.2)

theorem State.mem_occupiedLanes {p : Σ _ : Nat, Nat} : p ∈ s.occupiedLanes h ↔ s.occupied h p.1 p.2 := by
  simp [State.occupiedLanes, State.occupied]

/-- A remainder has 10 bits, since its guard bit is 0. -/
theorem blane_lt_of_bucketOk {b : Word} (hb : bucketOk b) (hi : i < 3) : (blane b i).toNat < 1024 := by
  obtain ⟨-, -, hguard⟩ := hb
  have hlt := blane_lt b i
  have hbit := hguard i hi
  rw [← BitVec.testBit_toNat, Nat.testBit_eq_decide_div_mod_eq, decide_eq_false_iff_not] at hbit
  omega

theorem State.blane_lt_of_occupied (hs : s.bucketsOk) (ho : s.occupied h k i) : (blane (s.bucket h k) i).toNat < 1024 := by
  have hc := bcount_lt (s.bucket h k)
  exact blane_lt_of_bucketOk (hs.1 h k ho.1) (by have := ho.2; omega)

theorem State.mem_bucketValues (hs : s.bucketsOk) :
    v ∈ s.bucketValues h ↔ half v = h ∧ 1 ≤ v ∧ v ≤ 2047 ∧ s.bucketHolds v := by
  simp only [State.bucketValues, Finset.mem_image, State.mem_occupiedLanes]
  constructor
  · rintro ⟨⟨k, i⟩, ho, rfl⟩
    have hlt := State.blane_lt_of_occupied hs ho
    have hhalf := half_bucketValue (h := h) hlt
    refine ⟨hhalf, one_le_bucketValue ?_, bucketValue_le hlt, k, i, ?_⟩
    · rintro rfl
      exact hs.2.2 k i ho
    · rw [hhalf, rem_bucketValue hlt]
      exact ⟨ho, rfl⟩
  · rintro ⟨rfl, _, hv, k, i, ho, he⟩
    exact ⟨⟨k, i⟩, ho, by rw [he, bucketValue_half_rem hv]⟩

/-- No two occupied lanes of a half stand for one value (`BI1`). -/
theorem State.card_bucketValues (hs : s.bucketsOk) :
    (s.bucketValues h).card = ∑ k ∈ Finset.range s.cfg.nb, bcount (s.bucket h k) := by
  obtain ⟨-, hunique, -⟩ := hs
  rw [State.bucketValues, Finset.card_image_of_injOn]
  · simp [State.occupiedLanes]
  · rintro ⟨k, i⟩ hp ⟨k', i'⟩ hp' he
    have hlane := BitVec.eq_of_toNat_eq (Nat.add_left_cancel he)
    obtain ⟨rfl, rfl⟩ := hunique h k i k' i' (State.mem_occupiedLanes.1 hp) (State.mem_occupiedLanes.1 hp') hlane
    rfl

theorem State.disjoint_bucketValues (hs : s.bucketsOk) : Disjoint (s.bucketValues .lo) (s.bucketValues .hi) := by
  refine Finset.disjoint_left.2 fun v hlo hhi => ?_
  obtain ⟨hl, -⟩ := (State.mem_bucketValues hs).1 hlo
  obtain ⟨hh, -⟩ := (State.mem_bucketValues hs).1 hhi
  cases hl.symm.trans hh

theorem exec_bcon_eq_one_iff (hs : s.flt = false) (hok : s.bucketsOk) (h1 : 1 ≤ v) (hv : v ≤ 2047) :
    exec (.bcon v) s = .next { s with responses := s.responses ++ [⟨0#8, 1#64⟩] } ↔ s.bucketHolds v := by
  obtain ⟨hone, hzero⟩ := bconIsExact s v hs hok h1 hv
  refine ⟨fun h => ?_, hone⟩
  by_contra hm
  have hres := congrArg State.responses (Host.Outcome.next.inj ((hzero hm).symm.trans h))
  simp at hres

/-- Settles O55: the values `BCON` answers 1 for are the values of the two halves, one for each occupied lane. -/
theorem bsizeCountsTheMembers : Obligations.BsizeCountsTheMembers := by
  intro s hs hok
  have hset : { v : Nat | 1 ≤ v ∧ v ≤ 2047 ∧ exec (.bcon v) s = .next { s with responses := s.responses ++ [⟨0#8, 1#64⟩] } } =
      ↑(s.bucketValues .lo ∪ s.bucketValues .hi) := by
    ext v
    have hhalf : half v = .lo ∨ half v = .hi := by cases half v <;> simp
    rw [Finset.mem_coe, Finset.mem_union, State.mem_bucketValues hok, State.mem_bucketValues hok, ← or_and_right,
      and_iff_right hhalf]
    exact and_congr_right fun h1 => and_congr_right fun hv => exec_bcon_eq_one_iff hs hok h1 hv
  obtain ⟨hbsize, -⟩ := bucketedSetQueriesAnswer s hs
  rw [hset, Set.ncard_coe_finset, Finset.card_union_of_disjoint (State.disjoint_bucketValues hok), State.card_bucketValues hok,
    State.card_bucketValues hok, ← Finset.sum_add_distrib]
  exact hbsize

end Sys2Proof.Machine

/-! # Faults and the halted state

What a step on a command word can do (60_exceptions.md R170 to R184): the halted answer, a fault that records the presented word, or an effect that leaves the
fault status alone. The range faults are the first failing check of the command (R178). -/

namespace Sys2Proof.Machine

variable {s t : State} {c : Config} {cw : Word} {rest : List HostEvent} {i : Instr} {k l v count : Nat} {h : Half}

/-! ## A step, by the input it takes -/

theorem step_idle (hok : s.cfg.ok = true) (hp : s.pending = []) : step s = .next s := by
  simp [step, hok, hp]

theorem step_reset (hok : s.cfg.ok = true) (hp : s.pending = .reset :: rest) :
    step s = .next (State.applyReset { s with pending := rest }) := by
  simp [step, hok, hp]

theorem step_reject {e : Reject} (hok : s.cfg.ok = true) (hp : s.pending = .command cw :: rest) (hdec : decode cw = .error e) :
    step s = rejectWord { s with pending := rest } cw := by
  simp [step, hok, hp, hdec]

/-- Everything a step on a command word can do. A fault records the presented word: the word of a decoded command is its encoding (30_encoding.md R67). -/
theorem step_command_cases (hok : s.cfg.ok = true) (hp : s.pending = .command cw :: rest) (hstep : step s = .next t) :
    (s.flt = true ∧ t = State.respondHalted { s with pending := rest }) ∨
      (s.flt = false ∧ ∃ cause, t = State.raise { s with pending := rest } cause cw) ∨
      (s.flt = false ∧ ∃ i, Effect { s with pending := rest } i t) := by
  cases hdec : decode cw with
  | ok i =>
    rw [step_command hok hp hdec] at hstep
    obtain ⟨-, rfl⟩ := decode_eq_ok_iff.1 hdec
    rcases exec_cases hstep with hhalted | hfault | ⟨hs, heff⟩
    · exact .inl hhalted
    · exact .inr (.inl hfault)
    · exact .inr (.inr ⟨hs, i, heff⟩)
  | error e =>
    rw [step_reject hok hp hdec] at hstep
    rcases rejectWord_cases hstep with hhalted | ⟨hs, hfault⟩
    · exact .inl hhalted
    · exact .inr (.inl ⟨hs, _, hfault⟩)

/-- A halted unit gives the same answer to every word (60_exceptions.md R183). -/
theorem step_command_halted (hok : s.cfg.ok = true) (hs : s.flt = true) (hp : s.pending = .command cw :: rest) :
    step s = .next (State.respondHalted { s with pending := rest }) := by
  obtain ⟨t, hstep, -⟩ := step_command_answers hok hp
  rcases step_command_cases hok hp hstep with ⟨-, rfl⟩ | ⟨hf, -⟩ | ⟨hf, -⟩
  · exact hstep
  · cases hs.symm.trans hf
  · cases hs.symm.trans hf

/-- A command that raises no fault answers with `ST = 0` (30_encoding.md R57). -/
theorem Effect.responses (heff : Effect s i t) : ∃ res, t.responses = s.responses ++ [⟨0#8, res⟩] := by
  cases heff with
  | bins | bera => exact ⟨_, by rw [State.complete_responses, State.setBucket_responses]⟩
  | _ => exact ⟨_, rfl⟩

/-! ## The step, settled -/

/-- Settles O12: the step with no input to take. -/
theorem idleUnitKeepsItsState : Obligations.IdleUnitKeepsItsState :=
  fun _ => step_idle

/-- Settles O6: a word that matches no row does not decode, and a rejected word raises `IllegalCommand`. -/
theorem illegalWordFaults : Obligations.IllegalWordFaults := by
  intro s cw rest hok hs hp hnone
  obtain ⟨e, hdec⟩ := (exists_decode_error_iff cw).2 hnone
  rw [step_reject hok hp hdec]
  exact command_fault (c := .illegalCommand) cw _ hs rfl

/-- Settles O7: the three outcomes of a step on a command word. -/
theorem everyCommandIsAnsweredOnce : Obligations.EveryCommandIsAnsweredOnce := by
  intro s cw rest hok hp
  obtain ⟨t, hstep, hans⟩ := step_command_answers hok hp
  refine ⟨t, hstep, hans.pending, ?_⟩
  rcases step_command_cases hok hp hstep with ⟨hs, rfl⟩ | ⟨hs, cause, rfl⟩ | ⟨hs, i, heff⟩
  · exact .inl ⟨hs, rfl⟩
  · exact .inr (.inr ⟨hs, cause.code, cause.code_range.1, cause.code_range.2, rfl⟩)
  · obtain ⟨hflt, hcause, hcmd⟩ := heff.faultStatus
    exact .inr (.inl ⟨hs, hflt.trans hs, hcause, hcmd, heff.responses⟩)

/-- Settles O8: the halted answer to a word, and the reset values. -/
theorem haltedUnitIgnoresEveryWord : Obligations.HaltedUnitIgnoresEveryWord :=
  fun _ _ hok hs => ⟨fun _ => step_command_halted hok hs, step_reset hok⟩

/-- Settles O9: of the inputs a halted unit can have pending, only reset does more than answer. -/
theorem onlyResetLeavesTheHaltedState : Obligations.OnlyResetLeavesTheHaltedState := by
  intro s t hs hstep
  obtain ⟨hok, -⟩ := step_cases hstep
  refine ⟨fun rest hp => ?_, fun hnoreset => ?_⟩
  · obtain rfl := Host.Outcome.next.inj ((step_reset hok hp).symm.trans hstep)
    exact ⟨rfl, rfl⟩
  · rcases hp : s.pending with _ | ⟨cw | _, rest⟩
    · obtain rfl := Host.Outcome.next.inj ((step_idle hok hp).symm.trans hstep)
      exact ⟨hs, rfl⟩
    · obtain rfl := Host.Outcome.next.inj ((step_command_halted hok hs hp).symm.trans hstep)
      exact ⟨hs, rfl⟩
    · exact absurd hp (hnoreset rest)

/-! ## The first failing check -/

/-- The fault reported is that of the first check that fails, whatever the checks after it (60_exceptions.md R178). -/
theorem firstFault_append {passed later : List Check} {check : Check} (hpassed : ∀ p ∈ passed, p.holds = true)
    (hfails : ¬ check.holds = true) : firstFault (passed ++ check :: later) = some check.cause := by
  induction passed with
  | nil => rw [List.nil_append, firstFault_cons, if_neg hfails]
  | cons p passed ih =>
    rw [List.cons_append, firstFault_cons, if_pos (hpassed p List.mem_cons_self)]
    exact ih fun q hq => hpassed q (List.mem_cons_of_mem p hq)

theorem exists_mem_of_firstFault {checks : List Check} {cause : Cause} (hfault : firstFault checks = some cause) :
    ∃ check ∈ checks, check.cause = cause := by
  induction checks with
  | nil => cases hfault
  | cons p later ih =>
    rw [firstFault_cons] at hfault
    split at hfault
    · obtain ⟨check, hmem, hcause⟩ := ih hfault
      exact ⟨check, List.mem_cons_of_mem p hmem, hcause⟩
    · exact ⟨p, List.mem_cons_self, Option.some.inj hfault⟩

/-- A command whose checks before `check` hold and whose `check` fails takes that check's fault (60_exceptions.md R181). -/
theorem exec_faulted (passed : List Check) (check : Check) {later : List Check} {run : State}
    (hexec : exec i s = command s (encode i) (passed ++ check :: later) run) (hs : s.flt = false)
    (hpassed : ∀ p ∈ passed, p.holds = true) (hfails : ¬ check.holds = true) :
    exec i s = .next (faulted i check.cause.code s) :=
  hexec.trans (command_fault _ _ hs (firstFault_append hpassed hfails))

theorem exec_faulted_first (check : Check) {later : List Check} {run : State}
    (hexec : exec i s = command s (encode i) (check :: later) run) (hs : s.flt = false) (hfails : ¬ check.holds = true) :
    exec i s = .next (faulted i check.cause.code s) :=
  exec_faulted [] check hexec hs (List.forall_mem_nil _) hfails

theorem exec_faulted_after_reg (check : Check) {later : List Check} {run : State}
    (hexec : exec i s = command s (encode i) (checkReg s.cfg k :: check :: later) run) (hs : s.flt = false)
    (hk : k < s.cfg.rmax) (hfails : ¬ check.holds = true) : exec i s = .next (faulted i check.cause.code s) :=
  exec_faulted [checkReg s.cfg k] check hexec hs (by simp [hk]) hfails

@[simp] theorem checkLane_cause : (checkLane c l).cause = .laneIndexRange := rfl

@[simp] theorem checkCount_cause : (checkCount c count).cause = .countRange := rfl

@[simp] theorem checkValue_cause : (checkValue c v).cause = .valueRange := rfl

@[simp] theorem checkSearchValue_cause : (checkSearchValue c v).cause = .searchValueRange := rfl

theorem Cause.code_eq_two_iff {cause : Cause} : cause.code = 2#8 ↔ cause = .regIndexRange := by
  cases cause <;> decide

/-! ## Indexes -/

/-- A packed-register command checks its register index first, and neither a later check nor its execution raises that fault. -/
theorem exists_command_of_regOperand (hi : regOperand i = some k) (s : State) :
    ∃ later run, exec i s = command s (encode i) (checkReg s.cfg k :: later) run ∧
      (∀ check ∈ later, check.cause ≠ .regIndexRange) ∧ run.flt = s.flt := by
  cases i with
  | gins | gera | gcon | gsize | gcap | glen | bins | bera | bcon | bsize | bcap | brdw => cases hi
  | _ =>
    cases hi
    exact ⟨_, _, rfl, by simp, rfl⟩

/-- The index is tested before every other operand (60_exceptions.md R173). -/
theorem exec_of_rmax_le (hs : s.flt = false) (hi : regOperand i = some k) (hk : s.cfg.rmax ≤ k) :
    exec i s = .next (faulted i 2#8 s) := by
  obtain ⟨later, run, hexec, -⟩ := exists_command_of_regOperand hi s
  exact exec_faulted_first (checkReg s.cfg k) hexec hs (by simp [hk])

/-- An index below `RMAX` does not raise `RegIndexRange`, though a later check may raise its own fault. -/
theorem exec_of_lt_rmax (hs : s.flt = false) (hi : regOperand i = some k) (hk : k < s.cfg.rmax) (hexec : exec i s = .next t) :
    ¬ (t.flt = true ∧ t.fcause = 2#8) := by
  rintro ⟨hflt, hcause⟩
  obtain ⟨later, run, hcommand, hlater, hrun⟩ := exists_command_of_regOperand hi s
  rcases command_cases (hcommand.symm.trans hexec) with ⟨hf, -⟩ | ⟨-, cause, hfault, rfl⟩ | ⟨-, -, rfl⟩
  · cases hs.symm.trans hf
  · rw [firstFault_cons, if_pos (checkReg_holds.2 hk)] at hfault
    obtain ⟨check, hmem, rfl⟩ := exists_mem_of_firstFault hfault
    exact hlater check hmem (Cause.code_eq_two_iff.1 hcause)
  · cases hflt.symm.trans (hrun.trans hs)

theorem exec_brdw (hs : s.flt = false) (hk : k < s.cfg.nb) : exec (.brdw h k) s = .next (s.complete (s.bucket h k)) :=
  command_run _ _ hs (firstFault_eq_none.2 (by simp [hk]))

/-- Settles O15: the index is checked first, and no other check has its cause. -/
theorem indexOutOfItsArrayFaults : Obligations.IndexOutOfItsArrayFaults := by
  refine ⟨fun s i k hs hi => ⟨exec_of_rmax_le hs hi, fun hk => ?_⟩, fun s h k hs => ⟨fun hk => ?_, fun hk => ?_⟩⟩
  · obtain ⟨t, hexec⟩ := exec_next i s
    exact ⟨t, hexec, exec_of_lt_rmax hs hi hk hexec⟩
  · exact exec_faulted_first (checkBucket s.cfg k) rfl hs (by simp [hk])
  · exact ⟨_, exec_brdw hs hk, hs⟩

/-! ## Lanes, counts and values -/

theorem exec_set_of_lanes_le (hs : s.flt = false) (hk : k < s.cfg.rmax) (hl : s.cfg.lanes ≤ l) :
    exec (.set k l v) s = .next (faulted (.set k l v) 4#8 s) :=
  exec_faulted_after_reg (checkLane s.cfg l) rfl hs hk (by simp [hl])

theorem exec_set_of_lmask_lt (hs : s.flt = false) (hk : k < s.cfg.rmax) (hl : l < s.cfg.lanes) (hv : s.cfg.lmask < v) :
    exec (.set k l v) s = .next (faulted (.set k l v) 6#8 s) :=
  exec_faulted [checkReg s.cfg k, checkLane s.cfg l] (checkValue s.cfg v) rfl hs (by simp [hk, hl]) (by simp [hv])

theorem not_checkCount_holds (hcount : count = 0 ∨ c.lanes < count) : ¬ (checkCount c count).holds = true := by
  rw [checkCount_holds]
  omega

theorem not_checkSetValue_holds (hv : v = 0 ∨ c.maxSafe < v) : ¬ (checkSetValue c v).holds = true := by
  rw [checkSetValue_holds]
  omega

theorem not_checkBucketValue_holds (hv : v = 0 ∨ 2047 < v) : ¬ (checkBucketValue v).holds = true := by
  rw [checkBucketValue_holds]
  omega

/-- Settles O16: after the index, `GET` and `SET` check the lane, `MIN` and `MAX` the count. -/
theorem laneAndCountRangeFaults : Obligations.LaneAndCountRangeFaults := by
  intro s k hs hk
  refine ⟨fun l hl => ?_, fun l v => exec_set_of_lanes_le hs hk, fun count hcount => ?_, fun count hcount => ?_⟩
  · exact exec_faulted_after_reg (checkLane s.cfg l) rfl hs hk (by simp [hl])
  · exact exec_faulted_after_reg (checkCount s.cfg count) rfl hs hk (not_checkCount_holds hcount)
  · exact exec_faulted_after_reg (checkCount s.cfg count) rfl hs hk (not_checkCount_holds hcount)

/-- A lane of 32 bits holds every value the command word can carry (60_exceptions.md R175). -/
theorem le_lmask_of_width_32 (hn : c.n = 32) (hv : v < 2 ^ 32) : v ≤ c.lmask := by
  rw [Config.lmask, hn]
  omega

/-- Settles O17: the value is the last operand checked, and the only one of the set commands. -/
theorem valueRangeFaults : Obligations.ValueRangeFaults := by
  intro s hs
  refine ⟨fun k hk => ⟨fun v hv => ⟨?_, fun l hl => exec_set_of_lmask_lt hs hk hl hv⟩, fun v hv => ?_⟩, fun v hv => ?_, fun v hv => ?_,
    fun hn v => le_lmask_of_width_32 hn, maxSafe_of_width_one⟩
  · exact exec_faulted_after_reg (checkValue s.cfg v) rfl hs hk (by simp [hv])
  · have hfails : ¬ (checkSearchValue s.cfg v).holds = true := by simp [hv]
    exact ⟨exec_faulted_after_reg _ rfl hs hk hfails, exec_faulted_after_reg _ rfl hs hk hfails,
      exec_faulted_after_reg _ rfl hs hk hfails⟩
  · have hfails := not_checkSetValue_holds hv
    exact ⟨exec_faulted_first _ rfl hs hfails, exec_faulted_first _ rfl hs hfails, exec_faulted_first _ rfl hs hfails⟩
  · have hfails := not_checkBucketValue_holds hv
    exact ⟨exec_faulted_first _ rfl hs hfails, exec_faulted_first _ rfl hs hfails, exec_faulted_first _ rfl hs hfails⟩

/-- Settles O19: the operands in the order they are checked; the `SET` that passes leaves `FLT` clear. -/
theorem setReportsItsFirstViolation : Obligations.SetReportsItsFirstViolation := by
  intro s k l v hs
  rcases Nat.lt_or_ge k s.cfg.rmax with hk | hk
  · rcases Nat.lt_or_ge l s.cfg.lanes with hl | hl
    · rcases Nat.lt_or_ge s.cfg.lmask v with hv | hv
      · exact ⟨_, exec_set_of_lmask_lt hs hk hl hv, iff_of_true rfl (.inr (.inr hv)), fun hk' => absurd hk' hk.not_ge,
          fun _ hl' => absurd hl' hl.not_ge, fun _ _ _ => rfl⟩
      · refine ⟨_, exec_set hs hk hl hv, iff_of_false ?_ (by omega), fun hk' => absurd hk' hk.not_ge,
          fun _ hl' => absurd hl' hl.not_ge, fun _ _ hv' => absurd hv hv'.not_ge⟩
        simp [hs]
    · exact ⟨_, exec_set_of_lanes_le hs hk hl, iff_of_true rfl (.inr (.inl hl)), fun hk' => absurd hk' hk.not_ge,
        fun _ _ => rfl, fun _ hl' => absurd hl hl'.not_ge⟩
  · exact ⟨_, exec_of_rmax_le hs rfl hk, iff_of_true rfl (.inl hk), fun _ => rfl, fun hk' => absurd hk hk'.not_ge,
      fun hk' => absurd hk hk'.not_ge⟩

end Sys2Proof.Machine

/-! # Reset and stops

What the reset event leaves (70_reset_and_hazards.md R195), and the states in which a step answers no next state (notes/assumptions/5.md). -/

namespace Sys2Proof.Machine

variable {s : State}

/-- Settles O10: apart from the host's own lists, the reset event leaves the reset state of the instance. -/
theorem resetEventResetsEverything : Obligations.ResetEventResetsEverything := by
  intro s rest hok hp
  obtain ⟨-, -, hgcnt, hfixed, hgrow, hflt, hfcause, hfcmd⟩ := resetStateValues s.cfg hok
  exact ⟨_, step_reset hok hp, rfl, State.reg_applyReset _, State.bucket_applyReset _, hgcnt, hfixed, hgrow, hflt, hfcause, hfcmd,
    rfl, rfl⟩

theorem step_without_instance (hok : s.cfg.ok = false) : step s = .fault .noSuchUnit := by
  simp [step, hok]

/-- An instance of the unit takes every input: nothing, a reset, or a command word, legal or not. -/
theorem exists_step_next (hok : s.cfg.ok = true) : ∃ t, step s = .next t := by
  rcases hp : s.pending with _ | ⟨cw | _, rest⟩
  · exact ⟨s, step_idle hok hp⟩
  · obtain ⟨t, hstep, -⟩ := step_command_answers hok hp
    exact ⟨t, hstep⟩
  · exact ⟨_, step_reset hok hp⟩

/-- Settles O13: the parameters are an instance's or they are not. -/
theorem stepStopsOnlyWithoutAnInstance : Obligations.StepStopsOnlyWithoutAnInstance := by
  intro s
  cases hok : s.cfg.ok with
  | false => exact .inl ⟨rfl, step_without_instance hok⟩
  | true => exact .inr ⟨rfl, exists_step_next hok⟩

end Sys2Proof.Machine

/-! # The parameters

The parameters are static (00_scope.md section 3): everything a step is made of keeps them, reset included. -/

namespace Sys2Proof.Machine

theorem stepKeeps_cfg (c : Config) : StepKeeps fun s => s.cfg = c where
  pending _ _ hs := hs
  reset s _ hs := (State.applyReset_cfg s).trans hs
  halted s hs := (State.respondHalted_cfg s).trans hs
  raise s cause cw hs := (State.raise_cfg s cause cw).trans hs
  effect _ _ _ _ hs he := he.answers.cfg.trans hs

/-- Settles O14: the parameters a step starts from survive everything it is made of. -/
theorem noStepChangesTheParameters : Obligations.NoStepChangesTheParameters :=
  fun s _ => (stepKeeps_cfg s.cfg).step rfl

end Sys2Proof.Machine
